-- ==== Sys2Proof/Word.lean ====
section
/-! DEFINITION. The two word types of the core: the byte of a register, a memory cell or a latch, and the
16-bit word of a register pair, the program counter, the stack pointer and the shift register
(spec/00_scope.md rules R6 and R7: XLEN is 8, PAIRW is 16). -/

namespace Sys2Proof

/-- An 8-bit value; bit 0 is the least significant bit (R7). -/
abbrev Byte := BitVec 8

/-- A 16-bit value; bit 0 is the least significant bit (R7). -/
abbrev Word := BitVec 16

end Sys2Proof
end

