-- ==== Sys2Proof/Config.lean ====
section
/-! DEFINITION. What one core fixes for good (spec/00_scope.md rule R6): the sizes the document states, the types
of the parameters it leaves open, the two uninterpreted functions the cycle count is made of, and the free values that
what is unspecified after a fault is made of.
The open parameters are values of type `Params`; a machine carries its own in its state and never changes them,
so a statement about every state holds for every setting. The default setting stands in Machine/Defaults.lean. -/

namespace Sys2Proof

/-- MEMSIZE, the number of bytes of memory (R6, R50). -/
abbrev memSize : Nat := 16384

/-- SP_RESET, the stack pointer after reset (R6, R42). -/
abbrev spReset : Word := 0x23FF#16

/-- NWPORT, the number of output latches (R6, R37). -/
abbrev numWriteLatches : Nat := 7

/-- NRPORT, the number of input latches (R6, R37). -/
abbrev numReadLatches : Nat := 4

/-- PSW_LAYOUT, which end of the status byte the document's "bit0" is (R33, decision D2). -/
inductive PswLayout where
  /-- S has weight 1 and C weight 128: the spec's default. -/
  | lsb0Literal
  /-- S has weight 128 and C weight 1: the mirror image. -/
  | msb0Reading
deriving DecidableEq, Repr

/-- SUB_AC, how a subtraction forms the auxiliary carry (R141, decision D12). -/
inductive SubAc where
  /-- AC is 1 when no borrow from bit 4 is needed: the spec's default. -/
  | intel
  /-- AC is the nibble carry of adding the two's complement of operand and borrow. -/
  | negate
deriving DecidableEq, Repr

/-- SHIFT_MODULUS, what the shift register is reduced by on a write to port 4 (R271, decision D6). -/
inductive ShiftModulus where
  /-- 65536, a true 16-bit register: the spec's default. -/
  | full
  /-- 65535, the reference software's value. -/
  | legacy
deriving DecidableEq, Repr

/-- The parameters of R6 that stay open once the machine runs. -/
structure Params where
  pswLayout    : PswLayout
  subAc        : SubAc
  shiftModulus : ShiftModulus
deriving DecidableEq, Repr

/-- Uninterpreted part of CYCLES (R352): how far above 1 the count of an opcode is when it is unconditional or its
condition is false. No body, so no proof can see a number. -/
opaque Config.cycleBase : Byte → Nat

/-- Uninterpreted part of CYCLES (R352): how many cycles more a taken conditional opcode may cost, beyond the one more
that a conditional call or return costs at least. -/
opaque Config.cycleExtra : Byte → Nat

/-- Free value: the byte at a place of what is unspecified once `cause` has happened (R305 (c), log 11). No body, so no
proof can see a value. -/
opaque Config.unspecifiedByte {α : Type} (cause : α) (place : Nat) : Byte

end Sys2Proof
end

