-- ==== Sys2Proof/Machine/Bits.lean ====
section
/-! DEFINITION. The bit-field, byte-order and wrapping helpers the decoder and the machine share. -/

namespace Sys2Proof

/-- `hi:lo`, the concatenation of two bytes (R7): 256 * hi + lo. -/
def joinBytes (hi lo : Byte) : Word := hi ++ lo

/-- `v[15:8]`, the high byte of a word (R7, R23). -/
def hiByte (v : Word) : Byte := v.extractLsb' 8 8

/-- `v[7:0]`, the low byte of a word (R7, R23). -/
def loByte (v : Word) : Byte := v.extractLsb' 0 8

/-- `v mod MEMSIZE`, what every write to pc and sp stores (R26, R29). -/
def wrapAddr (v : Word) : Word := v % 0x4000#16

/-- Bits 7:6 of an opcode, its quadrant (R82, R89). -/
def opQuadrant (op : Byte) : BitVec 2 := op.extractLsb' 6 2

/-- Bits 5:3 of an opcode: destination register, condition, restart number or operation (R83). -/
def opHigh3 (op : Byte) : BitVec 3 := op.extractLsb' 3 3

/-- Bits 2:0 of an opcode: source register, or the column selector of the map (R83, R89). -/
def opLow3 (op : Byte) : BitVec 3 := op.extractLsb' 0 3

/-- Bits 5:4 of an opcode: register pair (R83). -/
def opPair (op : Byte) : BitVec 2 := op.extractLsb' 4 2

/-- Bit 3 of an opcode, which picks between the two halves of a column of the map (R89). -/
def opBit3 (op : Byte) : Bool := op.getLsbD 3

end Sys2Proof
end

