-- ==== Sys2Proof/Syntax.lean ====
section
/-! DEFINITION. The instruction set as syntax: the operand names of spec/30_encoding.md rules R84, R85 and R87, and one
constructor per row of spec/opcode_table.json (R90, R92), the twelve undefined bytes of R97 among them. -/

namespace Sys2Proof

/-- The seven single registers (R21, R84). Code 110, the memory operand M, is no register: M forms have constructors of
their own. -/
inductive Reg where
  | b | c | d | e | h | l | a
deriving DecidableEq, Repr

/-- The four register-pair operands (R23, R85). -/
inductive Pair where
  | bc | de | hl | sp
deriving DecidableEq, Repr

/-- The eight conditions (R87), in code order. -/
inductive Cond where
  | nz | z | nc | c | po | pe | p | m
deriving DecidableEq, Repr

/-- One constructor per row of the opcode table. A register, pair, restart number or inline operand is an argument; a
form with M, and a form with PSW, is a row and so a constructor of its own. -/
inductive Instr where
  -- data transfer (spec/40_data_transfer.md)
  | movRR (dst src : Reg)
  | movRM (dst : Reg)
  | movMR (src : Reg)
  | mviR (dst : Reg) (v : Byte)
  | mviM (v : Byte)
  | lxi (p : Pair) (v : Word)
  | lda (a : Word)
  | sta (a : Word)
  | lhld (a : Word)
  | shld (a : Word)
  | ldax (p : Pair)
  | stax (p : Pair)
  | xchg
  -- arithmetic and logical operations of A with a register or M (spec/41_arithmetic.md, spec/42_logical.md)
  | addR (r : Reg)
  | addM
  | adcR (r : Reg)
  | adcM
  | subR (r : Reg)
  | subM
  | sbbR (r : Reg)
  | sbbM
  | anaR (r : Reg)
  | anaM
  | xraR (r : Reg)
  | xraM
  | oraR (r : Reg)
  | oraM
  | cmpR (r : Reg)
  | cmpM
  -- the same operations with an immediate byte
  | adi (v : Byte)
  | aci (v : Byte)
  | sui (v : Byte)
  | sbi (v : Byte)
  | ani (v : Byte)
  | xri (v : Byte)
  | ori (v : Byte)
  | cpi (v : Byte)
  -- increment, decrement, 16-bit arithmetic, decimal adjust
  | inrR (r : Reg)
  | inrM
  | dcrR (r : Reg)
  | dcrM
  | inx (p : Pair)
  | dcx (p : Pair)
  | dad (p : Pair)
  | daa
  -- rotates, complement, carry
  | rlc
  | rrc
  | ral
  | rar
  | cma
  | cmc
  | stc
  -- control transfer (spec/43_control_transfer.md)
  | jmp (a : Word)
  | jnz (a : Word)
  | jz (a : Word)
  | jnc (a : Word)
  | jc (a : Word)
  | jpo (a : Word)
  | jpe (a : Word)
  | jp (a : Word)
  | jm (a : Word)
  | call (a : Word)
  | cnz (a : Word)
  | cz (a : Word)
  | cnc (a : Word)
  | cc (a : Word)
  | cpo (a : Word)
  | cpe (a : Word)
  | cp (a : Word)
  | cm (a : Word)
  | ret
  | rnz
  | rz
  | rnc
  | rc
  | rpo
  | rpe
  | rp
  | rm
  | rst (n : BitVec 3)
  | pchl
  -- stack (spec/44_stack.md)
  | push (p : Pair)
  | pushPsw
  | pop (p : Pair)
  | popPsw
  | xthl
  | sphl
  -- input, output, machine control (spec/45_io_and_control.md)
  | inPort (port : Byte)
  | outPort (port : Byte)
  | hlt
  | nop
  | ei
  | di
  -- the twelve bytes that select no instruction (R97), each a row of the table named "(undefined)"
  | undef08
  | undef10
  | undef18
  | undef20
  | undef28
  | undef30
  | undef38
  | undefCB
  | undefD9
  | undefDD
  | undefED
  | undefFD
deriving DecidableEq, Repr

end Sys2Proof
end

