-- ==== Sys2Proof/WellFormed.lean ====
section
/-! DEFINITION. Which instruction terms an opcode byte can express. The only terms the syntax has and the encoding has
not are the six of spec/30_encoding.md rule R95: PUSH SP, POP SP, and LDAX or STAX with HL or SP. -/

namespace Sys2Proof

/-- The pairs PUSH and POP accept: BC, DE, HL; code 11 selects PSW there, a row of its own (R85, R242, R243). -/
def Pair.isStackable : Pair → Bool
  | .bc | .de | .hl => true
  | .sp => false

/-- The pairs LDAX and STAX accept: BC and DE (R120, R121). -/
def Pair.isIndirect : Pair → Bool
  | .bc | .de => true
  | .hl | .sp => false

/-- The instruction has an encoding (R90); the checks are those of R95. -/
def Instr.wellFormed : Instr → Bool
  | .push p | .pop p => p.isStackable
  | .ldax p | .stax p => p.isIndirect
  | .movRR _ _ | .movRM _ | .movMR _ | .mviR _ _ | .mviM _ | .lxi _ _ | .lda _ | .sta _ | .lhld _ | .shld _ | .xchg => true
  | .addR _ | .addM | .adcR _ | .adcM | .subR _ | .subM | .sbbR _ | .sbbM => true
  | .anaR _ | .anaM | .xraR _ | .xraM | .oraR _ | .oraM | .cmpR _ | .cmpM => true
  | .adi _ | .aci _ | .sui _ | .sbi _ | .ani _ | .xri _ | .ori _ | .cpi _ => true
  | .inrR _ | .inrM | .dcrR _ | .dcrM | .inx _ | .dcx _ | .dad _ | .daa => true
  | .rlc | .rrc | .ral | .rar | .cma | .cmc | .stc => true
  | .jmp _ | .jnz _ | .jz _ | .jnc _ | .jc _ | .jpo _ | .jpe _ | .jp _ | .jm _ => true
  | .call _ | .cnz _ | .cz _ | .cnc _ | .cc _ | .cpo _ | .cpe _ | .cp _ | .cm _ => true
  | .ret | .rnz | .rz | .rnc | .rc | .rpo | .rpe | .rp | .rm | .rst _ | .pchl => true
  | .pushPsw | .popPsw | .xthl | .sphl | .inPort _ | .outPort _ | .hlt | .nop | .ei | .di => true
  | .undef08 | .undef10 | .undef18 | .undef20 | .undef28 | .undef30 | .undef38 => true
  | .undefCB | .undefD9 | .undefDD | .undefED | .undefFD => true

end Sys2Proof
end

