-- ==== Sys2Proof/Decode.lean ====
section
/-! DEFINITION. The decoder, total on any bytes, and after it the encoder (spec/30_encoding.md rules R80 to R98).
The opcode byte alone selects the instruction and its length (R80, R93); a three-byte instruction has the low byte of
its operand first (R54, R88). -/

namespace Sys2Proof

/-! ### Field codes -/

/-- The register a 3-bit code names; code 110 names the memory operand M and no register (R84). -/
def Reg.ofCode (c : BitVec 3) : Option Reg :=
  match c.toNat with
  | 0 => some .b
  | 1 => some .c
  | 2 => some .d
  | 3 => some .e
  | 4 => some .h
  | 5 => some .l
  | 6 => none
  | _ => some .a

/-- The 3-bit code of a register (R84). -/
def Reg.code : Reg → BitVec 3
  | .b => 0b000
  | .c => 0b001
  | .d => 0b010
  | .e => 0b011
  | .h => 0b100
  | .l => 0b101
  | .a => 0b111

/-- The pair a 2-bit code names where code 11 is SP (R85). -/
def Pair.ofCode (c : BitVec 2) : Pair :=
  match c.toNat with
  | 0 => .bc
  | 1 => .de
  | 2 => .hl
  | _ => .sp

/-- The 2-bit code of a pair (R85). -/
def Pair.code : Pair → BitVec 2
  | .bc => 0b00
  | .de => 0b01
  | .hl => 0b10
  | .sp => 0b11

/-- The 3-bit code of a condition (R87). -/
def Cond.code : Cond → BitVec 3
  | .nz => 0b000
  | .z  => 0b001
  | .nc => 0b010
  | .c  => 0b011
  | .po => 0b100
  | .pe => 0b101
  | .p  => 0b110
  | .m  => 0b111

/-! ### Decoding -/

/-- What an opcode byte selects: a whole instruction, or one that still wants its inline byte or word. -/
inductive Template where
  | implied (i : Instr)
  | wantsByte (build : Byte → Instr)
  | wantsWord (build : Word → Instr)

/-- Why a list of bytes is no instruction. -/
inductive DecodeError where
  /-- There is no byte at all. -/
  | noBytes
  /-- The opcode wants more inline bytes than the list holds. -/
  | missingOperand (opcode : Byte)
deriving DecidableEq, Repr

/-- A register form where the code names a register, the M form where it is 110 (R86). -/
def regOrMem (c : BitVec 3) (reg : Reg → Instr) (mem : Instr) : Instr :=
  match Reg.ofCode c with
  | some r => reg r
  | none => mem

/-- Column 000 of quadrant 00: NOP and seven undefined bytes (R89, R97). -/
def decodeMisc0 (op : Byte) : Instr :=
  match (opHigh3 op).toNat with
  | 0 => .nop
  | 1 => .undef08
  | 2 => .undef10
  | 3 => .undef18
  | 4 => .undef20
  | 5 => .undef28
  | 6 => .undef30
  | _ => .undef38

/-- Column 010 of quadrant 00: the indirect and direct loads and stores (R89). -/
def decodeLoadStore (op : Byte) : Template :=
  match (opHigh3 op).toNat with
  | 0 => .implied (.stax .bc)
  | 1 => .implied (.ldax .bc)
  | 2 => .implied (.stax .de)
  | 3 => .implied (.ldax .de)
  | 4 => .wantsWord .shld
  | 5 => .wantsWord .lhld
  | 6 => .wantsWord .sta
  | _ => .wantsWord .lda

/-- Column 111 of quadrant 00: rotates, decimal adjust, complement, carry (R89). -/
def decodeAccumulator (op : Byte) : Instr :=
  match (opHigh3 op).toNat with
  | 0 => .rlc
  | 1 => .rrc
  | 2 => .ral
  | 3 => .rar
  | 4 => .daa
  | 5 => .cma
  | 6 => .stc
  | _ => .cmc

/-- Quadrant 00 of the map, by the low three bits (R89). -/
def decodeQuadrant0 (op : Byte) : Template :=
  match (opLow3 op).toNat with
  | 0 => .implied (decodeMisc0 op)
  | 1 => if opBit3 op then .implied (.dad (Pair.ofCode (opPair op))) else .wantsWord (.lxi (Pair.ofCode (opPair op)))
  | 2 => decodeLoadStore op
  | 3 => .implied (if opBit3 op then .dcx (Pair.ofCode (opPair op)) else .inx (Pair.ofCode (opPair op)))
  | 4 => .implied (regOrMem (opHigh3 op) .inrR .inrM)
  | 5 => .implied (regOrMem (opHigh3 op) .dcrR .dcrM)
  | 6 => .wantsByte fun v => regOrMem (opHigh3 op) (.mviR · v) (.mviM v)
  | _ => .implied (decodeAccumulator op)

/-- Quadrant 01: MOV, and HLT where both fields are 110 (R86, R94). -/
def decodeQuadrant1 (op : Byte) : Instr :=
  match Reg.ofCode (opHigh3 op), Reg.ofCode (opLow3 op) with
  | some dst, some src => .movRR dst src
  | some dst, none => .movRM dst
  | none, some src => .movMR src
  | none, none => .hlt

/-- Quadrant 10: the operation of bits 5:3 on the source of bits 2:0 (R83). -/
def decodeQuadrant2 (op : Byte) : Instr :=
  match (opHigh3 op).toNat with
  | 0 => regOrMem (opLow3 op) .addR .addM
  | 1 => regOrMem (opLow3 op) .adcR .adcM
  | 2 => regOrMem (opLow3 op) .subR .subM
  | 3 => regOrMem (opLow3 op) .sbbR .sbbM
  | 4 => regOrMem (opLow3 op) .anaR .anaM
  | 5 => regOrMem (opLow3 op) .xraR .xraM
  | 6 => regOrMem (opLow3 op) .oraR .oraM
  | _ => regOrMem (opLow3 op) .cmpR .cmpM

/-- The conditional returns in condition order (R87, R90). -/
def decodeReturnIf (op : Byte) : Instr :=
  match (opHigh3 op).toNat with
  | 0 => .rnz
  | 1 => .rz
  | 2 => .rnc
  | 3 => .rc
  | 4 => .rpo
  | 5 => .rpe
  | 6 => .rp
  | _ => .rm

/-- The conditional jumps in condition order (R87, R90). -/
def decodeJumpIf (op : Byte) (a : Word) : Instr :=
  match (opHigh3 op).toNat with
  | 0 => .jnz a
  | 1 => .jz a
  | 2 => .jnc a
  | 3 => .jc a
  | 4 => .jpo a
  | 5 => .jpe a
  | 6 => .jp a
  | _ => .jm a

/-- The conditional calls in condition order (R87, R90). -/
def decodeCallIf (op : Byte) (a : Word) : Instr :=
  match (opHigh3 op).toNat with
  | 0 => .cnz a
  | 1 => .cz a
  | 2 => .cnc a
  | 3 => .cc a
  | 4 => .cpo a
  | 5 => .cpe a
  | 6 => .cp a
  | _ => .cm a

/-- Column 001 of quadrant 11: POP, and RET, an undefined byte, PCHL, SPHL (R85, R89). -/
def decodePopColumn (op : Byte) : Instr :=
  match opBit3 op, (opPair op).toNat with
  | false, 0 => .pop .bc
  | false, 1 => .pop .de
  | false, 2 => .pop .hl
  | false, _ => .popPsw
  | true, 0 => .ret
  | true, 1 => .undefD9
  | true, 2 => .pchl
  | true, _ => .sphl

/-- Column 011 of quadrant 11 (R89). -/
def decodeSystem (op : Byte) : Template :=
  match (opHigh3 op).toNat with
  | 0 => .wantsWord .jmp
  | 1 => .implied .undefCB
  | 2 => .wantsByte .outPort
  | 3 => .wantsByte .inPort
  | 4 => .implied .xthl
  | 5 => .implied .xchg
  | 6 => .implied .di
  | _ => .implied .ei

/-- Column 101 of quadrant 11: PUSH, and CALL and three undefined bytes (R85, R89). -/
def decodePushColumn (op : Byte) : Template :=
  match opBit3 op, (opPair op).toNat with
  | false, 0 => .implied (.push .bc)
  | false, 1 => .implied (.push .de)
  | false, 2 => .implied (.push .hl)
  | false, _ => .implied .pushPsw
  | true, 0 => .wantsWord .call
  | true, 1 => .implied .undefDD
  | true, 2 => .implied .undefED
  | true, _ => .implied .undefFD

/-- Column 110 of quadrant 11: the operation of bits 5:3 with an immediate byte (R83). -/
def decodeImmediate (op : Byte) (v : Byte) : Instr :=
  match (opHigh3 op).toNat with
  | 0 => .adi v
  | 1 => .aci v
  | 2 => .sui v
  | 3 => .sbi v
  | 4 => .ani v
  | 5 => .xri v
  | 6 => .ori v
  | _ => .cpi v

/-- Quadrant 11 of the map, by the low three bits (R89). -/
def decodeQuadrant3 (op : Byte) : Template :=
  match (opLow3 op).toNat with
  | 0 => .implied (decodeReturnIf op)
  | 1 => .implied (decodePopColumn op)
  | 2 => .wantsWord (decodeJumpIf op)
  | 3 => decodeSystem op
  | 4 => .wantsWord (decodeCallIf op)
  | 5 => decodePushColumn op
  | 6 => .wantsByte (decodeImmediate op)
  | _ => .implied (.rst (opHigh3 op))

/-- `Decode(op)` of R93: what each of the 256 opcode bytes selects (the map of R91). -/
def decodeOpcode (op : Byte) : Template :=
  match (opQuadrant op).toNat with
  | 0 => decodeQuadrant0 op
  | 1 => .implied (decodeQuadrant1 op)
  | 2 => .implied (decodeQuadrant2 op)
  | _ => decodeQuadrant3 op

/-- How many bytes a template's instruction has (R80). -/
def Template.length : Template → Nat
  | .implied _ => 1
  | .wantsByte _ => 2
  | .wantsWord _ => 3

/-- The length in bytes of the instruction an opcode selects (R80, R98). -/
def opcodeLength (op : Byte) : Nat := (decodeOpcode op).length

/-- Decode the instruction at the head of a list of bytes and give it with the bytes after it. -/
def decode : List Byte → Except DecodeError (Instr × List Byte)
  | [] => .error .noBytes
  | op :: rest =>
    match decodeOpcode op, rest with
    | .implied i, rest => .ok (i, rest)
    | .wantsByte build, v :: rest => .ok (build v, rest)
    | .wantsWord build, lo :: hi :: rest => .ok (build (joinBytes hi lo), rest)
    | .wantsByte _, [] => .error (.missingOperand op)
    | .wantsWord _, _ => .error (.missingOperand op)

/-- The three bytes of a word of the opcode table, the first in bits 7:0; bits from `nbits` up are zero. -/
def tableBytes (nbits w : Nat) : List Byte :=
  let v := w % 2 ^ nbits
  [BitVec.ofNat 8 v, BitVec.ofNat 8 (v / 256), BitVec.ofNat 8 (v / 65536)]

/-- The instruction the decoder reads from a word of the opcode table. -/
def decodeTableWord (nbits w : Nat) : Option Instr :=
  match decode (tableBytes nbits w) with
  | .ok (i, _) => some i
  | .error _ => none

/-! ### Encoding -/

/-- An opcode followed by a 16-bit operand, low byte first (R54, R88). -/
def withOperand (op : Byte) (v : Word) : List Byte := [op, loByte v, hiByte v]

/-- The bytes of an instruction, from the patterns of R90. -/
def encode : Instr → List Byte
  | .movRR dst src => [0b01#2 ++ dst.code ++ src.code]
  | .movRM dst => [0b01#2 ++ dst.code ++ 0b110#3]
  | .movMR src => [0b01110#5 ++ src.code]
  | .mviR dst v => [0b00#2 ++ dst.code ++ 0b110#3, v]
  | .mviM v => [0b00110110, v]
  | .lxi p v => withOperand (0b00#2 ++ p.code ++ 0b0001#4) v
  | .lda a => withOperand 0b00111010 a
  | .sta a => withOperand 0b00110010 a
  | .lhld a => withOperand 0b00101010 a
  | .shld a => withOperand 0b00100010 a
  | .ldax p => [0b00#2 ++ p.code ++ 0b1010#4]
  | .stax p => [0b00#2 ++ p.code ++ 0b0010#4]
  | .xchg => [0b11101011]
  | .addR r => [0b10000#5 ++ r.code]
  | .addM => [0b10000110]
  | .adcR r => [0b10001#5 ++ r.code]
  | .adcM => [0b10001110]
  | .subR r => [0b10010#5 ++ r.code]
  | .subM => [0b10010110]
  | .sbbR r => [0b10011#5 ++ r.code]
  | .sbbM => [0b10011110]
  | .anaR r => [0b10100#5 ++ r.code]
  | .anaM => [0b10100110]
  | .xraR r => [0b10101#5 ++ r.code]
  | .xraM => [0b10101110]
  | .oraR r => [0b10110#5 ++ r.code]
  | .oraM => [0b10110110]
  | .cmpR r => [0b10111#5 ++ r.code]
  | .cmpM => [0b10111110]
  | .adi v => [0b11000110, v]
  | .aci v => [0b11001110, v]
  | .sui v => [0b11010110, v]
  | .sbi v => [0b11011110, v]
  | .ani v => [0b11100110, v]
  | .xri v => [0b11101110, v]
  | .ori v => [0b11110110, v]
  | .cpi v => [0b11111110, v]
  | .inrR r => [0b00#2 ++ r.code ++ 0b100#3]
  | .inrM => [0b00110100]
  | .dcrR r => [0b00#2 ++ r.code ++ 0b101#3]
  | .dcrM => [0b00110101]
  | .inx p => [0b00#2 ++ p.code ++ 0b0011#4]
  | .dcx p => [0b00#2 ++ p.code ++ 0b1011#4]
  | .dad p => [0b00#2 ++ p.code ++ 0b1001#4]
  | .daa => [0b00100111]
  | .rlc => [0b00000111]
  | .rrc => [0b00001111]
  | .ral => [0b00010111]
  | .rar => [0b00011111]
  | .cma => [0b00101111]
  | .cmc => [0b00111111]
  | .stc => [0b00110111]
  | .jmp a => withOperand 0b11000011 a
  | .jnz a => withOperand (0b11#2 ++ Cond.nz.code ++ 0b010#3) a
  | .jz a => withOperand (0b11#2 ++ Cond.z.code ++ 0b010#3) a
  | .jnc a => withOperand (0b11#2 ++ Cond.nc.code ++ 0b010#3) a
  | .jc a => withOperand (0b11#2 ++ Cond.c.code ++ 0b010#3) a
  | .jpo a => withOperand (0b11#2 ++ Cond.po.code ++ 0b010#3) a
  | .jpe a => withOperand (0b11#2 ++ Cond.pe.code ++ 0b010#3) a
  | .jp a => withOperand (0b11#2 ++ Cond.p.code ++ 0b010#3) a
  | .jm a => withOperand (0b11#2 ++ Cond.m.code ++ 0b010#3) a
  | .call a => withOperand 0b11001101 a
  | .cnz a => withOperand (0b11#2 ++ Cond.nz.code ++ 0b100#3) a
  | .cz a => withOperand (0b11#2 ++ Cond.z.code ++ 0b100#3) a
  | .cnc a => withOperand (0b11#2 ++ Cond.nc.code ++ 0b100#3) a
  | .cc a => withOperand (0b11#2 ++ Cond.c.code ++ 0b100#3) a
  | .cpo a => withOperand (0b11#2 ++ Cond.po.code ++ 0b100#3) a
  | .cpe a => withOperand (0b11#2 ++ Cond.pe.code ++ 0b100#3) a
  | .cp a => withOperand (0b11#2 ++ Cond.p.code ++ 0b100#3) a
  | .cm a => withOperand (0b11#2 ++ Cond.m.code ++ 0b100#3) a
  | .ret => [0b11001001]
  | .rnz => [0b11#2 ++ Cond.nz.code ++ 0b000#3]
  | .rz => [0b11#2 ++ Cond.z.code ++ 0b000#3]
  | .rnc => [0b11#2 ++ Cond.nc.code ++ 0b000#3]
  | .rc => [0b11#2 ++ Cond.c.code ++ 0b000#3]
  | .rpo => [0b11#2 ++ Cond.po.code ++ 0b000#3]
  | .rpe => [0b11#2 ++ Cond.pe.code ++ 0b000#3]
  | .rp => [0b11#2 ++ Cond.p.code ++ 0b000#3]
  | .rm => [0b11#2 ++ Cond.m.code ++ 0b000#3]
  | .rst n => [0b11#2 ++ n ++ 0b111#3]
  | .pchl => [0b11101001]
  | .push p => [0b11#2 ++ p.code ++ 0b0101#4]
  | .pushPsw => [0b11110101]
  | .pop p => [0b11#2 ++ p.code ++ 0b0001#4]
  | .popPsw => [0b11110001]
  | .xthl => [0b11100011]
  | .sphl => [0b11111001]
  | .inPort port => [0b11011011, port]
  | .outPort port => [0b11010011, port]
  | .hlt => [0b01110110]
  | .nop => [0b00000000]
  | .ei => [0b11111011]
  | .di => [0b11110011]
  | .undef08 => [0b00001000]
  | .undef10 => [0b00010000]
  | .undef18 => [0b00011000]
  | .undef20 => [0b00100000]
  | .undef28 => [0b00101000]
  | .undef30 => [0b00110000]
  | .undef38 => [0b00111000]
  | .undefCB => [0b11001011]
  | .undefD9 => [0b11011001]
  | .undefDD => [0b11011101]
  | .undefED => [0b11101101]
  | .undefFD => [0b11111101]

end Sys2Proof
end

