-- ==== Sys2Proof/Machine/Defaults.lean ====
section
/-! DEFINITION. The values this machine is run with where the spec leaves a choice: the default setting of the open
parameters (spec/00_scope.md rule R6), the default pc reset address (R41), what a byte of memory nothing has written
reads as (R43) and the launch values of what the spec calls unspecified (R40, R44). No statement rests on them but the
ones that say so: statements quantify over every state and every launch. -/

namespace Sys2Proof.Machine

/-- The spec's default parameters (R6): lsb0_literal, intel, 65536. -/
def defaultParams : Params := { pswLayout := .lsb0Literal, subAc := .intel, shiftModulus := .full }

/-- The default of PC_RESET (R41, decision D5). -/
def defaultPcReset : Word := 0x0000#16

/-- What an address no entry of memory lists reads as. DESIGN CHOICE, unsafe, log 2: R43 calls such a byte arbitrary. -/
def unlistedByte : Byte := 0x00#8

/-- The launch value of a register or latch. DESIGN CHOICE, unsafe, log 1: R40 and R44 call it arbitrary. -/
def defaultLaunchByte : Byte := 0x00#8

/-- The launch value of a flag. DESIGN CHOICE, unsafe, log 1: R40 calls it arbitrary. -/
def defaultLaunchFlag : Bool := false

/-- The launch value of the shift register. DESIGN CHOICE, unsafe, log 1: R44 calls it arbitrary. -/
def defaultLaunchShift : Word := 0x0000#16

end Sys2Proof.Machine
end

