-- ==== Sys2Proof/Machine/State.lean ====
section
/-! DEFINITION. Everything the spec gives the machine to hold (spec/10_state.md rules R20 to R45), the reasons a step
stops (spec/60_exceptions.md rule R300), the launch values and the state after reset
(spec/70_reset_and_hazards.md rules R340 to R342). -/

namespace Sys2Proof.Machine

/-- The fatal failures, the whole set of R300. Each ends the run; raising one is what the spec says, so it is safe. -/
inductive Fault where
  /-- Raised by the twelve undefined opcodes, fetched or injected (R97, R301). Safe: the spec names this failure. -/
  | decodeFailure (opcode : Byte)
  /-- Raised by PUSH SP, POP SP, LDAX and STAX with HL or SP, which no byte encodes (R95, R302). Safe. -/
  | invalidRegister (code : Nat)
  /-- Raised by IN from a port above 3 and OUT to a port above 6 (R303). Safe. -/
  | invalidPort (port : Byte)
  /-- Raised by a memory access below 0 or from MEMSIZE up (R52, R304); the address is a plain integer. Safe. -/
  | outOfRange (address : Int)
deriving DecidableEq, Repr

/-- Why a step is not taken at all. -/
inductive Refusal where
  /-- Answered by exec's arm of an instruction that has no meaning yet. Safe. -/
  | notModelled (mnemonic : String)
  /-- Answered by a step of a halted core: HLT is terminal (R312). Safe: the spec gives no such step. -/
  | coreHalted
  /-- Answered by a step of a faulted core: a fault is terminal (R305). Safe: the spec gives no such step. -/
  | coreFaulted
deriving DecidableEq, Repr

/-- The seven single registers (R21). The pairs BC, DE, HL are views of them (R23). -/
structure Regs where
  b : Byte
  c : Byte
  d : Byte
  e : Byte
  h : Byte
  l : Byte
  a : Byte
deriving DecidableEq, Repr

/-- The five condition flags (R30). The status byte is a view of them (R34). -/
structure Flags where
  s  : Bool
  z  : Bool
  ac : Bool
  p  : Bool
  c  : Bool
deriving DecidableEq, Repr

/-- The I/O bus (R37): output latches W, input latches RB, shift register SR. -/
structure IoBus where
  w  : Vector Byte numWriteLatches
  rb : Vector Byte numReadLatches
  sr : Word
deriving DecidableEq, Repr

/-- Memory as its listed bytes: addresses strictly rising and below MEMSIZE, no byte equal to what an unlisted address
reads as (`Memory.wf`). -/
abbrev Memory := List Host.Cell

/-- One move of an agent at a boundary between steps (R326). The display's move reads and changes nothing, and the
loader's comes before the first step; they are functions of a state in Machine/HostAccess.lean. -/
inductive Move where
  /-- The driver calls the step without an opcode: one fetched instruction. -/
  | runCycle
  /-- The driver injects an opcode (R310). -/
  | inject (opcode : Byte)
  /-- An input source sets one bit of an input latch (R272). -/
  | setReadBit (port : Fin numReadLatches) (bit : Fin 8) (value : Bool)
deriving DecidableEq, Repr

/-- The whole state. `regs` to `faulted` are R20's; `params` and `schedule` are the model's own (logs 3 and 8). -/
structure State where
  regs     : Regs
  flags    : Flags
  /-- Program counter, a 16-bit field whose value stays below 16384 (R26). -/
  pc       : Word
  /-- Stack pointer, a 16-bit field whose value stays below 16384 (R29). -/
  sp       : Word
  mem      : Memory
  io       : IoBus
  /-- Set by HLT, cleared by nothing but reset (R38). -/
  halted   : Bool
  /-- The reason of the fault that ended the run, if one did (R38). -/
  faulted  : Option Fault
  /-- The setting of the open parameters; no step changes it. -/
  params   : Params
  /-- The moves of driver and input source still to come; with none left, fetched steps follow. -/
  schedule : List Move
deriving DecidableEq, Repr

/-- The three outcomes of an instruction's meaning or of a step. -/
abbrev Outcome := Host.Outcome State Fault Refusal

/-- What the spec leaves to the launch (R6, R40, R41, R43, R44, R341): every field is arbitrary, but that the image is
memory in its canonical form. -/
structure Launch where
  pcReset  : Word
  regs     : Regs
  flags    : Flags
  image    : Memory
  io       : IoBus
  params   : Params
  schedule : List Move
deriving DecidableEq, Repr

/-- The state after reset for any launch values (R341): pc is PC_RESET mod 16384, sp is 0x23FF. -/
def State.launch (l : Launch) : State where
  regs := l.regs
  flags := l.flags
  pc := wrapAddr l.pcReset
  sp := spReset
  mem := l.image
  io := l.io
  halted := false
  faulted := none
  params := l.params
  schedule := l.schedule

/-- The launch values `State.reset` takes: the spec's defaults, nothing loaded, and the values of log 1. -/
def Launch.default : Launch where
  pcReset := defaultPcReset
  regs := ⟨defaultLaunchByte, defaultLaunchByte, defaultLaunchByte, defaultLaunchByte, defaultLaunchByte,
    defaultLaunchByte, defaultLaunchByte⟩
  flags := ⟨defaultLaunchFlag, defaultLaunchFlag, defaultLaunchFlag, defaultLaunchFlag, defaultLaunchFlag⟩
  image := []
  io := { w := Vector.replicate numWriteLatches defaultLaunchByte, rb := Vector.replicate numReadLatches defaultLaunchByte,
          sr := defaultLaunchShift }
  params := defaultParams
  schedule := []

/-- The machine right after reset (R340, R341). -/
def State.reset : State := State.launch Launch.default

end Sys2Proof.Machine
end

