-- ==== Sys2Proof/Machine/Ops.lean ====
section
/-! DEFINITION. The named operations over memory, registers, stack and I/O bus that every meaning is written with
(spec/10_state.md, spec/20_memory.md, spec/44_stack.md rules R240 and R241, spec/45_io_and_control.md rules R270 to
R272), interrupt entry and the return from it (spec/60_exceptions.md rules R311 and R314), and recording a fault. -/

namespace Sys2Proof.Machine

/-! ### Memory -/

/-- The byte at an address, listed or not (R53: a read has no side effect). -/
def Memory.read : Memory → Nat → Byte
  | [], _ => unlistedByte
  | (k, v) :: rest, a => if a = k then v else Memory.read rest a

/-- The memory with one byte replaced, in canonical form again. -/
def Memory.write : Memory → Nat → Byte → Memory
  | [], a, v => if v = unlistedByte then [] else [(a, v)]
  | (k, w) :: rest, a, v =>
    if a < k then
      if v = unlistedByte then (k, w) :: rest else (a, v) :: (k, w) :: rest
    else if a = k then
      if v = unlistedByte then rest else (a, v) :: rest
    else (k, w) :: Memory.write rest a v

/-- The canonical form: addresses strictly rise and lie below MEMSIZE, and no entry holds what an unlisted address reads
as. -/
abbrev Memory.wf (m : Memory) : Prop :=
  m.Pairwise (fun x y => x.1 < y.1) ∧ ∀ x ∈ m, x.1 < memSize ∧ x.2 ≠ unlistedByte

/-- The addresses that exist: 0 .. MEMSIZE - 1 (R52). -/
abbrev inMemory (a : Int) : Prop := 0 ≤ a ∧ a < (memSize : Int)

/-- `MemRead(addr, 1)` (R53). -/
def State.memRead (s : State) (a : Int) : Except Fault Byte :=
  if inMemory a then .ok (s.mem.read a.toNat) else .error (.outOfRange a)

/-- `MemWrite(addr, 1, v)` (R53). -/
def State.memWrite (s : State) (a : Int) (v : Byte) : Except Fault State :=
  if inMemory a then .ok { s with mem := s.mem.write a.toNat v } else .error (.outOfRange a)

/-- `MemRead(addr, 2)`: low byte first (R53, R54). -/
def State.memRead16 (s : State) (a : Int) : Except Fault Word := do
  let lo ← s.memRead a
  let hi ← s.memRead (a + 1)
  return joinBytes hi lo

/-- `MemWrite(addr, 2, v)`: low byte first (R53, R54). -/
def State.memWrite16 (s : State) (a : Int) (v : Word) : Except Fault State := do
  let s1 ← s.memWrite a (loByte v)
  s1.memWrite (a + 1) (hiByte v)

/-- What a meaning answers: the state it reached, or the fault raised on the way (R11). -/
def finish : Except Fault State → Outcome
  | .ok s => .next s
  | .error f => .fault f

/-! ### Registers -/

/-- `x[i]` read (R8, R21). -/
def Regs.get (x : Regs) : Reg → Byte
  | .b => x.b
  | .c => x.c
  | .d => x.d
  | .e => x.e
  | .h => x.h
  | .l => x.l
  | .a => x.a

/-- `x[i] <- v` (R8, R22). -/
def Regs.set (x : Regs) (r : Reg) (v : Byte) : Regs :=
  match r with
  | .b => { x with b := v }
  | .c => { x with c := v }
  | .d => { x with d := v }
  | .e => { x with e := v }
  | .h => { x with h := v }
  | .l => { x with l := v }
  | .a => { x with a := v }

/-- The register `r` of a state. -/
def State.reg (s : State) (r : Reg) : Byte := s.regs.get r

/-- The state with register `r` written. -/
def State.setReg (s : State) (r : Reg) (v : Byte) : State := { s with regs := s.regs.set r v }

/-- The accumulator. -/
def State.acc (s : State) : Byte := s.reg .a

/-- The accumulator written. -/
def State.setAcc (s : State) (v : Byte) : State := s.setReg .a v

/-- `pc <- v`, stored mod 16384 (R26). -/
def State.setPc (s : State) (v : Word) : State := { s with pc := wrapAddr v }

/-- `sp <- v`, stored mod 16384 (R29). -/
def State.setSp (s : State) (v : Word) : State := { s with sp := wrapAddr v }

/-- `rp[j]` read: the first-named register is the high byte; code 3 is sp (R8, R23). -/
def State.pair (s : State) : Pair → Word
  | .bc => joinBytes (s.reg .b) (s.reg .c)
  | .de => joinBytes (s.reg .d) (s.reg .e)
  | .hl => joinBytes (s.reg .h) (s.reg .l)
  | .sp => s.sp

/-- `rp[j] <- v`: halves to the two registers; code 3 writes sp, mod 16384 (R8, R23, R29). -/
def State.setPair (s : State) (p : Pair) (v : Word) : State :=
  match p with
  | .bc => (s.setReg .b (hiByte v)).setReg .c (loByte v)
  | .de => (s.setReg .d (hiByte v)).setReg .e (loByte v)
  | .hl => (s.setReg .h (hiByte v)).setReg .l (loByte v)
  | .sp => s.setSp v

/-- The flags written together (R35). -/
def State.setFlags (s : State) (f : Flags) : State := { s with flags := f }

/-! ### Stack, interrupt entry and return -/

/-- `Push16(v)`: high byte at sp - 1 first, low byte at sp - 2, then sp down by 2 (R240). -/
def State.push16 (s : State) (v : Word) : Except Fault State := do
  let s1 ← s.memWrite ((s.sp.toNat : Int) - 1) (hiByte v)
  let s2 ← s1.memWrite ((s.sp.toNat : Int) - 2) (loByte v)
  return s2.setSp (s.sp - 2)

/-- `Pop16()`: low byte at sp first, high byte at sp + 1, then sp up by 2 (R241). -/
def State.pop16 (s : State) : Except Fault (Word × State) := do
  let v ← s.memRead16 (s.sp.toNat : Int)
  return (v, s.setSp (s.sp + 2))

/-- Push pc and go to a target: CALL, a taken Ccond, RST (R213, R214, R217). Injected, an RST is the machine's interrupt
entry, and this is all of it: nothing but pc is saved and nothing else changes (R311). -/
def State.callTo (s : State) (target : Word) : Except Fault State := do
  let s1 ← s.push16 s.pc
  return s1.setPc target

/-- Pop pc: RET and a taken Rcond (R215, R216). It is the return from an interrupt too; it restores pc only (R314). -/
def State.returnFromCall (s : State) : Except Fault State := do
  let (a, s1) ← s.pop16
  return s1.setPc a

/-- The target of RST n, and so the vector of interrupt n: 8 * n (R217, R311). -/
def restartTarget (n : BitVec 3) : Word := BitVec.ofNat 16 (8 * n.toNat)

/-! ### After a fault -/

/-- The memory that holds `f a` at every address a, in canonical form. -/
def Memory.ofBytes (f : Nat → Byte) : Memory :=
  (List.range memSize).filterMap fun a => if f a = unlistedByte then none else some (a, f a)

/-- Five flags from the low bits of a byte. -/
def Flags.ofBits (v : Byte) : Flags :=
  { s := v.getLsbD 0, z := v.getLsbD 1, ac := v.getLsbD 2, p := v.getLsbD 3, c := v.getLsbD 4 }

/-- `faulted` set with the reason (R38, R305 (a)). Every register, flag, memory byte and latch, pc, sp and SR are
unspecified from then on (R305 (c)): each is a free value that may depend on the whole state before and on the reason
(log 11); pc and sp keep their bound (R26, R29). -/
def State.recordFault (s : State) (f : Fault) : State :=
  let free : Nat → Byte := Config.unspecifiedByte (s, f)
  { s with
    regs := ⟨free 0, free 1, free 2, free 3, free 4, free 5, free 6⟩
    flags := Flags.ofBits (free 7)
    pc := wrapAddr (joinBytes (free 8) (free 9))
    sp := wrapAddr (joinBytes (free 10) (free 11))
    io := { w := Vector.ofFn fun k => free (12 + k.val), rb := Vector.ofFn fun k => free (19 + k.val),
            sr := joinBytes (free 23) (free 24) }
    mem := Memory.ofBytes fun a => free (25 + a)
    faulted := some f }

/-! ### I/O bus -/

/-- The shift offset: the low 3 bits of W[2] (R270). -/
def IoBus.shiftOffset (io : IoBus) : Nat := io.w[2].toNat % 8

/-- What a read of port 3 gives: `(SR >> (8 - offset)) mod 256` (R270). -/
def IoBus.shiftWindow (io : IoBus) : Byte := BitVec.ofNat 8 (io.sr.toNat >>> (8 - io.shiftOffset))

/-- The number SHIFT_MODULUS stands for (R271). -/
def shiftModulusValue : ShiftModulus → Nat
  | .full => 65536
  | .legacy => 65535

/-- `SR <- ((SR >> 8) | (v << 8)) mod SHIFT_MODULUS` (R271). -/
def shiftIn (m : ShiftModulus) (sr : Word) (v : Byte) : Word :=
  BitVec.ofNat 16 (((sr.toNat >>> 8) ||| (v.toNat <<< 8)) % shiftModulusValue m)

/-- `IoRead(port)` (R270, R273); port 3 gives the shift window, not RB[3]. -/
def State.ioRead (s : State) (port : Byte) : Except Fault Byte :=
  match port.toNat with
  | 0 => .ok s.io.rb[0]
  | 1 => .ok s.io.rb[1]
  | 2 => .ok s.io.rb[2]
  | 3 => .ok s.io.shiftWindow
  | _ => .error (.invalidPort port)

/-- `IoWrite(port, v)` (R271, R273); port 4 shifts SR as well. -/
def State.ioWrite (s : State) (port v : Byte) : Except Fault State :=
  if h : port.toNat < numWriteLatches then
    let sr := if port.toNat = 4 then shiftIn s.params.shiftModulus s.io.sr v else s.io.sr
    .ok { s with io := { s.io with w := s.io.w.set port.toNat v, sr := sr } }
  else .error (.invalidPort port)

/-- A byte with one bit set or cleared. -/
def withBit (v : Byte) (bit : Fin 8) (value : Bool) : Byte :=
  let mask : Byte := 1#8 <<< bit.val
  if value then v ||| mask else v &&& ~~~mask

/-- `set_read_bit(port, bit, value)`, the input source's move (R272). -/
def State.setReadBit (s : State) (port : Fin numReadLatches) (bit : Fin 8) (value : Bool) : State :=
  { s with io := { s.io with rb := s.io.rb.set port.val (withBit s.io.rb[port] bit value) } }

end Sys2Proof.Machine
end

