-- ==== Sys2Proof/Machine/Flags.lean ====
section
/-! DEFINITION. Every flag computation and the ALU primitives (spec/41_arithmetic.md rules R140, R141 and R161,
spec/42_logical.md rule R180, spec/43_control_transfer.md rule R210), and the status byte (spec/10_state.md rule R33). -/

namespace Sys2Proof.Machine

/-- Bit i of a byte as a number. -/
def bitValue (v : Byte) (i : Nat) : Nat := (v.getLsbD i).toNat

/-- `parity(v)`: 1 when the byte has an even number of 1 bits (R10). -/
def parity (v : Byte) : Bool :=
  (bitValue v 0 + bitValue v 1 + bitValue v 2 + bitValue v 3
    + bitValue v 4 + bitValue v 5 + bitValue v 6 + bitValue v 7) % 2 == 0

/-- S, Z and P from a result byte (`SZP` of R10), with AC and C as given. -/
def flagsOf (r : Byte) (ac c : Bool) : Flags :=
  { s := r.getLsbD 7, z := r == 0, ac := ac, p := parity r, c := c }

/-- A result byte and the record of five flags that goes with it (R10). -/
structure AluOut where
  result : Byte
  flags  : Flags
deriving DecidableEq, Repr

/-- `ADD8(a, b, cin)` (R140). -/
def add8 (a b : Byte) (cin : Bool) : AluOut :=
  let sum := a.toNat + b.toNat + cin.toNat
  let r := BitVec.ofNat 8 sum
  { result := r
    flags := flagsOf r (decide (a.toNat % 16 + b.toNat % 16 + cin.toNat > 15)) (decide (sum > 255)) }

/-- The auxiliary carry of `SUB8` under either setting of SUB_AC (R141). -/
def subAuxCarry (m : SubAc) (a b : Byte) (bin : Bool) : Bool :=
  match m with
  | .intel => decide (b.toNat % 16 + bin.toNat ≤ a.toNat % 16)
  | .negate =>
    let n : Byte := -(b + BitVec.ofNat 8 bin.toNat)
    decide (a.toNat % 16 + n.toNat % 16 > 15)

/-- `SUB8(a, b, bin)` (R141). -/
def sub8 (m : SubAc) (a b : Byte) (bin : Bool) : AluOut :=
  let r := a - b - BitVec.ofNat 8 bin.toNat
  { result := r
    flags := flagsOf r (subAuxCarry m a b bin) (decide (b.toNat + bin.toNat > a.toNat)) }

/-- The result of a bitwise operation with its flags: AC and C are cleared (R180). -/
def logic8 (r : Byte) : AluOut := { result := r, flags := flagsOf r false false }

/-- The flags INR and DCR leave: those of the operation, with the old carry (R154 to R157). -/
def keepCarry (old new : Flags) : Flags := { new with c := old.c }

/-- The add-6 step of DAA: the byte, and AC after it (R161). -/
def daaLow (a : Byte) (ac : Bool) : Byte × Bool :=
  if a.toNat % 16 > 9 ∨ ac = true then
    let o := add8 a 0x06 false
    (o.result, o.flags.ac)
  else (a, ac)

/-- The add-0x60 step of DAA: the byte, and C after it; the carry tested is the one DAA began with (R161). -/
def daaHigh (a : Byte) (c : Bool) : Byte × Bool :=
  if a.toNat / 16 > 9 ∨ c = true then
    let o := add8 a 0x60 false
    (o.result, o.flags.c)
  else (a, c)

/-- DAA of an accumulator under its flags (R161). -/
def daa8 (a : Byte) (f : Flags) : AluOut :=
  let low := daaLow a f.ac
  let high := daaHigh low.1 f.c
  { result := high.1, flags := flagsOf high.1 low.2 high.2 }

/-- The weights of S, Z, AC, P, C in the status byte under either layout (R33). -/
def pswWeights : PswLayout → (Nat × Nat × Nat × Nat × Nat)
  | .lsb0Literal => (1, 2, 8, 32, 128)
  | .msb0Reading => (128, 64, 16, 4, 1)

/-- `PSW()`: the status byte of the flags (R33); the reserved bits are 0. -/
def psw (m : PswLayout) (f : Flags) : Byte :=
  let (s, z, ac, p, c) := pswWeights m
  BitVec.ofNat 8 (s * f.s.toNat + z * f.z.toNat + ac * f.ac.toNat + p * f.p.toNat + c * f.c.toNat)

/-- `SetPSW(b)`: the flags of a status byte (R33); the reserved bits are ignored. -/
def flagsOfPsw (m : PswLayout) (v : Byte) : Flags :=
  match m with
  | .lsb0Literal => { s := v.getLsbD 0, z := v.getLsbD 1, ac := v.getLsbD 3, p := v.getLsbD 5, c := v.getLsbD 7 }
  | .msb0Reading => { s := v.getLsbD 7, z := v.getLsbD 6, ac := v.getLsbD 4, p := v.getLsbD 2, c := v.getLsbD 0 }

/-- `cond(ccc)` (R210). -/
def Flags.holds (f : Flags) : Cond → Bool
  | .nz => !f.z
  | .z  => f.z
  | .nc => !f.c
  | .c  => f.c
  | .po => !f.p
  | .pe => f.p
  | .p  => !f.s
  | .m  => f.s

/-- A result to A and its five flags to F: every 8-bit operation of A but the compares. -/
def State.setAccFlags (s : State) (o : AluOut) : State := (s.setAcc o.result).setFlags o.flags

/-- Carry written, the other flags kept: rotates, DAD, CMC, STC (R31). -/
def State.setCarry (s : State) (c : Bool) : State := s.setFlags { s.flags with c := c }

end Sys2Proof.Machine
end

