-- ==== Sys2Proof/Machine/Operands.lean ====
section
/-! DEFINITION. The operand forms (spec/20_memory.md rule R65): the memory operand M, the pairs that give LDAX and STAX
their address, and the pairs PUSH and POP accept. -/

namespace Sys2Proof.Machine

/-- A register value or inline operand as the address it forms, a plain integer (R52, R65). -/
def asAddress (v : Word) : Int := (v.toNat : Int)

/-- The address of M: HL (R65, R86). -/
def State.mAddress (s : State) : Int := asAddress (s.pair .hl)

/-- `MemRead(HL, 1)` (R86). -/
def State.readM (s : State) : Except Fault Byte := s.memRead s.mAddress

/-- `MemWrite(HL, 1, v)` (R86). -/
def State.writeM (s : State) (v : Byte) : Except Fault State := s.memWrite s.mAddress v

/-- The address LDAX and STAX form; HL and SP are refused with InvalidRegister (R65, R95, R120, R121). -/
def State.indirectAddress (s : State) (p : Pair) : Except Fault Int :=
  if p.isIndirect then .ok (asAddress (s.pair p)) else .error (.invalidRegister p.code.toNat)

/-- The pair PUSH and POP work on; SP is refused with InvalidRegister (R95, R242, R243). -/
def stackOperand (p : Pair) : Except Fault Pair :=
  if p.isStackable then .ok p else .error (.invalidRegister p.code.toNat)

end Sys2Proof.Machine
end

