-- ==== Sys2Proof/Machine/Arithmetic.lean ====
section
/-! DEFINITION. The arithmetic instructions (spec/41_arithmetic.md). When a meaning runs, pc has passed the opcode and
the inline operand (R81). -/

namespace Sys2Proof.Machine

/-! ### The four operations on A and an operand byte -/

/-- A + v (R142). -/
def State.addAcc (s : State) (v : Byte) : State := s.setAccFlags (add8 s.acc v false)

/-- A + v + carry (R145). -/
def State.adcAcc (s : State) (v : Byte) : State := s.setAccFlags (add8 s.acc v s.flags.c)

/-- A - v (R148). -/
def State.subAcc (s : State) (v : Byte) : State := s.setAccFlags (sub8 s.params.subAc s.acc v false)

/-- A - v - borrow, the borrow in being the carry flag (R151). -/
def State.sbbAcc (s : State) (v : Byte) : State := s.setAccFlags (sub8 s.params.subAc s.acc v s.flags.c)

/-! ### Add and subtract: register, memory and immediate forms -/

/-- ADD r (R142). -/
def execAddR (r : Reg) (s : State) : Outcome := .next (s.addAcc (s.reg r))

/-- ADD M (R143). -/
def execAddM (s : State) : Outcome := finish (s.readM.map s.addAcc)

/-- ADI d8 (R144). -/
def execAdi (v : Byte) (s : State) : Outcome := .next (s.addAcc v)

/-- ADC r (R145). -/
def execAdcR (r : Reg) (s : State) : Outcome := .next (s.adcAcc (s.reg r))

/-- ADC M (R146). -/
def execAdcM (s : State) : Outcome := finish (s.readM.map s.adcAcc)

/-- ACI d8 (R147). -/
def execAci (v : Byte) (s : State) : Outcome := .next (s.adcAcc v)

/-- SUB r (R148). -/
def execSubR (r : Reg) (s : State) : Outcome := .next (s.subAcc (s.reg r))

/-- SUB M (R149). -/
def execSubM (s : State) : Outcome := finish (s.readM.map s.subAcc)

/-- SUI d8 (R150). -/
def execSui (v : Byte) (s : State) : Outcome := .next (s.subAcc v)

/-- SBB r (R151). -/
def execSbbR (r : Reg) (s : State) : Outcome := .next (s.sbbAcc (s.reg r))

/-- SBB M (R152). -/
def execSbbM (s : State) : Outcome := finish (s.readM.map s.sbbAcc)

/-- SBI d8 (R153). -/
def execSbi (v : Byte) (s : State) : Outcome := .next (s.sbbAcc v)

/-! ### Increment and decrement -/

/-- A byte incremented: add 1 without carry (R154). -/
def incByte (v : Byte) : AluOut := add8 v 1 false

/-- A byte decremented: subtract 1 without borrow (R156). -/
def decByte (m : SubAc) (v : Byte) : AluOut := sub8 m v 1 false

/-- The result to a register, the flags but C (R154, R156). -/
def State.stepReg (s : State) (r : Reg) (o : AluOut) : State :=
  (s.setReg r o.result).setFlags (keepCarry s.flags o.flags)

/-- The byte at HL read, stepped and written back, the flags but C (R155, R157). -/
def State.stepM (s : State) (f : Byte → AluOut) : Except Fault State := do
  let v ← s.readM
  let s1 ← s.writeM (f v).result
  return s1.setFlags (keepCarry s.flags (f v).flags)

/-- INR r (R154). -/
def execInrR (r : Reg) (s : State) : Outcome := .next (s.stepReg r (incByte (s.reg r)))

/-- INR M (R155). -/
def execInrM (s : State) : Outcome := finish (s.stepM incByte)

/-- DCR r (R156). -/
def execDcrR (r : Reg) (s : State) : Outcome := .next (s.stepReg r (decByte s.params.subAc (s.reg r)))

/-- DCR M (R157). -/
def execDcrM (s : State) : Outcome := finish (s.stepM (decByte s.params.subAc))

/-- INX rp; for SP the write wraps mod 16384 (R158). -/
def execInx (p : Pair) (s : State) : Outcome := .next (s.setPair p (s.pair p + 1))

/-- DCX rp; for SP the write wraps mod 16384 (R159). -/
def execDcx (p : Pair) (s : State) : Outcome := .next (s.setPair p (s.pair p - 1))

/-! ### Sixteen-bit add and decimal adjust -/

/-- DAD rp (R160). -/
def execDad (p : Pair) (s : State) : Outcome :=
  let sum := (s.pair .hl).toNat + (s.pair p).toNat
  .next ((s.setPair .hl (BitVec.ofNat 16 sum)).setCarry (decide (sum > 65535)))

/-- DAA (R161). -/
def execDaa (s : State) : Outcome := .next (s.setAccFlags (daa8 s.acc s.flags))

end Sys2Proof.Machine
end

