-- ==== Sys2Proof/Machine/Control.lean ====
section
/-! DEFINITION. The control transfer instructions (spec/43_control_transfer.md). When a meaning runs, pc is the address
of the next instruction (R27), which is what a call pushes. None of these writes a flag. -/

namespace Sys2Proof.Machine

/-! ### What a conditional form does -/

/-- Jump when the condition holds (R212). -/
def State.jumpIf (s : State) (k : Cond) (a : Word) : State := if s.flags.holds k then s.setPc a else s

/-- Call when the condition holds; nothing is pushed otherwise (R214). -/
def State.callIf (s : State) (k : Cond) (a : Word) : Except Fault State :=
  if s.flags.holds k then s.callTo a else .ok s

/-- Return when the condition holds; nothing is popped otherwise (R216). -/
def State.returnIf (s : State) (k : Cond) : Except Fault State :=
  if s.flags.holds k then s.returnFromCall else .ok s

/-! ### Jumps -/

/-- JMP a16 (R211). -/
def execJmp (a : Word) (s : State) : Outcome := .next (s.setPc a)

/-- JNZ a16 (R212). -/
def execJnz (a : Word) (s : State) : Outcome := .next (s.jumpIf .nz a)

/-- JZ a16 (R212). -/
def execJz (a : Word) (s : State) : Outcome := .next (s.jumpIf .z a)

/-- JNC a16 (R212). -/
def execJnc (a : Word) (s : State) : Outcome := .next (s.jumpIf .nc a)

/-- JC a16 (R212). -/
def execJc (a : Word) (s : State) : Outcome := .next (s.jumpIf .c a)

/-- JPO a16 (R212). -/
def execJpo (a : Word) (s : State) : Outcome := .next (s.jumpIf .po a)

/-- JPE a16 (R212). -/
def execJpe (a : Word) (s : State) : Outcome := .next (s.jumpIf .pe a)

/-- JP a16 (R212). -/
def execJp (a : Word) (s : State) : Outcome := .next (s.jumpIf .p a)

/-- JM a16 (R212). -/
def execJm (a : Word) (s : State) : Outcome := .next (s.jumpIf .m a)

/-- PCHL (R218). -/
def execPchl (s : State) : Outcome := .next (s.setPc (s.pair .hl))

/-! ### Calls and restart -/

/-- CALL a16 (R213). -/
def execCall (a : Word) (s : State) : Outcome := finish (s.callTo a)

/-- CNZ a16 (R214). -/
def execCnz (a : Word) (s : State) : Outcome := finish (s.callIf .nz a)

/-- CZ a16 (R214). -/
def execCz (a : Word) (s : State) : Outcome := finish (s.callIf .z a)

/-- CNC a16 (R214). -/
def execCnc (a : Word) (s : State) : Outcome := finish (s.callIf .nc a)

/-- CC a16 (R214). -/
def execCc (a : Word) (s : State) : Outcome := finish (s.callIf .c a)

/-- CPO a16 (R214). -/
def execCpo (a : Word) (s : State) : Outcome := finish (s.callIf .po a)

/-- CPE a16 (R214). -/
def execCpe (a : Word) (s : State) : Outcome := finish (s.callIf .pe a)

/-- CP a16 (R214). -/
def execCp (a : Word) (s : State) : Outcome := finish (s.callIf .p a)

/-- CM a16 (R214). -/
def execCm (a : Word) (s : State) : Outcome := finish (s.callIf .m a)

/-- RST n, fetched or injected (R217). -/
def execRst (n : BitVec 3) (s : State) : Outcome := finish (s.callTo (restartTarget n))

/-! ### Returns -/

/-- RET (R215). -/
def execRet (s : State) : Outcome := finish s.returnFromCall

/-- RNZ (R216). -/
def execRnz (s : State) : Outcome := finish (s.returnIf .nz)

/-- RZ (R216). -/
def execRz (s : State) : Outcome := finish (s.returnIf .z)

/-- RNC (R216). -/
def execRnc (s : State) : Outcome := finish (s.returnIf .nc)

/-- RC (R216). -/
def execRc (s : State) : Outcome := finish (s.returnIf .c)

/-- RPO (R216). -/
def execRpo (s : State) : Outcome := finish (s.returnIf .po)

/-- RPE (R216). -/
def execRpe (s : State) : Outcome := finish (s.returnIf .pe)

/-- RP (R216). -/
def execRp (s : State) : Outcome := finish (s.returnIf .p)

/-- RM (R216). -/
def execRm (s : State) : Outcome := finish (s.returnIf .m)

end Sys2Proof.Machine
end

