-- ==== Sys2Proof/Machine/DataTransfer.lean ====
section
/-! DEFINITION. The data transfer instructions (spec/40_data_transfer.md). When a meaning runs, pc has passed the opcode
and the inline operand (R81). None of these writes a flag. -/

namespace Sys2Proof.Machine

/-- MOV r1,r2 (R110). -/
def execMovRR (dst src : Reg) (s : State) : Outcome := .next (s.setReg dst (s.reg src))

/-- MOV r,M (R111). -/
def execMovRM (dst : Reg) (s : State) : Outcome := finish (s.readM.map (s.setReg dst))

/-- MOV M,r (R112). -/
def execMovMR (src : Reg) (s : State) : Outcome := finish (s.writeM (s.reg src))

/-- MVI r,d8 (R113). -/
def execMviR (dst : Reg) (v : Byte) (s : State) : Outcome := .next (s.setReg dst v)

/-- MVI M,d8 (R114). -/
def execMviM (v : Byte) (s : State) : Outcome := finish (s.writeM v)

/-- LXI rp,d16 (R115). -/
def execLxi (p : Pair) (v : Word) (s : State) : Outcome := .next (s.setPair p v)

/-- LDA a16 (R116). -/
def execLda (a : Word) (s : State) : Outcome := finish ((s.memRead (asAddress a)).map s.setAcc)

/-- STA a16 (R117). -/
def execSta (a : Word) (s : State) : Outcome := finish (s.memWrite (asAddress a) s.acc)

/-- LHLD a16: L from the addressed byte, H from the next (R118). -/
def execLhld (a : Word) (s : State) : Outcome := finish ((s.memRead16 (asAddress a)).map (s.setPair .hl))

/-- SHLD a16: L to the addressed byte, H to the next (R119). -/
def execShld (a : Word) (s : State) : Outcome := finish (s.memWrite16 (asAddress a) (s.pair .hl))

/-- LDAX rp (R120). -/
def execLdax (p : Pair) (s : State) : Outcome :=
  finish do
    let a ← s.indirectAddress p
    let v ← s.memRead a
    return s.setAcc v

/-- STAX rp (R121). -/
def execStax (p : Pair) (s : State) : Outcome :=
  finish do
    let a ← s.indirectAddress p
    s.memWrite a s.acc

/-- XCHG: DE and HL exchanged (R122). -/
def execXchg (s : State) : Outcome := .next ((s.setPair .hl (s.pair .de)).setPair .de (s.pair .hl))

end Sys2Proof.Machine
end

