-- ==== Sys2Proof/Machine/InputOutput.lean ====
section
/-! DEFINITION. Input, output and machine control (spec/45_io_and_control.md). None of these writes a flag. -/

namespace Sys2Proof.Machine

/-- IN p8 (R260). -/
def execInPort (port : Byte) (s : State) : Outcome := finish ((s.ioRead port).map s.setAcc)

/-- OUT p8 (R261). -/
def execOutPort (port : Byte) (s : State) : Outcome := finish (s.ioWrite port s.acc)

/-- HLT: the halt signal is the `halted` bit of the state it reaches (R38, R262). -/
def execHlt (s : State) : Outcome := .next { s with halted := true }

/-- NOP (R263). -/
def execNop (s : State) : Outcome := .next s

/-- EI: accepted, no effect; there is no interrupt mask (R266). -/
def execEi (s : State) : Outcome := .next s

/-- DI: accepted, no effect; there is no interrupt mask (R267). -/
def execDi (s : State) : Outcome := .next s

end Sys2Proof.Machine
end

