-- ==== Sys2Proof/Machine/Logical.lean ====
section
/-! DEFINITION. The logical, compare, rotate and carry instructions (spec/42_logical.md). When a meaning runs, pc has
passed the opcode and the inline operand (R81). -/

namespace Sys2Proof.Machine

/-! ### The four operations on A and an operand byte -/

/-- A & v (R181). -/
def State.anaAcc (s : State) (v : Byte) : State := s.setAccFlags (logic8 (s.acc &&& v))

/-- A ^ v (R184). -/
def State.xraAcc (s : State) (v : Byte) : State := s.setAccFlags (logic8 (s.acc ^^^ v))

/-- A | v (R187). -/
def State.oraAcc (s : State) (v : Byte) : State := s.setAccFlags (logic8 (s.acc ||| v))

/-- The flags of A - v; A is not written (R190). -/
def State.cmpAcc (s : State) (v : Byte) : State := s.setFlags (sub8 s.params.subAc s.acc v false).flags

/-! ### And, exclusive or, or, compare: register, memory and immediate forms -/

/-- ANA r (R181). -/
def execAnaR (r : Reg) (s : State) : Outcome := .next (s.anaAcc (s.reg r))

/-- ANA M (R182). -/
def execAnaM (s : State) : Outcome := finish (s.readM.map s.anaAcc)

/-- ANI d8 (R183). -/
def execAni (v : Byte) (s : State) : Outcome := .next (s.anaAcc v)

/-- XRA r (R184). -/
def execXraR (r : Reg) (s : State) : Outcome := .next (s.xraAcc (s.reg r))

/-- XRA M (R185). -/
def execXraM (s : State) : Outcome := finish (s.readM.map s.xraAcc)

/-- XRI d8 (R186). -/
def execXri (v : Byte) (s : State) : Outcome := .next (s.xraAcc v)

/-- ORA r (R187). -/
def execOraR (r : Reg) (s : State) : Outcome := .next (s.oraAcc (s.reg r))

/-- ORA M (R188). -/
def execOraM (s : State) : Outcome := finish (s.readM.map s.oraAcc)

/-- ORI d8 (R189). -/
def execOri (v : Byte) (s : State) : Outcome := .next (s.oraAcc v)

/-- CMP r (R190). -/
def execCmpR (r : Reg) (s : State) : Outcome := .next (s.cmpAcc (s.reg r))

/-- CMP M (R191). -/
def execCmpM (s : State) : Outcome := finish (s.readM.map s.cmpAcc)

/-- CPI d8 (R192). -/
def execCpi (v : Byte) (s : State) : Outcome := .next (s.cmpAcc v)

/-! ### Rotates: only the carry flag is written -/

/-- RLC: bit 7 to bit 0 and to carry (R193). -/
def execRlc (s : State) : Outcome :=
  let b := s.acc.getLsbD 7
  .next ((s.setAcc (s.acc <<< 1 ||| (BitVec.ofBool b).setWidth 8)).setCarry b)

/-- RRC: bit 0 to bit 7 and to carry (R194). -/
def execRrc (s : State) : Outcome :=
  let b := s.acc.getLsbD 0
  .next ((s.setAcc (s.acc >>> 1 ||| (BitVec.ofBool b).setWidth 8 <<< 7)).setCarry b)

/-- RAL: left through carry (R195). -/
def execRal (s : State) : Outcome :=
  let b := s.acc.getLsbD 7
  .next ((s.setAcc (s.acc <<< 1 ||| (BitVec.ofBool s.flags.c).setWidth 8)).setCarry b)

/-- RAR: right through carry (R196). -/
def execRar (s : State) : Outcome :=
  let b := s.acc.getLsbD 0
  .next ((s.setAcc (s.acc >>> 1 ||| (BitVec.ofBool s.flags.c).setWidth 8 <<< 7)).setCarry b)

/-! ### Complement and carry -/

/-- CMA: every bit of A inverted, no flag (R197). -/
def execCma (s : State) : Outcome := .next (s.setAcc (~~~s.acc))

/-- CMC (R198). -/
def execCmc (s : State) : Outcome := .next (s.setCarry (!s.flags.c))

/-- STC (R199). -/
def execStc (s : State) : Outcome := .next (s.setCarry true)

end Sys2Proof.Machine
end

