-- ==== Sys2Proof/Machine/Stack.lean ====
section
/-! DEFINITION. The stack instructions (spec/44_stack.md). Only POP PSW writes flags. -/

namespace Sys2Proof.Machine

/-- PUSH rp (R242). -/
def execPush (p : Pair) (s : State) : Outcome :=
  finish do
    let p ← stackOperand p
    s.push16 (s.pair p)

/-- PUSH PSW: A the high byte, the status byte the low one (R244). -/
def execPushPsw (s : State) : Outcome := finish (s.push16 (joinBytes s.acc (psw s.params.pswLayout s.flags)))

/-- POP rp (R243). -/
def execPop (p : Pair) (s : State) : Outcome :=
  finish do
    let p ← stackOperand p
    let (v, s1) ← s.pop16
    return s1.setPair p v

/-- POP PSW: the high byte to A, the flags from the low one (R245). -/
def execPopPsw (s : State) : Outcome :=
  finish do
    let (v, s1) ← s.pop16
    return (s1.setAcc (hiByte v)).setFlags (flagsOfPsw s.params.pswLayout (loByte v))

/-- XTHL: both bytes read, then both written; sp stays (R246). -/
def execXthl (s : State) : Outcome :=
  finish do
    let v ← s.memRead16 (asAddress s.sp)
    let s1 ← s.memWrite16 (asAddress s.sp) (s.pair .hl)
    return s1.setPair .hl v

/-- SPHL (R247). -/
def execSphl (s : State) : Outcome := .next (s.setSp (s.pair .hl))

end Sys2Proof.Machine
end

