-- ==== Sys2Proof/Machine/Undefined.lean ====
section
/-! DEFINITION. The twelve bytes that select no instruction: executing one, fetched or injected, ends the step with
DecodeFailure of that byte (spec/30_encoding.md rule R97, spec/60_exceptions.md rule R301). -/

namespace Sys2Proof.Machine

/-- `raise DecodeFailure(op)` (R97, R301). -/
def undefinedOpcode (op : Byte) (_ : State) : Outcome := .fault (.decodeFailure op)

/-- The undefined byte 0x08 (R97). -/
def execUndef08 (s : State) : Outcome := undefinedOpcode 0x08 s

/-- The undefined byte 0x10 (R97). -/
def execUndef10 (s : State) : Outcome := undefinedOpcode 0x10 s

/-- The undefined byte 0x18 (R97). -/
def execUndef18 (s : State) : Outcome := undefinedOpcode 0x18 s

/-- The undefined byte 0x20 (R97). -/
def execUndef20 (s : State) : Outcome := undefinedOpcode 0x20 s

/-- The undefined byte 0x28 (R97). -/
def execUndef28 (s : State) : Outcome := undefinedOpcode 0x28 s

/-- The undefined byte 0x30 (R97). -/
def execUndef30 (s : State) : Outcome := undefinedOpcode 0x30 s

/-- The undefined byte 0x38 (R97). -/
def execUndef38 (s : State) : Outcome := undefinedOpcode 0x38 s

/-- The undefined byte 0xCB (R97). -/
def execUndefCB (s : State) : Outcome := undefinedOpcode 0xCB s

/-- The undefined byte 0xD9 (R97). -/
def execUndefD9 (s : State) : Outcome := undefinedOpcode 0xD9 s

/-- The undefined byte 0xDD (R97). -/
def execUndefDD (s : State) : Outcome := undefinedOpcode 0xDD s

/-- The undefined byte 0xED (R97). -/
def execUndefED (s : State) : Outcome := undefinedOpcode 0xED s

/-- The undefined byte 0xFD (R97). -/
def execUndefFD (s : State) : Outcome := undefinedOpcode 0xFD s

end Sys2Proof.Machine
end

