-- ==== Sys2Proof/Machine/Dispatch.lean ====
section
/-! DEFINITION. What each instruction does: one arm per constructor of Instr, each one call of its meaning. -/

namespace Sys2Proof.Machine

/-- The meaning of a decoded instruction. The state it is given has pc past the instruction's bytes (R81). -/
def exec (i : Instr) (s : State) : Host.Outcome State Fault Refusal :=
  match i with
  -- data transfer (spec/40_data_transfer.md)
  | .movRR dst src => Sys2Proof.Machine.execMovRR dst src s
  | .movRM dst => Sys2Proof.Machine.execMovRM dst s
  | .movMR src => Sys2Proof.Machine.execMovMR src s
  | .mviR dst v => Sys2Proof.Machine.execMviR dst v s
  | .mviM v => Sys2Proof.Machine.execMviM v s
  | .lxi p v => Sys2Proof.Machine.execLxi p v s
  | .lda a => Sys2Proof.Machine.execLda a s
  | .sta a => Sys2Proof.Machine.execSta a s
  | .lhld a => Sys2Proof.Machine.execLhld a s
  | .shld a => Sys2Proof.Machine.execShld a s
  | .ldax p => Sys2Proof.Machine.execLdax p s
  | .stax p => Sys2Proof.Machine.execStax p s
  | .xchg => Sys2Proof.Machine.execXchg s
  -- arithmetic and logical operations of A with a register or M (spec/41_arithmetic.md, spec/42_logical.md)
  | .addR r => Sys2Proof.Machine.execAddR r s
  | .addM => Sys2Proof.Machine.execAddM s
  | .adcR r => Sys2Proof.Machine.execAdcR r s
  | .adcM => Sys2Proof.Machine.execAdcM s
  | .subR r => Sys2Proof.Machine.execSubR r s
  | .subM => Sys2Proof.Machine.execSubM s
  | .sbbR r => Sys2Proof.Machine.execSbbR r s
  | .sbbM => Sys2Proof.Machine.execSbbM s
  | .anaR r => Sys2Proof.Machine.execAnaR r s
  | .anaM => Sys2Proof.Machine.execAnaM s
  | .xraR r => Sys2Proof.Machine.execXraR r s
  | .xraM => Sys2Proof.Machine.execXraM s
  | .oraR r => Sys2Proof.Machine.execOraR r s
  | .oraM => Sys2Proof.Machine.execOraM s
  | .cmpR r => Sys2Proof.Machine.execCmpR r s
  | .cmpM => Sys2Proof.Machine.execCmpM s
  -- the same operations with an immediate byte
  | .adi v => Sys2Proof.Machine.execAdi v s
  | .aci v => Sys2Proof.Machine.execAci v s
  | .sui v => Sys2Proof.Machine.execSui v s
  | .sbi v => Sys2Proof.Machine.execSbi v s
  | .ani v => Sys2Proof.Machine.execAni v s
  | .xri v => Sys2Proof.Machine.execXri v s
  | .ori v => Sys2Proof.Machine.execOri v s
  | .cpi v => Sys2Proof.Machine.execCpi v s
  -- increment, decrement, 16-bit arithmetic, decimal adjust
  | .inrR r => Sys2Proof.Machine.execInrR r s
  | .inrM => Sys2Proof.Machine.execInrM s
  | .dcrR r => Sys2Proof.Machine.execDcrR r s
  | .dcrM => Sys2Proof.Machine.execDcrM s
  | .inx p => Sys2Proof.Machine.execInx p s
  | .dcx p => Sys2Proof.Machine.execDcx p s
  | .dad p => Sys2Proof.Machine.execDad p s
  | .daa => Sys2Proof.Machine.execDaa s
  -- rotates, complement, carry
  | .rlc => Sys2Proof.Machine.execRlc s
  | .rrc => Sys2Proof.Machine.execRrc s
  | .ral => Sys2Proof.Machine.execRal s
  | .rar => Sys2Proof.Machine.execRar s
  | .cma => Sys2Proof.Machine.execCma s
  | .cmc => Sys2Proof.Machine.execCmc s
  | .stc => Sys2Proof.Machine.execStc s
  -- control transfer (spec/43_control_transfer.md)
  | .jmp a => Sys2Proof.Machine.execJmp a s
  | .jnz a => Sys2Proof.Machine.execJnz a s
  | .jz a => Sys2Proof.Machine.execJz a s
  | .jnc a => Sys2Proof.Machine.execJnc a s
  | .jc a => Sys2Proof.Machine.execJc a s
  | .jpo a => Sys2Proof.Machine.execJpo a s
  | .jpe a => Sys2Proof.Machine.execJpe a s
  | .jp a => Sys2Proof.Machine.execJp a s
  | .jm a => Sys2Proof.Machine.execJm a s
  | .call a => Sys2Proof.Machine.execCall a s
  | .cnz a => Sys2Proof.Machine.execCnz a s
  | .cz a => Sys2Proof.Machine.execCz a s
  | .cnc a => Sys2Proof.Machine.execCnc a s
  | .cc a => Sys2Proof.Machine.execCc a s
  | .cpo a => Sys2Proof.Machine.execCpo a s
  | .cpe a => Sys2Proof.Machine.execCpe a s
  | .cp a => Sys2Proof.Machine.execCp a s
  | .cm a => Sys2Proof.Machine.execCm a s
  | .ret => Sys2Proof.Machine.execRet s
  | .rnz => Sys2Proof.Machine.execRnz s
  | .rz => Sys2Proof.Machine.execRz s
  | .rnc => Sys2Proof.Machine.execRnc s
  | .rc => Sys2Proof.Machine.execRc s
  | .rpo => Sys2Proof.Machine.execRpo s
  | .rpe => Sys2Proof.Machine.execRpe s
  | .rp => Sys2Proof.Machine.execRp s
  | .rm => Sys2Proof.Machine.execRm s
  | .rst n => Sys2Proof.Machine.execRst n s
  | .pchl => Sys2Proof.Machine.execPchl s
  -- stack (spec/44_stack.md)
  | .push p => Sys2Proof.Machine.execPush p s
  | .pushPsw => Sys2Proof.Machine.execPushPsw s
  | .pop p => Sys2Proof.Machine.execPop p s
  | .popPsw => Sys2Proof.Machine.execPopPsw s
  | .xthl => Sys2Proof.Machine.execXthl s
  | .sphl => Sys2Proof.Machine.execSphl s
  -- input, output, machine control (spec/45_io_and_control.md)
  | .inPort port => Sys2Proof.Machine.execInPort port s
  | .outPort port => Sys2Proof.Machine.execOutPort port s
  | .hlt => Sys2Proof.Machine.execHlt s
  | .nop => Sys2Proof.Machine.execNop s
  | .ei => Sys2Proof.Machine.execEi s
  | .di => Sys2Proof.Machine.execDi s
  -- the twelve bytes that select no instruction (R97), each a row of the table named "(undefined)"
  | .undef08 => Sys2Proof.Machine.execUndef08 s
  | .undef10 => Sys2Proof.Machine.execUndef10 s
  | .undef18 => Sys2Proof.Machine.execUndef18 s
  | .undef20 => Sys2Proof.Machine.execUndef20 s
  | .undef28 => Sys2Proof.Machine.execUndef28 s
  | .undef30 => Sys2Proof.Machine.execUndef30 s
  | .undef38 => Sys2Proof.Machine.execUndef38 s
  | .undefCB => Sys2Proof.Machine.execUndefCB s
  | .undefD9 => Sys2Proof.Machine.execUndefD9 s
  | .undefDD => Sys2Proof.Machine.execUndefDD s
  | .undefED => Sys2Proof.Machine.execUndefED s
  | .undefFD => Sys2Proof.Machine.execUndefFD s

end Sys2Proof.Machine
end

