-- ==== Sys2Proof/Machine/Fetch.lean ====
section
/-! DEFINITION. Fetching an instruction, or taking an injected opcode and fetching its operands
(spec/30_encoding.md rule R81). -/

namespace Sys2Proof.Machine

/-- `Fetch8()`: the byte at pc, and pc advanced (R9, R26). -/
def State.fetch8 (s : State) : Except Fault (Byte × State) := do
  let v ← s.memRead (asAddress s.pc)
  return (v, s.setPc (s.pc + 1))

/-- `Fetch16()`: low byte first (R9). -/
def State.fetch16 (s : State) : Except Fault (Word × State) := do
  let (lo, s1) ← s.fetch8
  let (hi, s2) ← s1.fetch8
  return (joinBytes hi lo, s2)

/-- The opcode of a step: the injected one, with pc unchanged, or the byte at pc (R81, R310). -/
def State.fetchOpcode (s : State) : Option Byte → Except Fault (Byte × State)
  | some op => .ok (op, s)
  | none => s.fetch8

/-- The instruction of a template, its operand fetched at pc in the ordinary way, injected opcode or not (R81, D10). -/
def State.fetchOperand (s : State) : Template → Except Fault (Instr × State)
  | .implied i => .ok (i, s)
  | .wantsByte build => do
    let (v, s1) ← s.fetch8
    return (build v, s1)
  | .wantsWord build => do
    let (v, s1) ← s.fetch16
    return (build v, s1)

/-- The instruction of a step, and the state its meaning runs on: pc past all bytes that were fetched (R81). -/
def State.fetchInstr (s : State) (injected : Option Byte) : Except Fault (Instr × State) := do
  let (op, s1) ← s.fetchOpcode injected
  s1.fetchOperand (decodeOpcode op)

end Sys2Proof.Machine
end

