-- ==== Sys2Proof/Machine/Cycle.lean ====
section
/-! DEFINITION. One call of the core (spec/30_encoding.md rule R81), one move of an agent (spec/60_exceptions.md rule
R326), the step over the schedule, and how an instruction of the opcode table is put where the next step fetches. -/

namespace Sys2Proof.Machine

/-- A halted or faulted core takes no step (R305, R312, R81). -/
def State.ifRunning (s : State) (k : Outcome) : Outcome :=
  if s.halted then .refused .coreHalted
  else if s.faulted.isSome then .refused .coreFaulted
  else k

/-- `run_cycle()` and `run_cycle(opcode)` (R81, R310). -/
def runCycle (injected : Option Byte) (s : State) : Outcome :=
  s.ifRunning <|
    match s.fetchInstr injected with
    | .error f => .fault f
    | .ok (i, s1) => exec i s1

/-- Carry out one move (R310, R272, R326). -/
def perform (m : Move) (s : State) : Outcome :=
  match m with
  | .runCycle => runCycle none s
  | .inject op => runCycle (some op) s
  | .setReadBit port bit value => .next (s.setReadBit port bit value)

/-- The next move of the schedule; with none left the driver goes on calling the core (R320). -/
def State.nextMove (s : State) : Move :=
  match s.schedule with
  | [] => .runCycle
  | m :: _ => m

/-- The state with its next move taken off the schedule. -/
def State.dropMove (s : State) : State := { s with schedule := s.schedule.tail }

/-- One step of the machine: the next move, carried out. No move follows a halt or a fault (R321, R335; log 7). -/
def takeStep (s : State) : Outcome := s.ifRunning (perform s.nextMove s.dropMove)

/-- The step as R38 keeps its books: a fault is recorded in `faulted`, what it leaves unspecified is free (R305, log 11),
and a core that takes no step stays as it is. -/
def advance (s : State) : State :=
  match takeStep s with
  | .next t => t
  | .fault f => s.recordFault f
  | .refused _ => s

/-- Bytes stored where fetches find them, from pc on, wrapping as pc does (R28). -/
def storeFrom (pc : Word) : List Byte → Memory → Memory
  | [], m => m
  | v :: rest, m => storeFrom (wrapAddr (pc + 1)) rest (m.write (wrapAddr pc).toNat v)

/-- A schedule whose first move is a fetched step. -/
def startingWithRunCycle : List Move → List Move
  | [] => []
  | m :: rest => .runCycle :: m :: rest

/-- The state with an instruction of the opcode table stored at pc, and running, so that the next step fetches it. -/
def storeFetchWord (s : State) (nbits w : Nat) : State :=
  { s with
    pc := wrapAddr s.pc
    mem := storeFrom s.pc (tableBytes nbits w) s.mem
    halted := false
    faulted := none
    schedule := startingWithRunCycle s.schedule }

end Sys2Proof.Machine
end

