-- ==== Sys2Proof/Machine/Timing.lean ====
section
/-! DEFINITION. What a step returns beside the state: a cycle count, or the halt signal
(spec/00_scope.md rule R11, spec/60_exceptions.md rule R322, spec/70_reset_and_hazards.md rule R352). The numbers are
uninterpreted; no state depends on them. -/

namespace Sys2Proof.Machine

/-- The condition of a conditional form (R212, R214, R216). -/
def conditionOf : Instr → Option Cond
  | .jnz _ | .cnz _ | .rnz => some .nz
  | .jz _ | .cz _ | .rz => some .z
  | .jnc _ | .cnc _ | .rnc => some .nc
  | .jc _ | .cc _ | .rc => some .c
  | .jpo _ | .cpo _ | .rpo => some .po
  | .jpe _ | .cpe _ | .rpe => some .pe
  | .jp _ | .cp _ | .rp => some .p
  | .jm _ | .cm _ | .rm => some .m
  | _ => none

/-- A conditional call or return, by its opcode: 11ccc100 or 11ccc000 (R90). -/
def isCallOrReturnIf (op : Byte) : Bool := op &&& 0xC7 == 0xC4 || op &&& 0xC7 == 0xC0

/-- `CYCLES(op, taken)`: positive, and at least as large when taken, larger for a conditional call or return (R352). -/
def cycles (op : Byte) (taken : Bool) : Nat :=
  let notTaken := Config.cycleBase op + 1
  if taken then notTaken + Config.cycleExtra op + (if isCallOrReturnIf op then 1 else 0) else notTaken

/-- The opcode byte of an instruction. -/
def opcodeOf (i : Instr) : Byte := (encode i).headD 0

/-- Whether a conditional form's condition holds in the state it runs on. -/
def isTaken (i : Instr) (s : State) : Bool :=
  match conditionOf i with
  | some k => s.flags.holds k
  | none => false

/-- The count an instruction returns that completes on a state, or none, the halt signal, for HLT (R262, R322). -/
def cyclesOf (i : Instr) (s : State) : Option Nat :=
  match i with
  | .hlt => none
  | i => some (cycles (opcodeOf i) (isTaken i s))

/-- The outcomes of one call of the core (R11), and the call that is no step at all (R305, R312). -/
inductive StepResult where
  | next (s : State) (cycles : Nat)
  | halt (s : State)
  | fault (r : Fault)
  | noStep (why : Refusal)

/-- One call of the core with what it returns (R11, R81). -/
def runCycleResult (injected : Option Byte) (s : State) : StepResult :=
  match runCycle injected s, s.fetchInstr injected with
  | .next t, .ok (i, s1) =>
    match cyclesOf i s1 with
    | some n => .next t n
    | none => .halt t
  | .next t, .error _ => .halt t
  | .fault r, _ => .fault r
  | .refused why, _ => .noStep why

end Sys2Proof.Machine
end

