-- ==== Sys2Proof/Machine/Step.lean ====
section
/-! DEFINITION. The machine's step and the placing of an instruction where it fetches; both only call Machine/Cycle.lean. -/

namespace Sys2Proof.Machine

/-- One step: the next move of the schedule, or a fetched instruction when the schedule is empty (R81, R326). -/
def step (s : State) : Host.Outcome State Fault Refusal := takeStep s

/-- The state with an instruction of the opcode table where the next step fetches it (log 5). -/
def State.withFetchWord (s : State) (nbits w : Nat) : State := storeFetchWord s nbits w

end Sys2Proof.Machine
end

