-- ==== Sys2Proof/Machine/HostAccess.lean ====
section
/-! DEFINITION. What the outside does to or asks of a state between steps, beside the moves of the schedule: the loader's
and the display's operations and the search (spec/20_memory.md rules R66 to R68, spec/10_state.md rule R27). -/

namespace Sys2Proof.Machine

/-- `set_ram(address, bytes)`: byte i to address + i; an address that does not exist fails the load (R66). -/
def State.setRam (s : State) (a : Nat) : List Byte → Except Fault State
  | [] => .ok s
  | v :: rest => do
    let s1 ← s.memWrite (a : Int) v
    s1.setRam (a + 1) rest

/-- `get_ram(address)` (R67). -/
def State.getRam (s : State) (a : Nat) : Except Fault Byte := s.memRead (a : Int)

/-- `get_ram` of a range: the display's read (R67, R324). DESIGN CHOICE, log 9, on three points the spec leaves open
(N15 of spec/91_not_in_source.md): both bounds are inside the range; a last address below the first gives no bytes; a
range that runs past memory fails with OutOfRange of its first address that does not exist. -/
def State.getRange (s : State) (first last : Nat) : Except Fault (List Byte) :=
  (List.range' first (last + 1 - first)).mapM s.getRam

/-- `find(byte_value, start)`: the first address from start up that holds the byte, or none (R68). -/
def State.findByte (s : State) (v : Byte) (start : Nat) : Option Nat :=
  (List.range' start (memSize - start)).find? fun a => s.mem.read a == v

/-- `get_byte_at_pc()`: the byte at pc, pc unchanged (R27). -/
def State.byteAtPc (s : State) : Except Fault Byte := s.memRead (asAddress s.pc)

end Sys2Proof.Machine
end

