-- ==== Sys2Proof/Safety.lean ====
section
/-! DEFINITION. The terms claims about this machine are stated in: completing and faulting, what may change and what
may not (frames), the invariant of every run, the flag rules as the spec words them in whole numbers, and the tables of
spec/10_state.md rule R31, spec/20_memory.md rules R56 and R65 and spec/60_exceptions.md rule R304. They are written
from the spec beside the machine, not from it: the machine's own operations appear here only to read a state. -/

namespace Sys2Proof.Safety

open Machine

/-! ### Outcomes -/

/-- The instruction answers a next state, and that state satisfies `post`. -/
def Completes (i : Instr) (s : State) (post : State → Prop) : Prop := ∃ t, exec i s = .next t ∧ post t

/-- The instruction ends in this fault. -/
def Raises (i : Instr) (s : State) (f : Fault) : Prop := exec i s = .fault f

/-- The core may take a step: neither halted nor faulted (R38). -/
def Running (s : State) : Prop := s.halted = false ∧ s.faulted = none

/-- An outcome with its next state changed. -/
def mapNext (g : State → State) : Outcome → Outcome
  | .next t => .next (g t)
  | .fault f => .fault f
  | .refused r => .refused r

/-! ### Reading a state -/

/-- The byte of memory at an address. -/
def byteAt (s : State) (a : Nat) : Byte := s.mem.read a

/-- The value of the pair HL, BC or DE as a plain integer. -/
def pairNat (s : State) (p : Pair) : Nat := (s.pair p).toNat

/-- The five flags by name. -/
inductive Flag where
  | s | z | ac | p | c
deriving DecidableEq, Repr

/-- One flag of the five. -/
def flagOf (f : Flags) : Flag → Bool
  | .s => f.s
  | .z => f.z
  | .ac => f.ac
  | .p => f.p
  | .c => f.c

/-- The bytes a fetch finds from an address on, wrapping at the end of memory (R26, R28). -/
def bytesFrom (s : State) (a : Nat) : Nat → List Byte
  | 0 => []
  | n + 1 => byteAt s (a % memSize) :: bytesFrom s (a + 1) n

/-- The state once `n` bytes have been fetched and the move has been taken off the schedule. -/
def afterFetch (s : State) (n : Nat) : State :=
  { s with pc := BitVec.ofNat 16 ((s.pc.toNat + n) % memSize), schedule := s.schedule.tail }

/-- The state with input latch 3 set to a byte; no instruction can read that latch (R37). -/
def withReadLatch3 (v : Byte) (s : State) : State := { s with io := { s.io with rb := s.io.rb.set 3 v } }

/-- The state with other moves to come. -/
def withSchedule (m : List Move) (s : State) : State := { s with schedule := m }

/-! ### Frames -/

/-- What a transition may change; whatever is not named here may not. -/
structure Footprint where
  regs    : List Reg := []
  flags   : List Flag := []
  pc      : Bool := false
  sp      : Bool := false
  mem     : List Nat := []
  latches : List Nat := []
  shift   : Bool := false
  halted  : Bool := false

/-- Every register, flag, byte of memory, latch and control bit outside the footprint is as it was. The input latches,
the fault record, the parameters and the schedule are always as they were. -/
def OnlyChanges (w : Footprint) (s t : State) : Prop :=
  (∀ r, r ∉ w.regs → t.reg r = s.reg r) ∧
  (∀ f, f ∉ w.flags → flagOf t.flags f = flagOf s.flags f) ∧
  (w.pc = false → t.pc = s.pc) ∧
  (w.sp = false → t.sp = s.sp) ∧
  (∀ a, a ∉ w.mem → byteAt t a = byteAt s a) ∧
  (∀ k : Fin numWriteLatches, k.val ∉ w.latches → t.io.w[k] = s.io.w[k]) ∧
  t.io.rb = s.io.rb ∧
  (w.shift = false → t.io.sr = s.io.sr) ∧
  (w.halted = false → t.halted = s.halted) ∧
  t.faulted = s.faulted ∧
  t.params = s.params ∧
  t.schedule = s.schedule

/-- All five flags. -/
def allFlags : List Flag := [.s, .z, .ac, .p, .c]

/-- The four flags INR and DCR write. -/
def flagsButCarry : List Flag := [.s, .z, .ac, .p]

/-- The two registers of a pair; SP has none. -/
def regsOf : Pair → List Reg
  | .bc => [.b, .c]
  | .de => [.d, .e]
  | .hl => [.h, .l]
  | .sp => []

/-! ### The invariant -/

/-- What holds in every state of a run: pc and sp lie below MEMSIZE (R26, R29) and memory is in its canonical form. -/
structure Invariant (s : State) : Prop where
  pc_lt  : s.pc.toNat < memSize
  sp_lt  : s.sp.toNat < memSize
  mem_wf : Memory.wf s.mem

/-! ### Encodings -/

/-- The instruction is encoded as these bytes, and they decode to it. -/
def EncodedAs (i : Instr) (bs : List Byte) : Prop := encode i = bs ∧ decode bs = .ok (i, [])

/-- The bytes R97 leaves undefined. -/
def undefinedBytes : List Byte := [0x08, 0x10, 0x18, 0x20, 0x28, 0x30, 0x38, 0xCB, 0xD9, 0xDD, 0xED, 0xFD]

/-- The opcodes of three bytes (R90). -/
def threeByteOpcodes : List Byte :=
  [0x01, 0x11, 0x21, 0x31, 0x22, 0x2A, 0x32, 0x3A, 0xC3, 0xCD] ++
  [0xC2, 0xCA, 0xD2, 0xDA, 0xE2, 0xEA, 0xF2, 0xFA] ++ [0xC4, 0xCC, 0xD4, 0xDC, 0xE4, 0xEC, 0xF4, 0xFC]

/-- The opcodes of two bytes (R90). -/
def twoByteOpcodes : List Byte :=
  [0x06, 0x0E, 0x16, 0x1E, 0x26, 0x2E, 0x36, 0x3E, 0xD3, 0xDB] ++
  [0xC6, 0xCE, 0xD6, 0xDE, 0xE6, 0xEE, 0xF6, 0xFE]

/-! ### Flag rules in whole numbers -/

/-- How many bits of a byte are 1. -/
def onesIn (v : Byte) : Nat := (List.range 8).countP fun i => v.getLsbD i

/-- S, Z and P of a result byte (R10, R30). -/
def ResultFlags (r : Byte) (f : Flags) : Prop :=
  (f.s = true ↔ 128 ≤ r.toNat) ∧ (f.z = true ↔ r.toNat = 0) ∧ (f.p = true ↔ onesIn r % 2 = 0)

/-- `(r, f) = ADD8(a, b, cin)` (R140). -/
def IsSum (a b cin : Nat) (r : Byte) (f : Flags) : Prop :=
  r.toNat = (a + b + cin) % 256 ∧ ResultFlags r f ∧
  (f.ac = true ↔ 15 < a % 16 + b % 16 + cin) ∧ (f.c = true ↔ 255 < a + b + cin)

/-- AC after `SUB8(a, b, bin)` under either setting of SUB_AC (R141). -/
def SubAuxCarry (m : SubAc) (a b bin : Nat) : Prop :=
  match m with
  | .intel => (0 : Int) ≤ (a % 16 : Nat) - (b % 16 : Nat) - (bin : Int)
  | .negate => 15 < (a % 16 : Nat) + (-((b : Int) + bin)) % 256 % 16

/-- `(r, f) = SUB8(a, b, bin)` (R141). -/
def IsDifference (m : SubAc) (a b bin : Nat) (r : Byte) (f : Flags) : Prop :=
  (r.toNat : Int) = ((a : Int) - b - bin) % 256 ∧ ResultFlags r f ∧
  (f.ac = true ↔ SubAuxCarry m a b bin) ∧ (f.c = true ↔ a < b + bin)

/-- `LOGIC(r)` (R180). -/
def IsLogic (r : Byte) (f : Flags) : Prop := ResultFlags r f ∧ f.ac = false ∧ f.c = false

/-- The test of a condition as R210 puts it: bits 2:1 of the code pick Z, C, P or S, bit 0 the value it must have. -/
def condTrue (k : Cond) (f : Flags) : Prop :=
  (match (k.code >>> 1).toNat with
    | 0 => f.z
    | 1 => f.c
    | 2 => f.p
    | _ => f.s) = k.code.getLsbD 0

/-- Which bit of the status byte holds which flag (R33), under either layout. -/
def FlagBits (m : PswLayout) (v : Byte) (f : Flags) : Prop :=
  match m with
  | .lsb0Literal =>
    f.s = v.getLsbD 0 ∧ f.z = v.getLsbD 1 ∧ f.ac = v.getLsbD 3 ∧ f.p = v.getLsbD 5 ∧ f.c = v.getLsbD 7
  | .msb0Reading =>
    f.s = v.getLsbD 7 ∧ f.z = v.getLsbD 6 ∧ f.ac = v.getLsbD 4 ∧ f.p = v.getLsbD 2 ∧ f.c = v.getLsbD 0

/-- The bits of the status byte that hold flags: bits 7, 5, 3, 1, 0, or their mirror image (R33, R34). -/
def pswMask : PswLayout → Byte
  | .lsb0Literal => 0xAB
  | .msb0Reading => 0xD5

/-- The number SHIFT_MODULUS stands for (R271). -/
def modulusOf : ShiftModulus → Nat
  | .full => 65536
  | .legacy => 65535

/-- The opcode is a conditional jump, call or return (R212, R214, R216) and its condition holds. -/
def ConditionMet (op : Byte) (f : Flags) : Prop :=
  ∃ k : Cond, condTrue k f ∧
    (op = 0b11#2 ++ k.code ++ 0b010#3 ∨ op = 0b11#2 ++ k.code ++ 0b100#3 ∨ op = 0b11#2 ++ k.code ++ 0b000#3)

/-! ### The three operand forms of an 8-bit operation -/

/-- The claim holds of the register form for every register, of the M form when HL is an address of memory and of the
immediate form for every byte, each with its operand byte; the M form faults when HL is no address; and the forms are
encoded with the operation code `op` (R83, R90). -/
def ForEachOperand (s : State) (op : BitVec 3) (reg : Reg → Instr) (mem : Instr) (imm : Byte → Instr)
    (claim : Instr → Byte → Prop) : Prop :=
  (∀ r, EncodedAs (reg r) [0b10#2 ++ op ++ r.code] ∧ claim (reg r) (s.reg r)) ∧
  EncodedAs mem [0b10#2 ++ op ++ 0b110#3] ∧
  (pairNat s .hl < memSize → claim mem (byteAt s (pairNat s .hl))) ∧
  (memSize ≤ pairNat s .hl → Raises mem s (.outOfRange (pairNat s .hl))) ∧
  ∀ v, EncodedAs (imm v) [0b11#2 ++ op ++ 0b110#3, v] ∧ claim (imm v) v

/-! ### The conditional forms, by condition -/

/-- The conditional jump of a condition (R212). -/
def jumpOn : Cond → Word → Instr
  | .nz => .jnz
  | .z => .jz
  | .nc => .jnc
  | .c => .jc
  | .po => .jpo
  | .pe => .jpe
  | .p => .jp
  | .m => .jm

/-- The conditional call of a condition (R214). -/
def callOn : Cond → Word → Instr
  | .nz => .cnz
  | .z => .cz
  | .nc => .cnc
  | .c => .cc
  | .po => .cpo
  | .pe => .cpe
  | .p => .cp
  | .m => .cm

/-- The conditional return of a condition (R216). -/
def returnOn : Cond → Instr
  | .nz => .rnz
  | .z => .rz
  | .nc => .rnc
  | .c => .rc
  | .po => .rpo
  | .pe => .rpe
  | .p => .rp
  | .m => .rm

/-! ### Stack transfers -/

/-- `v` lies on the stack at the two bytes below the old sp, high byte above, and sp is down by 2 (R240). -/
def Pushed (v : Word) (s t : State) : Prop :=
  t.sp.toNat = s.sp.toNat - 2 ∧
  byteAt t (s.sp.toNat - 1) = BitVec.ofNat 8 (v.toNat / 256) ∧
  byteAt t (s.sp.toNat - 2) = BitVec.ofNat 8 v.toNat

/-- The addresses a push stores to. -/
def pushedBytes (s : State) : List Nat := [s.sp.toNat - 1, s.sp.toNat - 2]

/-- The word `Pop16` reads: the low byte at sp, the high byte above it (R241). -/
def wordAtSp (s : State) : Nat := 256 * (byteAt s (s.sp.toNat + 1)).toNat + (byteAt s s.sp.toNat).toNat

/-- sp two up, mod 16384 (R241). -/
def Popped (s t : State) : Prop := t.sp.toNat = (s.sp.toNat + 2) % memSize

/-! ### The tables -/

/-- Which flags an instruction may write (the table of R31). -/
def flagsWritten : Instr → List Flag
  | .addR _ | .addM | .adcR _ | .adcM | .adi _ | .aci _ | .subR _ | .subM | .sbbR _ | .sbbM | .sui _ | .sbi _ => allFlags
  | .cmpR _ | .cmpM | .cpi _ => allFlags
  | .inrR _ | .inrM | .dcrR _ | .dcrM => flagsButCarry
  | .anaR _ | .anaM | .ani _ | .oraR _ | .oraM | .ori _ | .xraR _ | .xraM | .xri _ => allFlags
  | .daa => allFlags
  | .rlc | .rrc | .ral | .rar => [.c]
  | .dad _ => [.c]
  | .stc | .cmc => [.c]
  | .popPsw => allFlags
  | _ => []

/-- Which bytes an instruction stores to (the table of R56 with the addresses of R65); a conditional call that is not
taken stores nothing (R214). -/
def bytesStored (i : Instr) (s : State) : List Nat :=
  match i with
  | .movMR _ | .mviM _ | .inrM | .dcrM => [pairNat s .hl]
  | .stax p => [pairNat s p]
  | .sta a => [a.toNat]
  | .shld a => [a.toNat, a.toNat + 1]
  | .push _ | .pushPsw | .call _ | .rst _ => pushedBytes s
  | .cnz _ => if s.flags.z = false then pushedBytes s else []
  | .cz _ => if s.flags.z = true then pushedBytes s else []
  | .cnc _ => if s.flags.c = false then pushedBytes s else []
  | .cc _ => if s.flags.c = true then pushedBytes s else []
  | .cpo _ => if s.flags.p = false then pushedBytes s else []
  | .cpe _ => if s.flags.p = true then pushedBytes s else []
  | .cp _ => if s.flags.s = false then pushedBytes s else []
  | .cm _ => if s.flags.s = true then pushedBytes s else []
  | .xthl => [s.sp.toNat, s.sp.toNat + 1]
  | _ => []

/-- The fault of a one-byte access at a plain address (R304). -/
def faultAt (a : Nat) : Option Fault := if memSize ≤ a then some (.outOfRange a) else none

/-- The fault of an access to a and a + 1 (R304). -/
def faultAt2 (a : Nat) : Option Fault :=
  if memSize ≤ a then some (.outOfRange a) else if a = memSize - 1 then some (.outOfRange memSize) else none

/-- The fault of a push: at address -1 when sp is 0 or 1 (R304). -/
def pushFault (s : State) : Option Fault := if s.sp.toNat < 2 then some (.outOfRange (-1)) else none

/-- The fault of a pop: at address 16384 when sp is 16383 (R304). -/
def popFault (s : State) : Option Fault := if s.sp.toNat = memSize - 1 then some (.outOfRange memSize) else none

/-- The fault an instruction ends in, or none: the tables of R303 and R304, the undefined bytes (R97, R301) and the six
terms no byte encodes (R95, R302). -/
def faultOf (i : Instr) (s : State) : Option Fault :=
  match i with
  | .movRM _ | .movMR _ | .mviM _ | .inrM | .dcrM => faultAt (pairNat s .hl)
  | .addM | .adcM | .subM | .sbbM | .anaM | .xraM | .oraM | .cmpM => faultAt (pairNat s .hl)
  | .ldax .bc | .stax .bc => faultAt (pairNat s .bc)
  | .ldax .de | .stax .de => faultAt (pairNat s .de)
  | .ldax .hl | .stax .hl => some (.invalidRegister 2)
  | .ldax .sp | .stax .sp | .push .sp | .pop .sp => some (.invalidRegister 3)
  | .lda a | .sta a => faultAt a.toNat
  | .lhld a | .shld a => faultAt2 a.toNat
  | .push _ | .pushPsw | .call _ | .rst _ => pushFault s
  | .cnz _ => if s.flags.z = false then pushFault s else none
  | .cz _ => if s.flags.z = true then pushFault s else none
  | .cnc _ => if s.flags.c = false then pushFault s else none
  | .cc _ => if s.flags.c = true then pushFault s else none
  | .cpo _ => if s.flags.p = false then pushFault s else none
  | .cpe _ => if s.flags.p = true then pushFault s else none
  | .cp _ => if s.flags.s = false then pushFault s else none
  | .cm _ => if s.flags.s = true then pushFault s else none
  | .pop _ | .popPsw | .ret | .xthl => popFault s
  | .rnz => if s.flags.z = false then popFault s else none
  | .rz => if s.flags.z = true then popFault s else none
  | .rnc => if s.flags.c = false then popFault s else none
  | .rc => if s.flags.c = true then popFault s else none
  | .rpo => if s.flags.p = false then popFault s else none
  | .rpe => if s.flags.p = true then popFault s else none
  | .rp => if s.flags.s = false then popFault s else none
  | .rm => if s.flags.s = true then popFault s else none
  | .inPort p => if 3 < p.toNat then some (.invalidPort p) else none
  | .outPort p => if 6 < p.toNat then some (.invalidPort p) else none
  | .undef08 => some (.decodeFailure 0x08)
  | .undef10 => some (.decodeFailure 0x10)
  | .undef18 => some (.decodeFailure 0x18)
  | .undef20 => some (.decodeFailure 0x20)
  | .undef28 => some (.decodeFailure 0x28)
  | .undef30 => some (.decodeFailure 0x30)
  | .undef38 => some (.decodeFailure 0x38)
  | .undefCB => some (.decodeFailure 0xCB)
  | .undefD9 => some (.decodeFailure 0xD9)
  | .undefDD => some (.decodeFailure 0xDD)
  | .undefED => some (.decodeFailure 0xED)
  | .undefFD => some (.decodeFailure 0xFD)
  | _ => none

end Sys2Proof.Safety
end

