-- ==== Sys2Proof/Certificates/Slice0/Obligations.lean ====
section
/-! DEFINITION. What is claimed of the machine: one `def Obligations.<Name> : Prop` per entry of OBLIGATIONS.json. They
are stated in the terms of Safety.lean. A statement about an instruction runs on the state exec is given, whose pc has
passed the instruction's bytes (R81); `StepRunsTheFetchedInstruction` and `StepRunsTheInjectedOpcode` carry it to a
step. `Invariant` is the invariant `EveryStepKeepsTheInvariant` states. -/

open Sys2Proof Sys2Proof.Machine Sys2Proof.Safety

/-! ### Encoding -/

/-- Encoding drops no bit: every well-formed instruction, whatever follows it in memory, decodes back to itself. -/
def Obligations.DecodeOfEncodeGivesTheInstruction : Prop :=
  ∀ (i : Instr) (rest : List Byte), i.wellFormed = true → decode (encode i ++ rest) = .ok (i, rest)

/-- Each word has one meaning: what decodes is well-formed and its encoding is the bytes it was read from. -/
def Obligations.EncodeOfDecodeGivesTheBytes : Prop :=
  ∀ (bs : List Byte) (i : Instr) (rest : List Byte),
    decode bs = .ok (i, rest) → i.wellFormed = true ∧ bs = encode i ++ rest

/-- R80, R98: the opcode alone gives the length; which opcodes have which length is R90's column; too few bytes are
refused by name. -/
def Obligations.OpcodeAloneGivesTheLength : Prop :=
  ∀ (op : Byte),
    (opcodeLength op = 3 ↔ op ∈ threeByteOpcodes) ∧ (opcodeLength op = 2 ↔ op ∈ twoByteOpcodes) ∧
    (opcodeLength op = 1 ↔ op ∉ threeByteOpcodes ∧ op ∉ twoByteOpcodes) ∧
    (∀ rest : List Byte, opcodeLength op ≤ rest.length + 1 →
      ∃ i, decode (op :: rest) = .ok (i, rest.drop (opcodeLength op - 1)) ∧ (encode i).length = opcodeLength op) ∧
    (∀ rest : List Byte, rest.length + 1 < opcodeLength op → decode (op :: rest) = .error (.missingOperand op))

/-- A word of each family, written out from the patterns of R90, decodes to its instruction. -/
def Obligations.SampleWordsDecodeAsTheTableSays : Prop :=
  decode [0b01111000] = .ok (.movRR .a .b, []) ∧
  decode [0b00100001, 0x34, 0x12] = .ok (.lxi .hl 0x1234, []) ∧
  decode [0b10010110] = .ok (.subM, []) ∧
  decode [0b11100110, 0x0F] = .ok (.ani 0x0F, []) ∧
  decode [0b11011100, 0x34, 0x12] = .ok (.cc 0x1234, []) ∧
  decode [0b11010111] = .ok (.rst 2, []) ∧
  decode [0b11110101] = .ok (.pushPsw, []) ∧
  decode [0b11010011, 0x04] = .ok (.outPort 4, []) ∧
  decode [0b01110110] = .ok (.hlt, [])

/-- R97, R301: the twelve bytes, fetched or injected, end the step with DecodeFailure of that byte; no other byte
decodes to an instruction that can. Which bytes are undefined the spec marks as general knowledge (R97, decision D15).
The schedule is the model's own (log 8). -/
def Obligations.TheTwelveUndefinedBytesFailDecoding : Prop :=
  (∀ s, Raises .undef08 s (.decodeFailure 0x08) ∧ Raises .undef10 s (.decodeFailure 0x10) ∧
    Raises .undef18 s (.decodeFailure 0x18) ∧ Raises .undef20 s (.decodeFailure 0x20) ∧
    Raises .undef28 s (.decodeFailure 0x28) ∧ Raises .undef30 s (.decodeFailure 0x30) ∧
    Raises .undef38 s (.decodeFailure 0x38) ∧ Raises .undefCB s (.decodeFailure 0xCB) ∧
    Raises .undefD9 s (.decodeFailure 0xD9) ∧ Raises .undefDD s (.decodeFailure 0xDD) ∧
    Raises .undefED s (.decodeFailure 0xED) ∧ Raises .undefFD s (.decodeFailure 0xFD)) ∧
  (∀ op ∈ undefinedBytes, ∀ s, Invariant s → Running s →
    ((s.schedule = [] ∨ s.schedule.head? = some .runCycle) → byteAt s s.pc.toNat = op →
      step s = .fault (.decodeFailure op)) ∧
    (s.schedule.head? = some (.inject op) → step s = .fault (.decodeFailure op))) ∧
  (∀ op, op ∉ undefinedBytes → ∀ rest i after, decode (op :: rest) = .ok (i, after) →
    ∀ s f, exec i s ≠ .fault (.decodeFailure f))

/-- R302 and R95 (which the spec marks as its own inference): the six terms no byte encodes are refused with
InvalidRegister of the pair code (R300, log 13), and no byte sequence decodes to one. -/
def Obligations.PairsWithoutAnEncodingAreInvalidRegisters : Prop :=
  (∀ s, Raises (.push .sp) s (.invalidRegister 3) ∧ Raises (.pop .sp) s (.invalidRegister 3) ∧
    Raises (.ldax .hl) s (.invalidRegister 2) ∧ Raises (.ldax .sp) s (.invalidRegister 3) ∧
    Raises (.stax .hl) s (.invalidRegister 2) ∧ Raises (.stax .sp) s (.invalidRegister 3)) ∧
  ∀ bs i rest, decode bs = .ok (i, rest) → ∀ s code, exec i s ≠ .fault (.invalidRegister code)

/-! ### The step -/

/-- When the bytes at pc decode to an instruction, a fetched step is exec of it on the state with pc past its bytes,
wrapping mod 16384. That an empty schedule fetches and that a move is taken off it is the model's choice (log 8). -/
def Obligations.StepRunsTheFetchedInstruction : Prop :=
  ∀ (s : State) (i : Instr) (rest : List Byte), Invariant s → Running s →
    (s.schedule = [] ∨ s.schedule.head? = some .runCycle) →
    decode (bytesFrom s s.pc.toNat 3) = .ok (i, rest) →
    step s = exec i (afterFetch s (encode i).length)

/-- An injected opcode is used directly: only its operand bytes, if it has any, are fetched at pc and advance it
(decision D10). The schedule the move is taken off is the model's own (log 8). -/
def Obligations.StepRunsTheInjectedOpcode : Prop :=
  ∀ (s : State) (op : Byte) (i : Instr) (rest : List Byte), Invariant s → Running s →
    s.schedule.head? = some (.inject op) →
    decode (op :: bytesFrom s s.pc.toNat 2) = .ok (i, rest) →
    step s = exec i (afterFetch s ((encode i).length - 1))

/-- A fetch never faults: in every state that meets the invariant an instruction is found, for every injected byte too.
-/
def Obligations.FetchNeverFaults : Prop :=
  ∀ (s : State) (injected : Option Byte), Invariant s →
    ∃ i t, s.fetchInstr injected = .ok (i, t) ∧ i.wellFormed = true ∧ Invariant t

/-- R312: a halted core takes no step (decision D11), and neither does a faulted one (R305): not fetched, not injected.
That no other move follows either is the model's choice (log 7). -/
def Obligations.HaltedOrFaultedCoreTakesNoStep : Prop :=
  ∀ (s : State) (m : List Move) (injected : Option Byte),
    (s.halted = true → step (withSchedule m s) = .refused .coreHalted ∧ runCycle injected s = .refused .coreHalted) ∧
    (s.halted = false → s.faulted ≠ none →
      step (withSchedule m s) = .refused .coreFaulted ∧ runCycle injected s = .refused .coreFaulted)

/-- R311: an injected RST n pushes pc unadvanced and goes to 8 * n, and changes nothing else but the schedule, off which
the move is taken: the model's choice (log 8). A RET in any later state with that sp and those two bytes resumes exactly
there. With sp 0 or 1 it faults as `CallsPushTheReturnAddress` says. -/
def Obligations.InjectedRestartIsInterruptEntry : Prop :=
  ∀ (s : State) (n : BitVec 3), Invariant s → Running s → 2 ≤ s.sp.toNat →
    s.schedule.head? = some (.inject (0b11#2 ++ n ++ 0b111#3)) →
    ∃ t, step s = .next t ∧ t.pc.toNat = 8 * n.toNat ∧ Pushed s.pc s t ∧
      OnlyChanges { pc := true, sp := true, mem := pushedBytes s } (afterFetch s 0) t ∧
      ∀ u, u.sp = t.sp → byteAt u (s.sp.toNat - 1) = byteAt t (s.sp.toNat - 1) →
        byteAt u (s.sp.toNat - 2) = byteAt t (s.sp.toNat - 2) →
        Completes .ret u fun v => v.pc = s.pc ∧ v.sp = s.sp

/-- R272: a set_read_bit move sets one bit of one input latch and nothing else, and no other step changes a latch. That
the move is taken off the schedule is the model's choice (log 8). -/
def Obligations.OnlyTheInputSourceChangesInputLatches : Prop :=
  (∀ (s : State) (port : Fin numReadLatches) (bit : Fin 8) (value : Bool), Running s →
    s.schedule.head? = some (.setReadBit port bit value) →
    ∃ t, step s = .next t ∧
      (∀ (k : Fin numReadLatches) (j : Fin 8),
        (t.io.rb[k]).getLsbD j = if k = port ∧ j = bit then value else (s.io.rb[k]).getLsbD j) ∧
      { t with io := { t.io with rb := s.io.rb }, schedule := s.schedule } = s ∧ t.schedule = s.schedule.tail) ∧
  (∀ (s t : State), step s = .next t → t.io.rb ≠ s.io.rb →
    ∃ port bit value, s.schedule.head? = some (.setReadBit port bit value))

/-! ### Reset -/

/-- R41, R42: at every launch pc is PC_RESET mod 16384 and sp is 0x23FF; the default PC_RESET is 0 (decision D5). -/
def Obligations.LaunchSetsPcAndSp : Prop :=
  (∀ l : Launch, (State.launch l).pc.toNat = l.pcReset.toNat % memSize ∧ (State.launch l).sp = 0x23FF) ∧
  State.reset.pc = 0 ∧ State.reset.sp = 0x23FF

/-- Every launch starts running (R45) and takes each unspecified value from the launch as it is (R40, R43, R44). -/
def Obligations.LaunchRunsWithAnyUnspecifiedValues : Prop :=
  ∀ l : Launch, Running (State.launch l) ∧ (State.launch l).regs = l.regs ∧ (State.launch l).flags = l.flags ∧
    (State.launch l).io = l.io ∧ ∀ a, byteAt (State.launch l) a = Memory.read l.image a

/-- The invariant holds at every launch whose image is canonical memory, and so after reset. -/
def Obligations.LaunchMeetsTheInvariant : Prop :=
  (∀ l : Launch, Memory.wf l.image → Invariant (State.launch l)) ∧ Invariant State.reset

/-! ### Whole-machine rules -/

/-- Every step of every agent keeps pc and sp below 16384 (R26, R29) and memory canonical. -/
def Obligations.EveryStepKeepsTheInvariant : Prop :=
  ∀ s t : State, Invariant s → step s = .next t → Invariant t

/-- R303, R304, R97, R95: every instruction completes, but in exactly the cases of the fault tables, where it ends in
the fault listed there. Ports without a latch and address -1 fault by the spec's decisions D9 and D8. -/
def Obligations.EveryInstructionCompletesOrFaultsAsTabled : Prop :=
  ∀ (i : Instr) (s : State), Invariant s →
    (∀ f, faultOf i s = some f → Raises i s f) ∧ (faultOf i s = none → ∃ t, exec i s = .next t)

/-- The table of R31: an instruction leaves every flag it is not listed for as it was (for rotates, DAD, STC and CMC
this is decision D14). -/
def Obligations.OnlyListedInstructionsWriteFlags : Prop :=
  ∀ (i : Instr) (s t : State) (f : Flag), exec i s = .next t → f ∉ flagsWritten i → flagOf t.flags f = flagOf s.flags f

/-- The table of R56: an instruction leaves every byte it does not store to as it was. -/
def Obligations.OnlyListedBytesAreStoredTo : Prop :=
  ∀ (i : Instr) (s t : State) (a : Nat), exec i s = .next t → a ∉ bytesStored i s → byteAt t a = byteAt s a

/-- No instruction but OUT changes a latch or SR, none but HLT halts, and none changes the fault record, the parameters
or the schedule. -/
def Obligations.OnlyOutChangesTheBusAndOnlyHltHalts : Prop :=
  ∀ (i : Instr) (s t : State), exec i s = .next t →
    ((∀ p, i ≠ .outPort p) → t.io = s.io) ∧ (i ≠ .hlt → t.halted = s.halted) ∧
    t.faulted = s.faulted ∧ t.params = s.params ∧ t.schedule = s.schedule

/-- R37: no instruction can read RB[3]: two states that differ only there give outcomes that differ only there. -/
def Obligations.NoInstructionReadsInputLatchThree : Prop :=
  ∀ (i : Instr) (s : State) (v : Byte), exec i (withReadLatch3 v s) = mapNext (withReadLatch3 v) (exec i s)

/-- There is no pending latch (R39, R313): what the agents will do next is invisible to every instruction. -/
def Obligations.NoInstructionSeesTheSchedule : Prop :=
  ∀ (i : Instr) (s : State) (m : List Move), exec i (withSchedule m s) = mapNext (withSchedule m) (exec i s)

/-! ### State views -/

/-- R23, R24: pairs are views of the registers, high byte first; a pair write reads back, SP mod 16384 (decision D7). -/
def Obligations.PairsAreViewsOfTheRegisters : Prop :=
  ∀ (s : State) (v : Word),
    (s.pair .bc).toNat = 256 * (s.reg .b).toNat + (s.reg .c).toNat ∧
    (s.pair .de).toNat = 256 * (s.reg .d).toNat + (s.reg .e).toNat ∧
    (s.pair .hl).toNat = 256 * (s.reg .h).toNat + (s.reg .l).toNat ∧ s.pair .sp = s.sp ∧
    (∀ p, p ≠ .sp → (s.setPair p v).pair p = v ∧ OnlyChanges { regs := regsOf p } s (s.setPair p v)) ∧
    ((s.setPair .sp v).pair .sp).toNat = v.toNat % memSize ∧ OnlyChanges { sp := true } s (s.setPair .sp v)

/-- R33, R34: the status byte holds each flag at its bit and 0 at the reserved ones; reading what was written gives the
flags back, and writing then reading a byte keeps exactly its flag bits. Both layouts of decision D2 are covered. -/
def Obligations.StatusByteAndFlagsRoundTrip : Prop :=
  ∀ (m : PswLayout) (f : Flags) (v : Byte),
    FlagBits m (psw m f) f ∧ psw m f &&& ~~~ pswMask m = 0 ∧
    (psw .lsb0Literal f).toNat =
      128 * f.c.toNat + 32 * f.p.toNat + 8 * f.ac.toNat + 2 * f.z.toNat + f.s.toNat ∧
    FlagBits m v (flagsOfPsw m v) ∧ flagsOfPsw m (psw m f) = f ∧ psw m (flagsOfPsw m v) = v &&& pswMask m

/-- R52, R53: a write inside memory is read back there, leaves every other byte, and keeps memory canonical; outside,
both fail with the address attempted, a negative one too (decision D8). -/
def Obligations.MemoryReadsBackWritesAndFaultsOutside : Prop :=
  ∀ (s : State) (a : Int) (v : Byte), Invariant s →
    (0 ≤ a → a < memSize → s.memRead a = .ok (byteAt s a.toNat) ∧
      ∃ t, s.memWrite a v = .ok t ∧ t.memRead a = .ok v ∧ OnlyChanges { mem := [a.toNat] } s t ∧
        Memory.wf t.mem) ∧
    (a < 0 ∨ (memSize : Int) ≤ a →
      s.memRead a = .error (.outOfRange a) ∧ s.memWrite a v = .error (.outOfRange a))

/-- R66, R68: the loader writes byte i at address + i and fails at the first address that does not exist; the search
gives the first address from start up that holds the byte, or none. -/
def Obligations.LoaderAndSearchWorkOnTheBytes : Prop :=
  ∀ (s : State) (a : Nat) (bs : List Byte) (v : Byte), Invariant s →
    (a + bs.length ≤ memSize → ∃ t, s.setRam a bs = .ok t ∧ (∀ k (h : k < bs.length), byteAt t (a + k) = bs[k]) ∧
      OnlyChanges { mem := List.range' a bs.length } s t) ∧
    (bs ≠ [] → memSize < a + bs.length → s.setRam a bs = .error (.outOfRange (max a memSize : Nat))) ∧
    (∀ k, s.findByte v a = some k ↔
      a ≤ k ∧ k < memSize ∧ byteAt s k = v ∧ ∀ j, a ≤ j → j < k → byteAt s j ≠ v) ∧
    (s.findByte v a = none ↔ ∀ j, a ≤ j → j < memSize → byteAt s j ≠ v)

/-! ### Data transfer -/

/-- R110, R113: MOV r1,r2 and MVI r write one register and nothing else. -/
def Obligations.RegisterMovesWriteOneRegister : Prop :=
  ∀ (s : State) (dst src : Reg) (v : Byte),
    EncodedAs (.movRR dst src) [0b01#2 ++ dst.code ++ src.code] ∧
    Completes (.movRR dst src) s (fun t => t.reg dst = s.reg src ∧ OnlyChanges { regs := [dst] } s t) ∧
    EncodedAs (.mviR dst v) [0b00#2 ++ dst.code ++ 0b110#3, v] ∧
    Completes (.mviR dst v) s (fun t => t.reg dst = v ∧ OnlyChanges { regs := [dst] } s t)

/-- R115, R122: LXI loads a pair, low byte first (decision D17), SP mod 16384 (decision D7); XCHG exchanges DE and HL,
which R122 marks as general knowledge. -/
def Obligations.PairLoadAndExchange : Prop :=
  ∀ (s : State) (p : Pair) (lo hi : Byte),
    EncodedAs (.lxi p (hi ++ lo)) [0b00#2 ++ p.code ++ 0b0001#4, lo, hi] ∧
    Completes (.lxi p (hi ++ lo)) s (fun t =>
      (p ≠ .sp → t.pair p = hi ++ lo ∧ OnlyChanges { regs := regsOf p } s t) ∧
      (p = .sp → t.sp.toNat = (256 * hi.toNat + lo.toNat) % memSize ∧ OnlyChanges { sp := true } s t)) ∧
    EncodedAs .xchg [0b11101011] ∧
    Completes .xchg s (fun t =>
      t.reg .h = s.reg .d ∧ t.reg .l = s.reg .e ∧ t.reg .d = s.reg .h ∧ t.reg .e = s.reg .l ∧
      OnlyChanges { regs := [.d, .e, .h, .l] } s t)

/-- R111, R116, R118, R120: the loads read the addressed bytes into their registers and nothing else changes; an address
that does not exist faults. The low byte of an operand and of HL comes first by decision D17. That LDAX with HL or SP
raises InvalidRegister of the pair code rests on R95, an inference the spec marks as its own, and on log 13. -/
def Obligations.LoadsReadTheAddressedBytes : Prop :=
  ∀ (s : State) (dst : Reg) (p : Pair) (lo hi : Byte),
    let a := 256 * hi.toNat + lo.toNat
    EncodedAs (.movRM dst) [0b01#2 ++ dst.code ++ 0b110#3] ∧
    (pairNat s .hl < memSize →
      Completes (.movRM dst) s fun t => t.reg dst = byteAt s (pairNat s .hl) ∧ OnlyChanges { regs := [dst] } s t) ∧
    (memSize ≤ pairNat s .hl → Raises (.movRM dst) s (.outOfRange (pairNat s .hl))) ∧
    EncodedAs (.lda (hi ++ lo)) [0b00111010, lo, hi] ∧
    (a < memSize → Completes (.lda (hi ++ lo)) s fun t => t.acc = byteAt s a ∧ OnlyChanges { regs := [.a] } s t) ∧
    (memSize ≤ a → Raises (.lda (hi ++ lo)) s (.outOfRange a)) ∧
    EncodedAs (.lhld (hi ++ lo)) [0b00101010, lo, hi] ∧
    (a + 1 < memSize → Completes (.lhld (hi ++ lo)) s fun t =>
      t.reg .l = byteAt s a ∧ t.reg .h = byteAt s (a + 1) ∧ OnlyChanges { regs := [.h, .l] } s t) ∧
    (memSize ≤ a → Raises (.lhld (hi ++ lo)) s (.outOfRange a)) ∧
    (a + 1 = memSize → Raises (.lhld (hi ++ lo)) s (.outOfRange memSize)) ∧
    (p = .bc ∨ p = .de → EncodedAs (.ldax p) [0b00#2 ++ p.code ++ 0b1010#4] ∧
      (pairNat s p < memSize →
        Completes (.ldax p) s fun t => t.acc = byteAt s (pairNat s p) ∧ OnlyChanges { regs := [.a] } s t) ∧
      (memSize ≤ pairNat s p → Raises (.ldax p) s (.outOfRange (pairNat s p)))) ∧
    (p = .hl ∨ p = .sp → Raises (.ldax p) s (.invalidRegister p.code.toNat))

/-- R112, R114, R117, R119, R121: the stores put their register or immediate byte at the address they form, and every
other byte reads as before; an address that does not exist faults. The low byte of an operand and of HL comes first by
decision D17. That STAX with HL or SP raises InvalidRegister of the pair code rests on R120 and R95, an inference the
spec marks as its own, and on log 13. -/
def Obligations.StoresWriteTheAddressedBytes : Prop :=
  ∀ (s : State) (src : Reg) (v : Byte) (p : Pair) (lo hi : Byte), Invariant s →
    let a := 256 * hi.toNat + lo.toNat
    let hl := pairNat s .hl
    EncodedAs (.movMR src) [0b01110#5 ++ src.code] ∧ EncodedAs (.mviM v) [0b00110110, v] ∧
    (hl < memSize →
      (Completes (.movMR src) s fun t => byteAt t hl = s.reg src ∧ OnlyChanges { mem := [hl] } s t) ∧
      Completes (.mviM v) s fun t => byteAt t hl = v ∧ OnlyChanges { mem := [hl] } s t) ∧
    (memSize ≤ hl → Raises (.movMR src) s (.outOfRange hl) ∧ Raises (.mviM v) s (.outOfRange hl)) ∧
    EncodedAs (.sta (hi ++ lo)) [0b00110010, lo, hi] ∧
    (a < memSize → Completes (.sta (hi ++ lo)) s fun t => byteAt t a = s.acc ∧ OnlyChanges { mem := [a] } s t) ∧
    (memSize ≤ a → Raises (.sta (hi ++ lo)) s (.outOfRange a)) ∧
    EncodedAs (.shld (hi ++ lo)) [0b00100010, lo, hi] ∧
    (a + 1 < memSize → Completes (.shld (hi ++ lo)) s fun t =>
      byteAt t a = s.reg .l ∧ byteAt t (a + 1) = s.reg .h ∧ OnlyChanges { mem := [a, a + 1] } s t) ∧
    (memSize ≤ a → Raises (.shld (hi ++ lo)) s (.outOfRange a)) ∧
    (a + 1 = memSize → Raises (.shld (hi ++ lo)) s (.outOfRange memSize)) ∧
    (p = .bc ∨ p = .de → EncodedAs (.stax p) [0b00#2 ++ p.code ++ 0b0010#4] ∧
      (pairNat s p < memSize → Completes (.stax p) s fun t =>
        byteAt t (pairNat s p) = s.acc ∧ OnlyChanges { mem := [pairNat s p] } s t) ∧
      (memSize ≤ pairNat s p → Raises (.stax p) s (.outOfRange (pairNat s p)))) ∧
    (p = .hl ∨ p = .sp → Raises (.stax p) s (.invalidRegister p.code.toNat))

/-! ### Arithmetic -/

/-- R140, R142 to R147: ADD, ADC and their M and immediate forms give ADD8 of A, the operand and 0 or the carry. That
the carry in counts for AC is decision D12. -/
def Obligations.AddsGiveSumAndFlags : Prop :=
  ∀ s : State,
    ForEachOperand s 0b000 .addR .addM .adi (fun i v => Completes i s fun t =>
      IsSum s.acc.toNat v.toNat 0 t.acc t.flags ∧ OnlyChanges { regs := [.a], flags := allFlags } s t) ∧
    ForEachOperand s 0b001 .adcR .adcM .aci (fun i v => Completes i s fun t =>
      IsSum s.acc.toNat v.toNat s.flags.c.toNat t.acc t.flags ∧ OnlyChanges { regs := [.a], flags := allFlags } s t)

/-- R141, R148 to R153: SUB, SBB and their M and immediate forms give SUB8 of A, the operand and 0 or the borrow, under
either setting of SUB_AC (decision D12). -/
def Obligations.SubtractsGiveDifferenceAndFlags : Prop :=
  ∀ s : State,
    ForEachOperand s 0b010 .subR .subM .sui (fun i v => Completes i s fun t =>
      IsDifference s.params.subAc s.acc.toNat v.toNat 0 t.acc t.flags ∧
      OnlyChanges { regs := [.a], flags := allFlags } s t) ∧
    ForEachOperand s 0b011 .sbbR .sbbM .sbi (fun i v => Completes i s fun t =>
      IsDifference s.params.subAc s.acc.toNat v.toNat s.flags.c.toNat t.acc t.flags ∧
      OnlyChanges { regs := [.a], flags := allFlags } s t)

/-- R154, R156: INR r and DCR r step a register by one and set S, Z, AC (decision D12), P; C stays. -/
def Obligations.RegisterStepsKeepTheCarry : Prop :=
  ∀ (s : State) (r : Reg),
    EncodedAs (.inrR r) [0b00#2 ++ r.code ++ 0b100#3] ∧ EncodedAs (.dcrR r) [0b00#2 ++ r.code ++ 0b101#3] ∧
    (Completes (.inrR r) s fun t =>
      (∃ c, IsSum (s.reg r).toNat 1 0 (t.reg r) { t.flags with c := c }) ∧ t.flags.c = s.flags.c ∧
      OnlyChanges { regs := [r], flags := flagsButCarry } s t) ∧
    Completes (.dcrR r) s fun t =>
      (∃ c, IsDifference s.params.subAc (s.reg r).toNat 1 0 (t.reg r) { t.flags with c := c }) ∧
      t.flags.c = s.flags.c ∧ OnlyChanges { regs := [r], flags := flagsButCarry } s t

/-- R155, R157: INR M and DCR M step the byte at HL by one and set S, Z, AC (decision D12), P; C stays; a bad address
faults. -/
def Obligations.MemoryStepsKeepTheCarry : Prop :=
  ∀ s : State, Invariant s →
    let hl := pairNat s .hl
    EncodedAs .inrM [0b00110100] ∧ EncodedAs .dcrM [0b00110101] ∧
    (hl < memSize →
      (Completes .inrM s fun t =>
        (∃ c, IsSum (byteAt s hl).toNat 1 0 (byteAt t hl) { t.flags with c := c }) ∧
        OnlyChanges { mem := [hl], flags := flagsButCarry } s t) ∧
      Completes .dcrM s fun t =>
        (∃ c, IsDifference s.params.subAc (byteAt s hl).toNat 1 0 (byteAt t hl) { t.flags with c := c }) ∧
        OnlyChanges { mem := [hl], flags := flagsButCarry } s t) ∧
    (memSize ≤ hl → Raises .inrM s (.outOfRange hl) ∧ Raises .dcrM s (.outOfRange hl))

/-- R158, R159: INX and DCX step a pair mod 65536, SP mod 16384 (decision D7), and write no flag (decision D14). -/
def Obligations.PairStepsWriteNoFlag : Prop :=
  ∀ (s : State) (p : Pair), Invariant s →
    EncodedAs (.inx p) [0b00#2 ++ p.code ++ 0b0011#4] ∧ EncodedAs (.dcx p) [0b00#2 ++ p.code ++ 0b1011#4] ∧
    (Completes (.inx p) s fun t =>
      (t.pair p).toNat = ((s.pair p).toNat + 1) % (if p = .sp then memSize else 65536) ∧
      OnlyChanges { regs := regsOf p, sp := decide (p = .sp) } s t) ∧
    Completes (.dcx p) s fun t =>
      ((t.pair p).toNat : Int) = (((s.pair p).toNat : Int) - 1) % (if p = .sp then (memSize : Int) else 65536) ∧
      OnlyChanges { regs := regsOf p, sp := decide (p = .sp) } s t

/-- R160: DAD adds a pair to HL and writes C and no other flag (decision D14). -/
def Obligations.DadAddsAPairToHl : Prop :=
  ∀ (s : State) (p : Pair),
    EncodedAs (.dad p) [0b00#2 ++ p.code ++ 0b1001#4] ∧
    Completes (.dad p) s fun t =>
      (t.pair .hl).toNat = ((s.pair .hl).toNat + (s.pair p).toNat) % 65536 ∧
      (t.flags.c = true ↔ 65535 < (s.pair .hl).toNat + (s.pair p).toNat) ∧
      OnlyChanges { regs := [.h, .l], flags := [.c] } s t

/-- R161: DAA's two steps. The first adds 6 and gives AC; the second tests the byte it left and the carry DAA began
with, adds 0x60 and gives C; S, Z, P come from the final A (decision D13). -/
def Obligations.DaaAdjustsInTwoSteps : Prop :=
  ∀ s : State,
    let a := s.acc.toNat
    let low := 9 < a % 16 ∨ s.flags.ac = true
    EncodedAs .daa [0b00100111] ∧
    Completes .daa s fun t =>
      (∃ b : Nat,
        (low → b = (a + 6) % 256 ∧ (t.flags.ac = true ↔ 9 < a % 16)) ∧
        (¬ low → b = a ∧ t.flags.ac = false) ∧
        (9 < b / 16 ∨ s.flags.c = true → t.acc.toNat = (b + 96) % 256 ∧ (t.flags.c = true ↔ 160 ≤ b)) ∧
        (¬ (9 < b / 16 ∨ s.flags.c = true) → t.acc.toNat = b ∧ t.flags.c = false)) ∧
      ResultFlags t.acc t.flags ∧ OnlyChanges { regs := [.a], flags := allFlags } s t

/-! ### Logical, compare, rotate, carry -/

/-- R180 to R189: AND, exclusive or, or of A with the operand, bit by bit; AC and C are cleared for all three, S, Z, P
from the result. -/
def Obligations.LogicalOperationsClearTheCarries : Prop :=
  ∀ s : State,
    ForEachOperand s 0b100 .anaR .anaM .ani (fun i v => Completes i s fun t =>
      (∀ k : Fin 8, t.acc.getLsbD k = (s.acc.getLsbD k && v.getLsbD k)) ∧ IsLogic t.acc t.flags ∧
      OnlyChanges { regs := [.a], flags := allFlags } s t) ∧
    ForEachOperand s 0b101 .xraR .xraM .xri (fun i v => Completes i s fun t =>
      (∀ k : Fin 8, t.acc.getLsbD k = (s.acc.getLsbD k != v.getLsbD k)) ∧ IsLogic t.acc t.flags ∧
      OnlyChanges { regs := [.a], flags := allFlags } s t) ∧
    ForEachOperand s 0b110 .oraR .oraM .ori (fun i v => Completes i s fun t =>
      (∀ k : Fin 8, t.acc.getLsbD k = (s.acc.getLsbD k || v.getLsbD k)) ∧ IsLogic t.acc t.flags ∧
      OnlyChanges { regs := [.a], flags := allFlags } s t)

/-- R190 to R192: a compare leaves A and gives the flags of the subtraction: Z exactly when equal, C exactly when A is
below; AC by decision D12. -/
def Obligations.ComparesKeepTheAccumulator : Prop :=
  ∀ s : State,
    ForEachOperand s 0b111 .cmpR .cmpM .cpi (fun i v => Completes i s fun t =>
      (∃ r, IsDifference s.params.subAc s.acc.toNat v.toNat 0 r t.flags) ∧
      (t.flags.z = true ↔ s.acc = v) ∧ (t.flags.c = true ↔ s.acc.toNat < v.toNat) ∧
      OnlyChanges { flags := allFlags } s t)

/-- R193 to R196: the four rotates of A. That they leave S, Z, AC and P is decision D14 (log 10). -/
def Obligations.RotatesWriteOnlyTheCarry : Prop :=
  ∀ s : State,
    let a := s.acc.toNat
    EncodedAs .rlc [0b00000111] ∧ EncodedAs .rrc [0b00001111] ∧ EncodedAs .ral [0b00010111] ∧
    EncodedAs .rar [0b00011111] ∧
    (Completes .rlc s fun t => t.acc.toNat = 2 * a % 256 + a / 128 ∧ (t.flags.c = true ↔ 128 ≤ a) ∧
      OnlyChanges { regs := [.a], flags := [.c] } s t) ∧
    (Completes .rrc s fun t => t.acc.toNat = a / 2 + 128 * (a % 2) ∧ (t.flags.c = true ↔ a % 2 = 1) ∧
      OnlyChanges { regs := [.a], flags := [.c] } s t) ∧
    (Completes .ral s fun t => t.acc.toNat = 2 * a % 256 + s.flags.c.toNat ∧ (t.flags.c = true ↔ 128 ≤ a) ∧
      OnlyChanges { regs := [.a], flags := [.c] } s t) ∧
    Completes .rar s fun t => t.acc.toNat = a / 2 + 128 * s.flags.c.toNat ∧ (t.flags.c = true ↔ a % 2 = 1) ∧
      OnlyChanges { regs := [.a], flags := [.c] } s t

/-- R197 to R199: CMA inverts A and writes no flag; CMC complements C and STC sets it, and nothing else (decision D14).
-/
def Obligations.ComplementAndCarryInstructions : Prop :=
  ∀ s : State,
    EncodedAs .cma [0b00101111] ∧ EncodedAs .cmc [0b00111111] ∧ EncodedAs .stc [0b00110111] ∧
    (Completes .cma s fun t => t.acc.toNat = 255 - s.acc.toNat ∧ OnlyChanges { regs := [.a] } s t) ∧
    (Completes .cmc s fun t => t.flags.c = !s.flags.c ∧ OnlyChanges { flags := [.c] } s t) ∧
    Completes .stc s fun t => t.flags.c = true ∧ OnlyChanges { flags := [.c] } s t

/-! ### Control transfer -/

/-- R211, R218: JMP and PCHL set pc to the target mod 16384 and change nothing else; no target faults. The operand's low
byte comes first by decision D17. PCHL is marked as general knowledge (R218). -/
def Obligations.JumpsWrapTheTarget : Prop :=
  ∀ (s : State) (lo hi : Byte),
    EncodedAs (.jmp (hi ++ lo)) [0b11000011, lo, hi] ∧ EncodedAs .pchl [0b11101001] ∧
    (Completes (.jmp (hi ++ lo)) s fun t =>
      t.pc.toNat = (256 * hi.toNat + lo.toNat) % memSize ∧ OnlyChanges { pc := true } s t) ∧
    Completes .pchl s fun t => t.pc.toNat = pairNat s .hl % memSize ∧ OnlyChanges { pc := true } s t

/-- R210, R212: JNZ, JZ, JNC, JC, JPO, JPE, JP, JM go to the target mod 16384 when the condition holds, and otherwise
change nothing; the operand, low byte first (decision D17), is fetched all the same, so that pc ends 3 past the opcode.
That an empty schedule fetches and that a move is taken off it is the model's choice (log 8). -/
def Obligations.ConditionalJumpsTestOneFlag : Prop :=
  ∀ (s : State) (k : Cond) (lo hi : Byte),
    EncodedAs (jumpOn k (hi ++ lo)) [0b11#2 ++ k.code ++ 0b010#3, lo, hi] ∧
    (condTrue k s.flags → Completes (jumpOn k (hi ++ lo)) s fun t =>
      t.pc.toNat = (256 * hi.toNat + lo.toNat) % memSize ∧ OnlyChanges { pc := true } s t) ∧
    (¬ condTrue k s.flags → exec (jumpOn k (hi ++ lo)) s = .next s) ∧
    (Invariant s → Running s → s.schedule = [] ∨ s.schedule.head? = some .runCycle →
      bytesFrom s s.pc.toNat 3 = [0b11#2 ++ k.code ++ 0b010#3, lo, hi] → ¬ condTrue k s.flags →
      step s = .next (afterFetch s 3))

/-- R213, R217: CALL and RST push pc, which is past the instruction's own bytes, and go to the target, low byte first
(decision D17); with sp 0 or 1 they fault at address -1 (decision D8). -/
def Obligations.CallsPushTheReturnAddress : Prop :=
  ∀ (s : State) (lo hi : Byte) (n : BitVec 3), Invariant s →
    EncodedAs (.call (hi ++ lo)) [0b11001101, lo, hi] ∧ EncodedAs (.rst n) [0b11#2 ++ n ++ 0b111#3] ∧
    (2 ≤ s.sp.toNat →
      (Completes (.call (hi ++ lo)) s fun t =>
        t.pc.toNat = (256 * hi.toNat + lo.toNat) % memSize ∧ Pushed s.pc s t ∧
        OnlyChanges { pc := true, sp := true, mem := pushedBytes s } s t) ∧
      Completes (.rst n) s fun t =>
        t.pc.toNat = 8 * n.toNat ∧ Pushed s.pc s t ∧
        OnlyChanges { pc := true, sp := true, mem := pushedBytes s } s t) ∧
    (s.sp.toNat < 2 → Raises (.call (hi ++ lo)) s (.outOfRange (-1)) ∧ Raises (.rst n) s (.outOfRange (-1)))

/-- R214: CNZ, CZ, CNC, CC, CPO, CPE, CP, CM call when the condition holds, faulting as CALL does, and otherwise change
nothing. That a push at sp 0 or 1 faults is decision D8, the operand's byte order decision D17. -/
def Obligations.ConditionalCallsPushOnlyWhenTaken : Prop :=
  ∀ (s : State) (k : Cond) (lo hi : Byte), Invariant s →
    EncodedAs (callOn k (hi ++ lo)) [0b11#2 ++ k.code ++ 0b100#3, lo, hi] ∧
    (condTrue k s.flags → 2 ≤ s.sp.toNat → Completes (callOn k (hi ++ lo)) s fun t =>
      t.pc.toNat = (256 * hi.toNat + lo.toNat) % memSize ∧ Pushed s.pc s t ∧
      OnlyChanges { pc := true, sp := true, mem := pushedBytes s } s t) ∧
    (condTrue k s.flags → s.sp.toNat < 2 → Raises (callOn k (hi ++ lo)) s (.outOfRange (-1))) ∧
    (¬ condTrue k s.flags → exec (callOn k (hi ++ lo)) s = .next s)

/-- R215: RET pops pc, mod 16384; with sp 16383 it faults at address 16384. -/
def Obligations.ReturnPopsThePc : Prop :=
  ∀ s : State, Invariant s →
    EncodedAs .ret [0b11001001] ∧
    (s.sp.toNat + 1 < memSize → Completes .ret s fun t =>
      t.pc.toNat = wordAtSp s % memSize ∧ Popped s t ∧ OnlyChanges { pc := true, sp := true } s t) ∧
    (s.sp.toNat + 1 = memSize → Raises .ret s (.outOfRange memSize))

/-- R216: RNZ, RZ, RNC, RC, RPO, RPE, RP, RM return when the condition holds, faulting as RET does, and otherwise change
nothing: pc ends 1 past the opcode. That an empty schedule fetches and that a move is taken off it is the model's choice
(log 8). -/
def Obligations.ConditionalReturnsPopOnlyWhenTaken : Prop :=
  ∀ (s : State) (k : Cond), Invariant s →
    EncodedAs (returnOn k) [0b11#2 ++ k.code ++ 0b000#3] ∧
    (condTrue k s.flags → s.sp.toNat + 1 < memSize → Completes (returnOn k) s fun t =>
      t.pc.toNat = wordAtSp s % memSize ∧ Popped s t ∧ OnlyChanges { pc := true, sp := true } s t) ∧
    (condTrue k s.flags → s.sp.toNat + 1 = memSize → Raises (returnOn k) s (.outOfRange memSize)) ∧
    (¬ condTrue k s.flags → exec (returnOn k) s = .next s) ∧
    (Running s → s.schedule = [] ∨ s.schedule.head? = some .runCycle →
      byteAt s s.pc.toNat = 0b11#2 ++ k.code ++ 0b000#3 → ¬ condTrue k s.flags → step s = .next (afterFetch s 1))

/-- CALL then RET returns to the instruction after the CALL, provided the routine leaves sp and the two stacked bytes as
it found them. -/
def Obligations.ReturnUndoesCall : Prop :=
  ∀ (s t u : State) (a : Word), Invariant s → exec (.call a) s = .next t →
    u.sp = t.sp → byteAt u (s.sp.toNat - 1) = byteAt t (s.sp.toNat - 1) →
    byteAt u (s.sp.toNat - 2) = byteAt t (s.sp.toNat - 2) →
    Completes .ret u fun v => v.pc = s.pc ∧ v.sp = s.sp ∧ OnlyChanges { pc := true, sp := true } u v

/-! ### Stack -/

/-- R240, R242, R244: PUSH puts the pair, or A and the status byte, on the stack; with sp 0 or 1 it faults at address -1
(decision D8). That PUSH SP raises InvalidRegister(3) rests on R242 and R95, an inference the spec marks as its own, and
on log 13. -/
def Obligations.PushesStoreHighByteAbove : Prop :=
  ∀ (s : State) (p : Pair), Invariant s →
    (p ≠ .sp → EncodedAs (.push p) [0b11#2 ++ p.code ++ 0b0101#4] ∧
      (2 ≤ s.sp.toNat → Completes (.push p) s fun t =>
        Pushed (s.pair p) s t ∧ OnlyChanges { sp := true, mem := pushedBytes s } s t) ∧
      (s.sp.toNat < 2 → Raises (.push p) s (.outOfRange (-1)))) ∧
    Raises (.push .sp) s (.invalidRegister 3) ∧
    EncodedAs .pushPsw [0b11110101] ∧
    (2 ≤ s.sp.toNat → Completes .pushPsw s fun t =>
      t.sp.toNat = s.sp.toNat - 2 ∧ byteAt t (s.sp.toNat - 1) = s.acc ∧
      FlagBits s.params.pswLayout (byteAt t (s.sp.toNat - 2)) s.flags ∧
      byteAt t (s.sp.toNat - 2) &&& ~~~ pswMask s.params.pswLayout = 0 ∧
      OnlyChanges { sp := true, mem := pushedBytes s } s t) ∧
    (s.sp.toNat < 2 → Raises .pushPsw s (.outOfRange (-1)))

/-- R241, R243, R245: POP takes a pair, or A and the flags, from the stack; with sp 16383 it faults at address 16384.
That POP SP raises InvalidRegister(3) rests on R242, R243 and R95, an inference the spec marks as its own, and on log
13. -/
def Obligations.PopsLoadLowByteBelow : Prop :=
  ∀ (s : State) (p : Pair), Invariant s →
    (p ≠ .sp → EncodedAs (.pop p) [0b11#2 ++ p.code ++ 0b0001#4] ∧
      (s.sp.toNat + 1 < memSize → Completes (.pop p) s fun t =>
        (t.pair p).toNat = wordAtSp s ∧ Popped s t ∧ OnlyChanges { regs := regsOf p, sp := true } s t) ∧
      (s.sp.toNat + 1 = memSize → Raises (.pop p) s (.outOfRange memSize))) ∧
    Raises (.pop .sp) s (.invalidRegister 3) ∧
    EncodedAs .popPsw [0b11110001] ∧
    (s.sp.toNat + 1 < memSize → Completes .popPsw s fun t =>
      t.acc = byteAt s (s.sp.toNat + 1) ∧ FlagBits s.params.pswLayout (byteAt s s.sp.toNat) t.flags ∧ Popped s t ∧
      OnlyChanges { regs := [.a], flags := allFlags, sp := true } s t) ∧
    (s.sp.toNat + 1 = memSize → Raises .popPsw s (.outOfRange memSize))

/-- R246, R247: XTHL exchanges HL with the word at sp and leaves sp, faulting before anything is written when sp is
16383; SPHL copies HL to sp, mod 16384 (decision D7). -/
def Obligations.HlAndStackExchange : Prop :=
  ∀ s : State, Invariant s →
    EncodedAs .xthl [0b11100011] ∧ EncodedAs .sphl [0b11111001] ∧
    (s.sp.toNat + 1 < memSize → Completes .xthl s fun t =>
      t.reg .l = byteAt s s.sp.toNat ∧ t.reg .h = byteAt s (s.sp.toNat + 1) ∧
      byteAt t s.sp.toNat = s.reg .l ∧ byteAt t (s.sp.toNat + 1) = s.reg .h ∧
      OnlyChanges { regs := [.h, .l], mem := [s.sp.toNat, s.sp.toNat + 1] } s t) ∧
    (s.sp.toNat + 1 = memSize → Raises .xthl s (.outOfRange memSize)) ∧
    Completes .sphl s fun t => t.sp.toNat = pairNat s .hl % memSize ∧ OnlyChanges { sp := true } s t

/-- R248, whose detail the spec marks as its own inference: for sp at least 2, PUSH then POP leaves the pair, sp and
every flag as before and writes the two bytes below the old sp; to another pair it copies; PUSH PSW then POP PSW
restores A and all flags under either layout. -/
def Obligations.PopUndoesPush : Prop :=
  ∀ (s : State) (p q : Pair), Invariant s → 2 ≤ s.sp.toNat → p ≠ .sp → q ≠ .sp →
    (∃ t, exec (.push p) s = .next t ∧ Completes (.pop q) t fun u =>
      u.pair q = s.pair p ∧ OnlyChanges { regs := regsOf q, mem := pushedBytes s } s u) ∧
    ∃ t, exec .pushPsw s = .next t ∧ Completes .popPsw t fun u => OnlyChanges { mem := pushedBytes s } s u

/-! ### Input, output, machine control -/

/-- R260, R270: IN 0 to 2 read an input latch, IN 3 the shift window, and a higher port faults (decision D9); A is all
that changes. -/
def Obligations.InputReadsLatchesAndShiftWindow : Prop :=
  ∀ (s : State) (port : Byte),
    EncodedAs (.inPort port) [0b11011011, port] ∧
    (∀ k : Fin numReadLatches, k ≠ 3 → port.toNat = k.val → Completes (.inPort port) s fun t =>
      t.acc = s.io.rb[k] ∧ OnlyChanges { regs := [.a] } s t) ∧
    (port.toNat = 3 → Completes (.inPort port) s fun t =>
      t.acc.toNat = s.io.sr.toNat / 2 ^ (8 - s.io.w[2].toNat % 8) % 256 ∧ OnlyChanges { regs := [.a] } s t) ∧
    (3 < port.toNat → Raises (.inPort port) s (.invalidPort port))

/-- R261, R271: OUT writes A to one output latch; port 4 also shifts A into SR from the high end, mod SHIFT_MODULUS; a
port above 6 faults (decision D9); nothing else changes. -/
def Obligations.OutputLatchesAndShifts : Prop :=
  ∀ (s : State) (port : Byte),
    EncodedAs (.outPort port) [0b11010011, port] ∧
    (∀ k : Fin numWriteLatches, port.toNat = k.val → Completes (.outPort port) s fun t =>
      t.io.w[k] = s.acc ∧
      (port.toNat = 4 →
        t.io.sr.toNat = (256 * s.acc.toNat + s.io.sr.toNat / 256) % modulusOf s.params.shiftModulus) ∧
      OnlyChanges { latches := [port.toNat], shift := decide (port.toNat = 4) } s t) ∧
    (6 < port.toNat → Raises (.outPort port) s (.invalidPort port))

/-- R270, R271 and law (h) of spec/95_test_vectors.md, which the spec marks as its own inference, as it does R274's
detail: two bytes written to port 4 fill SR, last byte high, and port 3 gives the window at the offset in port 2's
latch. Under SHIFT_MODULUS 65535 (decision D6) SR is that only when the first byte is not 0xFF; the general formula
holds always. 0xAA then 0xFF give 0xFFAA, and 0xFE at offset 2, under either. -/
def Obligations.ShiftRegisterHoldsTheLastTwoBytes : Prop :=
  ∀ (s : State) (lo hi v : Byte),
    let m := modulusOf s.params.shiftModulus
    let k := v.toNat % 8
    ∃ t u w, exec (.outPort 4) (s.setAcc lo) = .next t ∧ exec (.outPort 4) (t.setAcc hi) = .next u ∧
      exec (.outPort 2) (u.setAcc v) = .next w ∧
      u.io.sr.toNat = (256 * hi.toNat + (256 * lo.toNat + s.io.sr.toNat / 256) % m / 256) % m ∧
      (m = 65536 ∨ lo ≠ 0xFF → u.io.sr = hi ++ lo) ∧
      (hi = 0xFF → lo = 0xAA → u.io.sr = 0xFFAA) ∧
      Completes (.inPort 3) w fun x =>
        x.acc.toNat = u.io.sr.toNat / 2 ^ (8 - k) % 256 ∧
        (m = 65536 ∨ lo ≠ 0xFF → x.acc.toNat = (hi.toNat * 2 ^ k + lo.toNat / 2 ^ (8 - k)) % 256) ∧
        (hi = 0xFF → lo = 0xAA → k = 2 → x.acc = 0xFE)

/-- R262: HLT sets `halted` and changes nothing else. Fetched, pc has passed the HLT byte; injected, pc has not moved;
the call returns the halt signal and no step follows, fetched or injected (decision D11). That the outcome Halt is a
next state with `halted` set, the signal told by `runCycleResult`, is the model's reading (log 12), and that the move is
taken off the schedule is its choice (log 8). -/
def Obligations.HaltIsTerminal : Prop :=
  EncodedAs .hlt [0b01110110] ∧
  (∀ s : State, Completes .hlt s fun t => t.halted = true ∧ OnlyChanges { halted := true } s t) ∧
  ∀ (s : State) (n : Nat), Invariant s → Running s →
    (((s.schedule = [] ∨ s.schedule.head? = some .runCycle) ∧ byteAt s s.pc.toNat = 0x76 ∧ n = 1) ∨
      (s.schedule.head? = some (.inject 0x76) ∧ n = 0)) →
    ∃ t, step s = .next t ∧ t.halted = true ∧ OnlyChanges { halted := true } (afterFetch s n) t ∧
      runCycleResult (if n = 1 then none else some 0x76) s = .halt { t with schedule := s.schedule } ∧
      ∀ m, step (withSchedule m t) = .refused .coreHalted

/-- R263, R266, R267: NOP (general knowledge, R263), EI and DI change nothing: only the fetch moves pc. -/
def Obligations.NopAndInterruptControlChangeNothing : Prop :=
  ∀ s : State, EncodedAs .nop [0b00000000] ∧ EncodedAs .ei [0b11111011] ∧ EncodedAs .di [0b11110011] ∧
    exec .nop s = .next s ∧ exec .ei s = .next s ∧ exec .di s = .next s

/-! ### Timing -/

/-- R322, R352 (decision D16; log 6): every count is positive; a conditional jump costs no less when taken, a
conditional call or return more; a completed call, fetched or injected, returns the count of its opcode, as taken
exactly when it is a conditional form whose condition holds, and HLT alone the halt signal, with a next state that has
`halted` set (log 12). -/
def Obligations.CycleCountsArePositiveAndOrdered : Prop :=
  (∀ op taken, 0 < cycles op taken) ∧
  (∀ k a, cycles (opcodeOf (jumpOn k a)) false ≤ cycles (opcodeOf (jumpOn k a)) true ∧
    cycles (opcodeOf (callOn k a)) false < cycles (opcodeOf (callOn k a)) true ∧
    cycles (opcodeOf (returnOn k)) false < cycles (opcodeOf (returnOn k)) true) ∧
  ∀ (s t : State) (injected : Option Byte), runCycle injected s = .next t →
    let op := injected.getD (byteAt s s.pc.toNat)
    (op = 0x76 → t.halted = true ∧ runCycleResult injected s = .halt t) ∧
    (op ≠ 0x76 → t.halted = false ∧
      ∃ taken : Bool, (taken = true ↔ ConditionMet op s.flags) ∧ runCycleResult injected s = .next t (cycles op taken))

/-! ### After a fault -/

/-- R38, R305 (a), (b) (decision D18): a step that faults sets `faulted` to its reason; no step follows, fetched or
injected, and the record stays; a step that completes leaves no fault recorded. Nothing is said of the rest of a faulted
state, which is unspecified (R305 (c), log 11). That no other move follows either is the model's choice (log 7). -/
def Obligations.FaultsAreRecordedAndEndTheRun : Prop :=
  ∀ s : State,
    (∀ f, step s = .fault f →
      (advance s).faulted = some f ∧ (advance s).halted = false ∧ advance (advance s) = advance s ∧
      ∀ (m : List Move) (injected : Option Byte),
        step (withSchedule m (advance s)) = .refused .coreFaulted ∧
        runCycle injected (withSchedule m (advance s)) = .refused .coreFaulted) ∧
    (∀ t, step s = .next t → advance s = t ∧ t.faulted = none)
end

