-- ==== Sys2Proof/Laws/State.lean ====
section
/-! SUPPORT. What each update of the state leaves in each field, so that no proof unfolds a record update. -/

namespace Sys2Proof.Machine

/-! ### Sequencing -/

@[simp] theorem ok_bind {α β : Type} (x : α) (f : α → Except Fault β) : ((.ok x : Except Fault α) >>= f) = f x := rfl
@[simp] theorem error_bind {α β : Type} (e : Fault) (f : α → Except Fault β) :
    ((.error e : Except Fault α) >>= f) = .error e := rfl
@[simp] theorem pure_eq_ok {α : Type} (x : α) : (pure x : Except Fault α) = .ok x := rfl
@[simp] theorem map_ok {α β : Type} (x : α) (f : α → β) : (Except.ok x : Except Fault α).map f = .ok (f x) := rfl
@[simp] theorem map_error {α β : Type} (e : Fault) (f : α → β) : (Except.error e : Except Fault α).map f = .error e := rfl
@[simp] theorem finish_ok (s : State) : finish (.ok s) = .next s := rfl
@[simp] theorem finish_error (f : Fault) : finish (.error f) = .fault f := rfl

theorem finish_next {x : Except Fault State} {t : State} : finish x = .next t ↔ x = .ok t := by
  cases x <;> simp [finish]

/-! ### The register file -/

@[simp] theorem Regs.get_set_same (x : Regs) (r : Reg) (v : Byte) : (x.set r v).get r = v := by cases r <;> rfl

theorem Regs.get_set_other (x : Regs) {r q : Reg} (v : Byte) (h : q ≠ r) : (x.set r v).get q = x.get q := by
  cases r <;> cases q <;> first | rfl | exact absurd rfl h

theorem Regs.get_set (x : Regs) (r q : Reg) (v : Byte) : (x.set r v).get q = if q = r then v else x.get q := by
  split
  · next h => rw [h, Regs.get_set_same]
  · next h => exact Regs.get_set_other x v h

/-! ### setReg -/

theorem State.reg_setReg (s : State) (r q : Reg) (v : Byte) : (s.setReg r v).reg q = if q = r then v else s.reg q :=
  Regs.get_set s.regs r q v

@[simp] theorem State.reg_setReg_same (s : State) (r : Reg) (v : Byte) : (s.setReg r v).reg r = v :=
  Regs.get_set_same s.regs r v

@[simp] theorem State.setReg_flags (s : State) (r : Reg) (v : Byte) : (s.setReg r v).flags = s.flags := rfl
@[simp] theorem State.setReg_pc (s : State) (r : Reg) (v : Byte) : (s.setReg r v).pc = s.pc := rfl
@[simp] theorem State.setReg_sp (s : State) (r : Reg) (v : Byte) : (s.setReg r v).sp = s.sp := rfl
@[simp] theorem State.setReg_mem (s : State) (r : Reg) (v : Byte) : (s.setReg r v).mem = s.mem := rfl
@[simp] theorem State.setReg_io (s : State) (r : Reg) (v : Byte) : (s.setReg r v).io = s.io := rfl
@[simp] theorem State.setReg_halted (s : State) (r : Reg) (v : Byte) : (s.setReg r v).halted = s.halted := rfl
@[simp] theorem State.setReg_faulted (s : State) (r : Reg) (v : Byte) : (s.setReg r v).faulted = s.faulted := rfl
@[simp] theorem State.setReg_params (s : State) (r : Reg) (v : Byte) : (s.setReg r v).params = s.params := rfl
@[simp] theorem State.setReg_schedule (s : State) (r : Reg) (v : Byte) : (s.setReg r v).schedule = s.schedule := rfl

/-! ### setAcc -/

@[simp] theorem State.acc_setAcc (s : State) (v : Byte) : (s.setAcc v).acc = v := rfl
@[simp] theorem State.setAcc_flags (s : State) (v : Byte) : (s.setAcc v).flags = s.flags := rfl
@[simp] theorem State.setAcc_pc (s : State) (v : Byte) : (s.setAcc v).pc = s.pc := rfl
@[simp] theorem State.setAcc_sp (s : State) (v : Byte) : (s.setAcc v).sp = s.sp := rfl
@[simp] theorem State.setAcc_mem (s : State) (v : Byte) : (s.setAcc v).mem = s.mem := rfl
@[simp] theorem State.setAcc_io (s : State) (v : Byte) : (s.setAcc v).io = s.io := rfl
@[simp] theorem State.setAcc_halted (s : State) (v : Byte) : (s.setAcc v).halted = s.halted := rfl
@[simp] theorem State.setAcc_faulted (s : State) (v : Byte) : (s.setAcc v).faulted = s.faulted := rfl
@[simp] theorem State.setAcc_params (s : State) (v : Byte) : (s.setAcc v).params = s.params := rfl
@[simp] theorem State.setAcc_schedule (s : State) (v : Byte) : (s.setAcc v).schedule = s.schedule := rfl

/-! ### setFlags -/

@[simp] theorem State.setFlags_flags (s : State) (f : Flags) : (s.setFlags f).flags = f := rfl
@[simp] theorem State.setFlags_reg (s : State) (f : Flags) (r : Reg) : (s.setFlags f).reg r = s.reg r := rfl
@[simp] theorem State.setFlags_acc (s : State) (f : Flags) : (s.setFlags f).acc = s.acc := rfl
@[simp] theorem State.setFlags_pc (s : State) (f : Flags) : (s.setFlags f).pc = s.pc := rfl
@[simp] theorem State.setFlags_sp (s : State) (f : Flags) : (s.setFlags f).sp = s.sp := rfl
@[simp] theorem State.setFlags_mem (s : State) (f : Flags) : (s.setFlags f).mem = s.mem := rfl
@[simp] theorem State.setFlags_io (s : State) (f : Flags) : (s.setFlags f).io = s.io := rfl
@[simp] theorem State.setFlags_halted (s : State) (f : Flags) : (s.setFlags f).halted = s.halted := rfl
@[simp] theorem State.setFlags_faulted (s : State) (f : Flags) : (s.setFlags f).faulted = s.faulted := rfl
@[simp] theorem State.setFlags_params (s : State) (f : Flags) : (s.setFlags f).params = s.params := rfl
@[simp] theorem State.setFlags_schedule (s : State) (f : Flags) : (s.setFlags f).schedule = s.schedule := rfl

/-! ### recordFault: nothing is said of what it leaves free (R305 (c)) -/

@[simp] theorem State.recordFault_faulted (s : State) (f : Fault) : (s.recordFault f).faulted = some f := rfl
@[simp] theorem State.recordFault_halted (s : State) (f : Fault) : (s.recordFault f).halted = s.halted := rfl
@[simp] theorem State.recordFault_params (s : State) (f : Fault) : (s.recordFault f).params = s.params := rfl
@[simp] theorem State.recordFault_schedule (s : State) (f : Fault) : (s.recordFault f).schedule = s.schedule := rfl

/-! ### setPc and setSp -/

@[simp] theorem State.setPc_pc (s : State) (v : Word) : (s.setPc v).pc = wrapAddr v := rfl
@[simp] theorem State.setPc_reg (s : State) (v : Word) (r : Reg) : (s.setPc v).reg r = s.reg r := rfl
@[simp] theorem State.setPc_flags (s : State) (v : Word) : (s.setPc v).flags = s.flags := rfl
@[simp] theorem State.setPc_sp (s : State) (v : Word) : (s.setPc v).sp = s.sp := rfl
@[simp] theorem State.setPc_mem (s : State) (v : Word) : (s.setPc v).mem = s.mem := rfl
@[simp] theorem State.setPc_io (s : State) (v : Word) : (s.setPc v).io = s.io := rfl
@[simp] theorem State.setPc_halted (s : State) (v : Word) : (s.setPc v).halted = s.halted := rfl
@[simp] theorem State.setPc_faulted (s : State) (v : Word) : (s.setPc v).faulted = s.faulted := rfl
@[simp] theorem State.setPc_params (s : State) (v : Word) : (s.setPc v).params = s.params := rfl
@[simp] theorem State.setPc_schedule (s : State) (v : Word) : (s.setPc v).schedule = s.schedule := rfl

@[simp] theorem State.setSp_sp (s : State) (v : Word) : (s.setSp v).sp = wrapAddr v := rfl
@[simp] theorem State.setSp_reg (s : State) (v : Word) (r : Reg) : (s.setSp v).reg r = s.reg r := rfl
@[simp] theorem State.setSp_flags (s : State) (v : Word) : (s.setSp v).flags = s.flags := rfl
@[simp] theorem State.setSp_pc (s : State) (v : Word) : (s.setSp v).pc = s.pc := rfl
@[simp] theorem State.setSp_mem (s : State) (v : Word) : (s.setSp v).mem = s.mem := rfl
@[simp] theorem State.setSp_io (s : State) (v : Word) : (s.setSp v).io = s.io := rfl
@[simp] theorem State.setSp_halted (s : State) (v : Word) : (s.setSp v).halted = s.halted := rfl
@[simp] theorem State.setSp_faulted (s : State) (v : Word) : (s.setSp v).faulted = s.faulted := rfl
@[simp] theorem State.setSp_params (s : State) (v : Word) : (s.setSp v).params = s.params := rfl
@[simp] theorem State.setSp_schedule (s : State) (v : Word) : (s.setSp v).schedule = s.schedule := rfl

/-! ### dropMove -/

@[simp] theorem State.dropMove_pc (s : State) : s.dropMove.pc = s.pc := rfl
@[simp] theorem State.dropMove_sp (s : State) : s.dropMove.sp = s.sp := rfl
@[simp] theorem State.dropMove_mem (s : State) : s.dropMove.mem = s.mem := rfl
@[simp] theorem State.dropMove_io (s : State) : s.dropMove.io = s.io := rfl
@[simp] theorem State.dropMove_halted (s : State) : s.dropMove.halted = s.halted := rfl
@[simp] theorem State.dropMove_faulted (s : State) : s.dropMove.faulted = s.faulted := rfl
@[simp] theorem State.dropMove_schedule (s : State) : s.dropMove.schedule = s.schedule.tail := rfl

/-! ### Wrapping and joining -/

theorem wrapAddr_toNat (v : Word) : (wrapAddr v).toNat = v.toNat % memSize := by
  simp [wrapAddr, BitVec.toNat_umod]

theorem wrapAddr_lt (v : Word) : (wrapAddr v).toNat < memSize := by
  rw [wrapAddr_toNat]; exact Nat.mod_lt _ (by decide)

theorem wrapAddr_of_lt {v : Word} (h : v.toNat < memSize) : wrapAddr v = v := by
  apply BitVec.eq_of_toNat_eq; rw [wrapAddr_toNat, Nat.mod_eq_of_lt h]

theorem joinBytes_toNat (hi lo : Byte) : (joinBytes hi lo).toNat = 256 * hi.toNat + lo.toNat := by
  have := lo.isLt
  simp only [joinBytes, BitVec.toNat_append, Nat.shiftLeft_eq]
  rw [Nat.mul_comm, ← Nat.two_pow_add_eq_or_of_lt this]

theorem hiByte_toNat (v : Word) : (hiByte v).toNat = v.toNat / 256 := by
  have := v.isLt
  simp only [hiByte, BitVec.extractLsb'_toNat, Nat.shiftRight_eq_div_pow]
  omega

theorem loByte_toNat (v : Word) : (loByte v).toNat = v.toNat % 256 := by
  simp [loByte, BitVec.extractLsb'_toNat]

@[simp] theorem hiByte_joinBytes (hi lo : Byte) : hiByte (joinBytes hi lo) = hi := by
  apply BitVec.eq_of_toNat_eq
  have := lo.isLt
  rw [hiByte_toNat, joinBytes_toNat]; omega

@[simp] theorem loByte_joinBytes (hi lo : Byte) : loByte (joinBytes hi lo) = lo := by
  apply BitVec.eq_of_toNat_eq
  have := lo.isLt
  rw [loByte_toNat, joinBytes_toNat]; omega

@[simp] theorem joinBytes_hi_lo (v : Word) : joinBytes (hiByte v) (loByte v) = v := by
  apply BitVec.eq_of_toNat_eq
  rw [joinBytes_toNat, hiByte_toNat, loByte_toNat]; omega

end Sys2Proof.Machine
end

