-- ==== Sys2Proof/Laws/Alu.lean ====
section
/-! SUPPORT. The ALU primitives answer what the spec's whole-number rules say (spec/41_arithmetic.md rules R140 and R141,
spec/42_logical.md rule R180), and the status byte is a view of the flags (spec/10_state.md rules R33 and R34). -/

namespace Sys2Proof.Safety

open Machine

theorem parity_iff (v : Byte) : parity v = true ↔ onesIn v % 2 = 0 := by
  revert v; decide

theorem flagsOf_result (r : Byte) (ac c : Bool) : ResultFlags r (flagsOf r ac c) := by
  refine ⟨?_, ?_, parity_iff r⟩
  · show r.getLsbD 7 = true ↔ 128 ≤ r.toNat
    clear ac c; revert r; decide
  · simp [flagsOf, BitVec.toNat_eq]

theorem toNat_bool_lt (b : Bool) : b.toNat ≤ 1 := by cases b <;> decide

theorem add8_sum (a b : Byte) (cin : Bool) :
    IsSum a.toNat b.toNat cin.toNat (add8 a b cin).result (add8 a b cin).flags := by
  refine ⟨by simp [add8], flagsOf_result _ _ _, ?_, ?_⟩
  · simp [add8, flagsOf]
  · simp [add8, flagsOf]

theorem subAuxCarry_iff (m : SubAc) (a b : Byte) (bin : Bool) :
    subAuxCarry m a b bin = true ↔ SubAuxCarry m a.toNat b.toNat bin.toNat := by
  have ha := a.isLt
  have hb := b.isLt
  have hbin := toNat_bool_lt bin
  cases m with
  | intel => simp only [subAuxCarry, SubAuxCarry, decide_eq_true_eq]; omega
  | negate =>
    simp only [subAuxCarry, SubAuxCarry, decide_eq_true_eq]
    have hn : (-(b + BitVec.ofNat 8 bin.toNat) : Byte).toNat = (256 - (b.toNat + bin.toNat) % 256) % 256 := by
      rw [BitVec.toNat_neg, BitVec.toNat_add, BitVec.toNat_ofNat]
      omega
    rw [hn]
    omega

theorem sub8_difference (m : SubAc) (a b : Byte) (bin : Bool) :
    IsDifference m a.toNat b.toNat bin.toNat (sub8 m a b bin).result (sub8 m a b bin).flags := by
  have ha := a.isLt
  have hb := b.isLt
  have hbin := toNat_bool_lt bin
  refine ⟨?_, flagsOf_result _ _ _, subAuxCarry_iff m a b bin, ?_⟩
  · have hr : (a - b - BitVec.ofNat 8 bin.toNat : Byte).toNat
        = (256 - bin.toNat + (256 - b.toNat + a.toNat) % 256) % 256 := by
      rw [BitVec.toNat_sub, BitVec.toNat_sub, BitVec.toNat_ofNat]
      omega
    show (((a - b - BitVec.ofNat 8 bin.toNat : Byte).toNat : Nat) : Int) = _
    rw [hr]
    omega
  · simp [sub8, flagsOf]

theorem logic8_flags (r : Byte) : IsLogic (logic8 r).result (logic8 r).flags :=
  ⟨flagsOf_result r false false, rfl, rfl⟩

theorem holds_iff (k : Cond) (f : Flags) : f.holds k = true ↔ condTrue k f := by
  cases k <;> simp [Flags.holds, condTrue, Cond.code]

theorem psw_bits (m : PswLayout) (f : Flags) : FlagBits m (psw m f) f := by
  obtain ⟨s, z, ac, p, c⟩ := f
  revert m s z ac p c
  intro m
  cases m <;> simp only [FlagBits] <;> decide

theorem flagsOfPsw_bits (m : PswLayout) (v : Byte) : FlagBits m v (flagsOfPsw m v) := by
  cases m <;> simp [FlagBits, flagsOfPsw]

/-- The flag bits of a byte determine the flags. -/
theorem FlagBits.unique {m : PswLayout} {v : Byte} {f g : Flags} (hf : FlagBits m v f) (hg : FlagBits m v g) :
    f = g := by
  cases f
  cases g
  cases m <;> simp_all [FlagBits]

@[simp] theorem flagsOfPsw_psw (m : PswLayout) (f : Flags) : flagsOfPsw m (psw m f) = f :=
  (flagsOfPsw_bits m _).unique (psw_bits m f)

end Sys2Proof.Safety
end

