-- ==== Sys2Proof/Laws/Decode.lean ====
section
/-! SUPPORT. Everything the opcode decoder can answer, said once, and what `decode` does with each kind of template. -/

namespace Sys2Proof

open Machine

/-- A claim about the 256 bytes, byte by byte. -/
theorem byte_cases {P : Byte → Prop} (h : ∀ n : Fin 256, P ⟨n⟩) : ∀ v, P v := fun ⟨v⟩ => h v

/-- Whatever an opcode selects is well-formed and is encoded with that opcode. -/
theorem decodeOpcode_spec : ∀ op : Byte,
    match decodeOpcode op with
    | .implied i => i.wellFormed = true ∧ encode i = [op]
    | .wantsByte build => ∀ v, (build v).wellFormed = true ∧ encode (build v) = [op, v]
    | .wantsWord build => ∀ v, (build v).wellFormed = true ∧ encode (build v) = withOperand op v := by
  apply byte_cases
  intro n
  fin_cases n <;> first | exact ⟨rfl, rfl⟩ | exact fun _ => ⟨rfl, rfl⟩

theorem decode_implied {op : Byte} {i : Instr} (rest : List Byte) (h : decodeOpcode op = .implied i) :
    decode (op :: rest) = .ok (i, rest) := by
  simp only [decode, h]

theorem decode_wantsByte {op : Byte} {build : Byte → Instr} (v : Byte) (rest : List Byte)
    (h : decodeOpcode op = .wantsByte build) : decode (op :: v :: rest) = .ok (build v, rest) := by
  simp only [decode, h]

theorem decode_wantsByte_short {op : Byte} {build : Byte → Instr} (h : decodeOpcode op = .wantsByte build) :
    decode [op] = .error (.missingOperand op) := by
  simp only [decode, h]

theorem decode_wantsWord {op : Byte} {build : Word → Instr} (lo hi : Byte) (rest : List Byte)
    (h : decodeOpcode op = .wantsWord build) : decode (op :: lo :: hi :: rest) = .ok (build (joinBytes hi lo), rest) := by
  simp only [decode, h]

theorem decode_wantsWord_short {op : Byte} {build : Word → Instr} {rest : List Byte}
    (h : decodeOpcode op = .wantsWord build) (hr : rest.length < 2) : decode (op :: rest) = .error (.missingOperand op) := by
  match rest, hr with
  | [], _ => simp only [decode, h]
  | [_], _ => simp only [decode, h]
  | _ :: _ :: tl, hr => exact absurd hr (by simp)

@[simp] theorem withOperand_join (op lo hi : Byte) : withOperand op (joinBytes hi lo) = [op, lo, hi] := by
  simp [withOperand]

end Sys2Proof
end

