-- ==== Sys2Proof/Laws/Memory.lean ====
section
/-! SUPPORT. Memory: reading back what was written, leaving every other byte, keeping the canonical form; and the two
access primitives, with everything they can answer. -/

namespace Sys2Proof.Machine

theorem Memory.read_of_lt (m : Memory) (a : Nat) (h : ∀ x ∈ m, a < x.1) : m.read a = unlistedByte := by
  induction m with
  | nil => rfl
  | cons x rest ih =>
    obtain ⟨k, w⟩ := x
    have hk : a < k := h (k, w) (by simp)
    simp only [Memory.read, if_neg (Nat.ne_of_lt hk)]
    exact ih fun y hy => h y (List.mem_cons_of_mem _ hy)

/-- What reads back after a write, at every address. -/
theorem Memory.read_write (m : Memory) (a b : Nat) (v : Byte) (h : m.Pairwise fun x y => x.1 < y.1) :
    (m.write a v).read b = if b = a then v else m.read b := by
  induction m with
  | nil =>
    by_cases hv : v = unlistedByte <;> by_cases hb : b = a <;> simp [Memory.write, Memory.read, hv, hb]
  | cons x rest ih =>
    obtain ⟨k, w⟩ := x
    obtain ⟨hlt, hrest⟩ := List.pairwise_cons.mp h
    have ih := ih hrest
    simp only [Memory.write]
    by_cases hak : a < k
    · have below : Memory.read ((k, w) :: rest) a = unlistedByte := by
        apply Memory.read_of_lt
        intro y hy
        rcases List.mem_cons.mp hy with rfl | hy
        · exact hak
        · exact Nat.lt_trans hak (hlt y hy)
      by_cases hv : v = unlistedByte
      · rw [if_pos hak, if_pos hv]
        by_cases hb : b = a
        · rw [if_pos hb, hb, hv, below]
        · rw [if_neg hb]
      · rw [if_pos hak, if_neg hv]
        rw [Memory.read]
    · rw [if_neg hak]
      by_cases he : a = k
      · subst he
        rw [if_pos rfl]
        by_cases hv : v = unlistedByte
        · rw [if_pos hv]
          by_cases hb : b = a
          · subst hb; rw [if_pos rfl, hv]; exact Memory.read_of_lt rest b hlt
          · rw [if_neg hb, Memory.read, if_neg hb]
        · rw [if_neg hv, Memory.read]
          by_cases hb : b = a
          · rw [if_pos hb, if_pos hb]
          · rw [if_neg hb, if_neg hb, Memory.read, if_neg hb]
      · rw [if_neg he]
        simp only [Memory.read, ih]
        by_cases hb : b = k
        · subst hb; rw [if_pos rfl, if_neg (Ne.symm he), if_pos rfl]
        · simp [hb]

/-- A write leaves every other address, in any memory. -/
theorem Memory.read_write_other (m : Memory) {a b : Nat} (v : Byte) (h : b ≠ a) : (m.write a v).read b = m.read b := by
  induction m with
  | nil => by_cases hv : v = unlistedByte <;> simp [Memory.write, Memory.read, hv, h]
  | cons x rest ih =>
    obtain ⟨k, w⟩ := x
    simp only [Memory.write]
    by_cases hak : a < k
    · by_cases hv : v = unlistedByte <;> simp [hak, hv, Memory.read, h]
    · by_cases he : a = k
      · subst he
        by_cases hv : v = unlistedByte <;> simp [hv, Memory.read, h]
      · simp [hak, he, Memory.read, ih]

theorem Memory.mem_write (m : Memory) (a : Nat) (v : Byte) (x : Host.Cell) (h : x ∈ m.write a v) :
    (x = (a, v) ∧ v ≠ unlistedByte) ∨ x ∈ m := by
  induction m with
  | nil =>
    by_cases hv : v = unlistedByte
    · simp [Memory.write, hv] at h
    · simp [Memory.write, hv] at h; exact .inl ⟨h, hv⟩
  | cons y rest ih =>
    obtain ⟨k, w⟩ := y
    simp only [Memory.write] at h
    split at h
    · split at h
      · exact .inr h
      · next hv =>
        rcases List.mem_cons.mp h with h | h
        · exact .inl ⟨h, hv⟩
        · exact .inr h
    · split at h
      · split at h
        · exact .inr (List.mem_cons_of_mem _ h)
        · next hv =>
          rcases List.mem_cons.mp h with h | h
          · exact .inl ⟨h, hv⟩
          · exact .inr (List.mem_cons_of_mem _ h)
      · rcases List.mem_cons.mp h with h | h
        · exact .inr (by simp [h])
        · rcases ih h with h | h
          · exact .inl h
          · exact .inr (List.mem_cons_of_mem _ h)

theorem Memory.write_sorted (m : Memory) (a : Nat) (v : Byte) (h : m.Pairwise fun x y => x.1 < y.1) :
    (m.write a v).Pairwise fun x y => x.1 < y.1 := by
  induction m with
  | nil => by_cases hv : v = unlistedByte <;> simp [Memory.write, hv]
  | cons x rest ih =>
    obtain ⟨k, w⟩ := x
    obtain ⟨hlt, hrest⟩ := List.pairwise_cons.mp h
    simp only [Memory.write]
    by_cases hak : a < k
    · by_cases hv : v = unlistedByte
      · rw [if_pos hak, if_pos hv]; exact h
      · rw [if_pos hak, if_neg hv]
        refine List.pairwise_cons.mpr ⟨fun y hy => ?_, h⟩
        rcases List.mem_cons.mp hy with rfl | hy
        · exact hak
        · exact Nat.lt_trans hak (hlt y hy)
    · rw [if_neg hak]
      by_cases he : a = k
      · subst he
        by_cases hv : v = unlistedByte
        · rw [if_pos rfl, if_pos hv]; exact hrest
        · rw [if_pos rfl, if_neg hv]; exact List.pairwise_cons.mpr ⟨hlt, hrest⟩
      · rw [if_neg he]
        refine List.pairwise_cons.mpr ⟨fun y hy => ?_, ih hrest⟩
        rcases Memory.mem_write rest a v y hy with ⟨rfl, -⟩ | hy
        · exact Nat.lt_of_le_of_ne (Nat.le_of_not_lt hak) (Ne.symm he)
        · exact hlt y hy

/-- A write inside memory keeps the canonical form. -/
theorem Memory.write_wf {m : Memory} {a : Nat} (v : Byte) (h : Memory.wf m) (ha : a < memSize) :
    Memory.wf (m.write a v) := by
  refine ⟨Memory.write_sorted m a v h.1, fun x hx => ?_⟩
  rcases Memory.mem_write m a v x hx with ⟨rfl, hv⟩ | hx
  · exact ⟨ha, hv⟩
  · exact h.2 x hx

theorem Memory.empty_wf : Memory.wf [] := ⟨.nil, by simp⟩

/-! ### A memory given byte by byte -/

/-- The entries `Memory.ofBytes` makes of some addresses, and what they read as. -/
theorem Memory.read_filterMap (f : Nat → Byte) (l : List Nat) (h : l.Pairwise (· < ·)) (a : Nat) :
    Memory.read (l.filterMap fun k => if f k = unlistedByte then none else some (k, f k)) a
      = if a ∈ l then f a else unlistedByte := by
  induction l with
  | nil => rfl
  | cons k rest ih =>
    have hk := List.pairwise_cons.mp h
    rw [List.filterMap_cons]
    by_cases ha : a = k
    · subst ha
      have hn : a ∉ rest := fun hm => Nat.lt_irrefl _ (hk.1 a hm)
      by_cases hf : f a = unlistedByte <;> simp [hf, Memory.read, ih hk.2, hn]
    · by_cases hf : f k = unlistedByte <;> simp [hf, Memory.read, ih hk.2, ha]

theorem Memory.read_ofBytes (f : Nat → Byte) {a : Nat} (h : a < memSize) : (Memory.ofBytes f).read a = f a := by
  rw [Memory.ofBytes, Memory.read_filterMap f _ List.pairwise_lt_range, if_pos (List.mem_range.mpr h)]

theorem Memory.ofBytes_wf (f : Nat → Byte) : Memory.wf (Memory.ofBytes f) := by
  have entry : ∀ {k : Nat} {x : Host.Cell},
      (if f k = unlistedByte then none else some (k, f k)) = some x → f k ≠ unlistedByte ∧ x = (k, f k) := by
    intro k x hx
    split at hx
    · cases hx
    · next hf => exact ⟨hf, (Option.some.inj hx).symm⟩
  constructor
  · refine List.pairwise_filterMap.mpr (List.pairwise_lt_range.imp ?_)
    intro j k hjk x hx y hy
    rw [(entry hx).2, (entry hy).2]
    exact hjk
  · intro x hx
    obtain ⟨k, hk, hx⟩ := List.mem_filterMap.mp hx
    rw [(entry hx).2]
    exact ⟨List.mem_range.mp hk, (entry hx).1⟩

/-! ### The access primitives -/

theorem State.memRead_ok (s : State) {a : Int} (h : inMemory a) : s.memRead a = .ok (s.mem.read a.toNat) := if_pos h

theorem State.memRead_error (s : State) {a : Int} (h : ¬ inMemory a) : s.memRead a = .error (.outOfRange a) := if_neg h

theorem State.memWrite_ok (s : State) {a : Int} (v : Byte) (h : inMemory a) :
    s.memWrite a v = .ok { s with mem := s.mem.write a.toNat v } := if_pos h

theorem State.memWrite_error (s : State) {a : Int} (v : Byte) (h : ¬ inMemory a) :
    s.memWrite a v = .error (.outOfRange a) := if_neg h

theorem State.memRead_nat (s : State) {a : Nat} (h : a < memSize) : s.memRead (a : Int) = .ok (s.mem.read a) := by
  simpa using s.memRead_ok (a := a) ⟨by omega, by exact_mod_cast h⟩

theorem State.memRead_nat_error (s : State) {a : Nat} (h : memSize ≤ a) :
    s.memRead (a : Int) = .error (.outOfRange a) := s.memRead_error fun hc => by have := hc.2; omega

theorem State.memWrite_nat (s : State) {a : Nat} (v : Byte) (h : a < memSize) :
    s.memWrite (a : Int) v = .ok { s with mem := s.mem.write a v } := by
  simpa using s.memWrite_ok (a := a) v ⟨by omega, by exact_mod_cast h⟩

theorem State.memWrite_nat_error (s : State) {a : Nat} (v : Byte) (h : memSize ≤ a) :
    s.memWrite (a : Int) v = .error (.outOfRange a) := s.memWrite_error v fun hc => by have := hc.2; omega

end Sys2Proof.Machine
end

