-- ==== Sys2Proof/Laws/Frames.lean ====
section
/-! SUPPORT. The frame of every update and shared operation, and how frames compose. -/

namespace Sys2Proof.Safety

open Machine

/-- Every place the first footprint names, the second names too. -/
def Footprint.le (w w' : Footprint) : Prop :=
  w.regs ⊆ w'.regs ∧ w.flags ⊆ w'.flags ∧ (w.pc = true → w'.pc = true) ∧ (w.sp = true → w'.sp = true) ∧
  w.mem ⊆ w'.mem ∧ w.latches ⊆ w'.latches ∧ (w.shift = true → w'.shift = true) ∧ (w.halted = true → w'.halted = true)

theorem OnlyChanges.refl (w : Footprint) (s : State) : OnlyChanges w s s := by simp [OnlyChanges]

theorem OnlyChanges.trans {w : Footprint} {s t u : State} (h : OnlyChanges w s t) (k : OnlyChanges w t u) :
    OnlyChanges w s u := by
  obtain ⟨h1, h2, h3, h4, h5, h6, h7, h8, h9, h10, h11, h12⟩ := h
  obtain ⟨k1, k2, k3, k4, k5, k6, k7, k8, k9, k10, k11, k12⟩ := k
  exact ⟨fun r hr => (k1 r hr).trans (h1 r hr), fun f hf => (k2 f hf).trans (h2 f hf),
    fun p => (k3 p).trans (h3 p), fun p => (k4 p).trans (h4 p), fun a ha => (k5 a ha).trans (h5 a ha),
    fun i hi => (k6 i hi).trans (h6 i hi), k7.trans h7, fun p => (k8 p).trans (h8 p), fun p => (k9 p).trans (h9 p),
    k10.trans h10, k11.trans h11, k12.trans h12⟩

theorem OnlyChanges.mono {w w' : Footprint} {s t : State} (hle : w.le w') (h : OnlyChanges w s t) :
    OnlyChanges w' s t := by
  obtain ⟨l1, l2, l3, l4, l5, l6, l7, l8⟩ := hle
  obtain ⟨h1, h2, h3, h4, h5, h6, h7, h8, h9, h10, h11, h12⟩ := h
  have off {a b : Bool} (hab : a = true → b = true) (hb : b = false) : a = false := by
    cases a
    · rfl
    · exact absurd (hab rfl) (by simp [hb])
  exact ⟨fun r hr => h1 r fun hc => hr (l1 hc), fun f hf => h2 f fun hc => hf (l2 hc),
    fun p => h3 (off l3 p), fun p => h4 (off l4 p), fun a ha => h5 a fun hc => ha (l5 hc),
    fun i hi => h6 i fun hc => hi (l6 hc), h7, fun p => h8 (off l7 p), fun p => h9 (off l8 p), h10, h11, h12⟩

theorem only_setReg (s : State) (r : Reg) (v : Byte) : OnlyChanges { regs := [r] } s (s.setReg r v) := by
  refine ⟨fun q hq => ?_, by simp, by simp, by simp, fun _ _ => rfl, fun _ _ => rfl, rfl, fun _ => rfl, fun _ => rfl,
    rfl, rfl, rfl⟩
  rw [State.reg_setReg, if_neg (by simpa using hq)]

theorem only_setAcc (s : State) (v : Byte) : OnlyChanges { regs := [.a] } s (s.setAcc v) := only_setReg s .a v

theorem only_setFlags (s : State) (f : Flags) (l : List Flag) (h : ∀ k, k ∉ l → flagOf f k = flagOf s.flags k) :
    OnlyChanges { flags := l } s (s.setFlags f) :=
  ⟨fun _ _ => rfl, h, fun _ => rfl, fun _ => rfl, fun _ _ => rfl, fun _ _ => rfl, rfl, fun _ => rfl, fun _ => rfl,
    rfl, rfl, rfl⟩

theorem only_setAllFlags (s : State) (f : Flags) : OnlyChanges { flags := allFlags } s (s.setFlags f) :=
  only_setFlags s f allFlags fun k hk => absurd (by cases k <;> decide) hk

theorem only_setCarry (s : State) (c : Bool) : OnlyChanges { flags := [.c] } s (s.setCarry c) :=
  only_setFlags s _ [.c] fun k hk => by cases k <;> first | rfl | exact absurd (by decide) hk

theorem only_keepCarry (s : State) (f : Flags) :
    OnlyChanges { flags := flagsButCarry } s (s.setFlags (keepCarry s.flags f)) :=
  only_setFlags s _ flagsButCarry fun k hk => by cases k <;> first | rfl | exact absurd (by decide) hk

theorem only_setAccFlags (s : State) (o : AluOut) :
    OnlyChanges { regs := [.a], flags := allFlags } s (s.setAccFlags o) :=
  ((only_setAcc s o.result).mono (by simp [Footprint.le])).trans
    ((only_setAllFlags _ o.flags).mono (by simp [Footprint.le]))

theorem only_setPc (s : State) (v : Word) : OnlyChanges { pc := true } s (s.setPc v) := by
  simp [OnlyChanges, byteAt]

theorem only_setSp (s : State) (v : Word) : OnlyChanges { sp := true } s (s.setSp v) := by
  simp [OnlyChanges, byteAt]

theorem only_setPair (s : State) {p : Pair} (v : Word) (h : p ≠ .sp) :
    OnlyChanges { regs := regsOf p } s (s.setPair p v) := by
  cases p <;> first | exact absurd rfl h | skip
  all_goals
    exact ((only_setReg s _ _).mono (by simp [Footprint.le, regsOf])).trans
      ((only_setReg _ _ _).mono (by simp [Footprint.le, regsOf]))

theorem only_writeMem (s : State) (a : Nat) (v : Byte) :
    OnlyChanges { mem := [a] } s { s with mem := s.mem.write a v } :=
  ⟨fun _ _ => rfl, fun _ _ => rfl, fun _ => rfl, fun _ => rfl,
    fun b hb => Memory.read_write_other s.mem v (by simpa using hb), fun _ _ => rfl, rfl, fun _ => rfl, fun _ => rfl,
    rfl, rfl, rfl⟩

theorem only_memWrite {s t : State} {a : Int} {v : Byte} (h : s.memWrite a v = .ok t) :
    OnlyChanges { mem := [a.toNat] } s t := by
  by_cases ha : inMemory a
  · rw [State.memWrite_ok s v ha] at h
    cases h
    exact only_writeMem s a.toNat v
  · rw [State.memWrite_error s v ha] at h
    cases h

end Sys2Proof.Safety
end

