-- ==== Sys2Proof/Laws/Ops.lean ====
section
/-! SUPPORT. One lemma per shared operation saying everything it can do: the pairs, the memory operand, the stack, calls
and returns, the I/O bus. -/

namespace Sys2Proof.Safety

open Machine

/-! ### Pairs and the memory operand -/

theorem pair_hl_toNat (s : State) : pairNat s .hl = 256 * (s.reg .h).toNat + (s.reg .l).toNat := joinBytes_toNat _ _

theorem pair_setPair (s : State) {p : Pair} (v : Word) (h : p ≠ .sp) : (s.setPair p v).pair p = v := by
  cases p <;> first | exact absurd rfl h | exact joinBytes_hi_lo v

theorem readM_ok (s : State) (h : pairNat s .hl < memSize) : s.readM = .ok (byteAt s (pairNat s .hl)) :=
  s.memRead_nat h

theorem readM_error (s : State) (h : memSize ≤ pairNat s .hl) : s.readM = .error (.outOfRange (pairNat s .hl)) :=
  s.memRead_nat_error h

theorem writeM_ok (s : State) (v : Byte) (h : pairNat s .hl < memSize) :
    s.writeM v = .ok { s with mem := s.mem.write (pairNat s .hl) v } := s.memWrite_nat v h

theorem writeM_error (s : State) (v : Byte) (h : memSize ≤ pairNat s .hl) :
    s.writeM v = .error (.outOfRange (pairNat s .hl)) := s.memWrite_nat_error v h

theorem cast_succ (a : Nat) : (a : Int) + 1 = ((a + 1 : Nat) : Int) := by omega

theorem memRead16_ok (s : State) {a : Nat} (h : a + 1 < memSize) :
    s.memRead16 (a : Int) = .ok (joinBytes (byteAt s (a + 1)) (byteAt s a)) := by
  simp only [State.memRead16, cast_succ, s.memRead_nat (show a < memSize by omega), s.memRead_nat h, ok_bind, pure_eq_ok]
  rfl

theorem memRead16_error (s : State) {a : Nat} (h : memSize ≤ a) :
    s.memRead16 (a : Int) = .error (.outOfRange a) := by
  simp only [State.memRead16, s.memRead_nat_error h, error_bind]

theorem memRead16_last (s : State) {a : Nat} (h : a + 1 = memSize) :
    s.memRead16 (a : Int) = .error (.outOfRange memSize) := by
  have h' : a < memSize := Nat.lt_of_succ_le (Nat.le_of_eq h)
  have e : s.memRead16 (a : Int) = .error (.outOfRange (a + 1 : Nat)) := by
    unfold State.memRead16
    rw [s.memRead_nat h', ok_bind, cast_succ, s.memRead_nat_error (Nat.le_of_eq h.symm), error_bind]
  exact e.trans (congrArg (fun n : Nat => Except.error (Fault.outOfRange n)) h)

/-- The state after a two-byte write. -/
def wrote16 (s : State) (a : Nat) (v : Word) : State :=
  { s with mem := (s.mem.write a (loByte v)).write (a + 1) (hiByte v) }

theorem memWrite16_ok (s : State) {a : Nat} (v : Word) (h : a + 1 < memSize) :
    s.memWrite16 (a : Int) v = .ok (wrote16 s a v) := by
  unfold State.memWrite16 wrote16
  rw [s.memWrite_nat (loByte v) (show a < memSize by omega), cast_succ, ok_bind, State.memWrite_nat _ _ h]

theorem memWrite16_error (s : State) {a : Nat} (v : Word) (h : memSize ≤ a) :
    s.memWrite16 (a : Int) v = .error (.outOfRange a) := by
  simp only [State.memWrite16, s.memWrite_nat_error _ h, error_bind]

theorem memWrite16_last (s : State) {a : Nat} (v : Word) (h : a + 1 = memSize) :
    s.memWrite16 (a : Int) v = .error (.outOfRange memSize) := by
  have h' : a < memSize := Nat.lt_of_succ_le (Nat.le_of_eq h)
  have e : s.memWrite16 (a : Int) v = .error (.outOfRange (a + 1 : Nat)) := by
    unfold State.memWrite16
    rw [s.memWrite_nat (loByte v) h', cast_succ, ok_bind, State.memWrite_nat_error _ _ (Nat.le_of_eq h.symm)]
  exact e.trans (congrArg (fun n : Nat => Except.error (Fault.outOfRange n)) h)

theorem only_wrote16 (s : State) (a : Nat) (v : Word) : OnlyChanges { mem := [a, a + 1] } s (wrote16 s a v) :=
  ((only_writeMem s a (loByte v)).mono (by simp [Footprint.le])).trans
    ((only_writeMem _ (a + 1) (hiByte v)).mono (by simp [Footprint.le]))

theorem byteAt_wrote16_low (s : State) (a : Nat) (v : Word) (h : Memory.wf s.mem) :
    byteAt (wrote16 s a v) a = loByte v := by
  show ((s.mem.write a (loByte v)).write (a + 1) (hiByte v)).read a = _
  rw [Memory.read_write_other _ _ (by omega), Memory.read_write _ _ _ _ h.1, if_pos rfl]

theorem byteAt_wrote16_high (s : State) (a : Nat) (v : Word) (h : Memory.wf s.mem) :
    byteAt (wrote16 s a v) (a + 1) = hiByte v := by
  show ((s.mem.write a (loByte v)).write (a + 1) (hiByte v)).read (a + 1) = _
  rw [Memory.read_write _ _ _ _ (Memory.write_sorted _ _ _ h.1), if_pos rfl]

/-! ### Stack -/

/-- The state a push that succeeds reaches. -/
def pushed (s : State) (v : Word) : State :=
  State.setSp { s with mem := (s.mem.write (s.sp.toNat - 1) (hiByte v)).write (s.sp.toNat - 2) (loByte v) } (s.sp - 2)

theorem push16_ok (s : State) (v : Word) (h : Invariant s) (hs : 2 ≤ s.sp.toNat) : s.push16 v = .ok (pushed s v) := by
  have hlt := h.sp_lt
  have e1 : (s.sp.toNat : Int) - 1 = ((s.sp.toNat - 1 : Nat) : Int) := by omega
  have e2 : (s.sp.toNat : Int) - 2 = ((s.sp.toNat - 2 : Nat) : Int) := by omega
  have h1 := s.memWrite_nat (a := s.sp.toNat - 1) (hiByte v) (by omega)
  have h2 (t : State) := t.memWrite_nat (a := s.sp.toNat - 2) (loByte v) (by omega)
  simp only [State.push16, e1, e2, h1, h2, ok_bind, pure_eq_ok]
  rfl

theorem push16_error (s : State) (v : Word) (hs : s.sp.toNat < 2) : s.push16 v = .error (.outOfRange (-1)) := by
  rcases (by omega : s.sp.toNat = 0 ∨ s.sp.toNat = 1) with h | h
  · have h1 := s.memWrite_error (a := (s.sp.toNat : Int) - 1) (hiByte v) (by rw [h]; decide)
    simp only [State.push16, h1, error_bind]
    rw [h]; rfl
  · have e1 : (s.sp.toNat : Int) - 1 = ((0 : Nat) : Int) := by rw [h]; rfl
    have h1 := s.memWrite_nat (a := 0) (hiByte v) (by decide)
    have h2 (t : State) := t.memWrite_error (a := (s.sp.toNat : Int) - 2) (loByte v) (by rw [h]; decide)
    simp only [State.push16, e1, h1, h2, ok_bind, error_bind]
    rw [h]; rfl

theorem sp_pushed (s : State) (v : Word) (h : Invariant s) (hs : 2 ≤ s.sp.toNat) :
    (pushed s v).sp.toNat = s.sp.toNat - 2 := by
  have hlt := h.sp_lt
  show (wrapAddr (s.sp - 2)).toNat = _
  rw [wrapAddr_toNat]
  rw [BitVec.toNat_sub_of_le (by rw [BitVec.le_def]; exact hs)]
  exact Nat.mod_eq_of_lt (Nat.lt_of_le_of_lt (Nat.sub_le _ _) hlt)

theorem pushed_spec (s : State) (v : Word) (h : Invariant s) (hs : 2 ≤ s.sp.toNat) : Pushed v s (pushed s v) := by
  refine ⟨sp_pushed s v h hs, ?_, ?_⟩
  · show ((s.mem.write (s.sp.toNat - 1) (hiByte v)).write (s.sp.toNat - 2) (loByte v)).read (s.sp.toNat - 1) = _
    rw [Memory.read_write_other _ _ (by omega), Memory.read_write _ _ _ _ h.mem_wf.1, if_pos rfl]
    apply BitVec.eq_of_toNat_eq
    have := v.isLt
    rw [hiByte_toNat, BitVec.toNat_ofNat]; omega
  · show ((s.mem.write (s.sp.toNat - 1) (hiByte v)).write (s.sp.toNat - 2) (loByte v)).read (s.sp.toNat - 2) = _
    rw [Memory.read_write _ _ _ _ (Memory.write_sorted _ _ _ h.mem_wf.1), if_pos rfl]
    apply BitVec.eq_of_toNat_eq
    rw [loByte_toNat, BitVec.toNat_ofNat]

theorem only_pushed (s : State) (v : Word) : OnlyChanges { sp := true, mem := pushedBytes s } s (pushed s v) :=
  ((only_writeMem s (s.sp.toNat - 1) (hiByte v)).mono (by simp [Footprint.le, pushedBytes])).trans
    (((only_writeMem _ (s.sp.toNat - 2) (loByte v)).mono (by simp [Footprint.le, pushedBytes])).trans
      ((only_setSp _ _).mono (by simp [Footprint.le])))

/-- The word at sp, as `Pop16` puts it together. -/
def topWord (s : State) : Word := joinBytes (byteAt s (s.sp.toNat + 1)) (byteAt s s.sp.toNat)

theorem topWord_toNat (s : State) : (topWord s).toNat = wordAtSp s := joinBytes_toNat _ _

theorem pop16_ok (s : State) (hs : s.sp.toNat + 1 < memSize) :
    s.pop16 = .ok (topWord s, s.setSp (s.sp + 2)) := by
  simp only [State.pop16, memRead16_ok s hs, ok_bind, pure_eq_ok]
  rfl

theorem pop16_error (s : State) (hs : s.sp.toNat + 1 = memSize) : s.pop16 = .error (.outOfRange memSize) := by
  simp only [State.pop16, memRead16_last s hs, error_bind]

theorem sp_popped (s : State) : Popped s (s.setSp (s.sp + 2)) := by
  show (wrapAddr (s.sp + 2)).toNat = _
  rw [wrapAddr_toNat, BitVec.toNat_add]
  show (s.sp.toNat + 2) % 65536 % 16384 = (s.sp.toNat + 2) % 16384
  omega

theorem callTo_ok (s : State) (a : Word) (h : Invariant s) (hs : 2 ≤ s.sp.toNat) :
    s.callTo a = .ok ((pushed s s.pc).setPc a) := by
  simp only [State.callTo, push16_ok s _ h hs, ok_bind, pure_eq_ok]

theorem callTo_error (s : State) (a : Word) (hs : s.sp.toNat < 2) : s.callTo a = .error (.outOfRange (-1)) := by
  simp only [State.callTo, push16_error s _ hs, error_bind]

theorem returnFromCall_ok (s : State) (hs : s.sp.toNat + 1 < memSize) :
    s.returnFromCall = .ok ((s.setSp (s.sp + 2)).setPc (topWord s)) := by
  simp only [State.returnFromCall, pop16_ok s hs, ok_bind, pure_eq_ok]

theorem returnFromCall_error (s : State) (hs : s.sp.toNat + 1 = memSize) :
    s.returnFromCall = .error (.outOfRange memSize) := by
  simp only [State.returnFromCall, pop16_error s hs, error_bind]

/-! ### I/O bus -/

theorem ioRead_latch (s : State) (port : Byte) (k : Fin numReadLatches) (h3 : k ≠ 3) (h : port.toNat = k.val) :
    s.ioRead port = .ok s.io.rb[k] := by
  obtain ⟨k, hk⟩ := k
  simp only [State.ioRead, h]
  match k, hk with
  | 0, _ => rfl
  | 1, _ => rfl
  | 2, _ => rfl
  | 3, _ => exact absurd rfl h3

theorem ioRead_shift (s : State) (port : Byte) (h : port.toNat = 3) : s.ioRead port = .ok s.io.shiftWindow := by
  simp only [State.ioRead, h]

theorem ioRead_error (s : State) (port : Byte) (h : 3 < port.toNat) : s.ioRead port = .error (.invalidPort port) := by
  unfold State.ioRead
  split <;> first | omega | rfl

theorem ioWrite_error (s : State) (port v : Byte) (h : 6 < port.toNat) :
    s.ioWrite port v = .error (.invalidPort port) := dif_neg (Nat.not_lt.mpr h)

theorem shiftIn_toNat (m : ShiftModulus) (sr : Word) (v : Byte) :
    (shiftIn m sr v).toNat = (256 * v.toNat + sr.toNat / 256) % modulusOf m := by
  have hv := v.isLt
  have hs := sr.isLt
  have hor : (sr.toNat >>> 8) ||| (v.toNat <<< 8) = 256 * v.toNat + sr.toNat / 256 := by
    rw [Nat.shiftRight_eq_div_pow, Nat.shiftLeft_eq, Nat.or_comm, Nat.mul_comm v.toNat]
    rw [← Nat.two_pow_add_eq_or_of_lt (i := 8) (b := sr.toNat / 2 ^ 8) (by omega) v.toNat]
  rw [shiftIn, BitVec.toNat_ofNat, hor]
  cases m
  · show (256 * v.toNat + sr.toNat / 256) % 65536 % 65536 = _
    exact Nat.mod_mod _ _
  · show (256 * v.toNat + sr.toNat / 256) % 65535 % 65536 = (256 * v.toNat + sr.toNat / 256) % 65535
    omega

end Sys2Proof.Safety
end

