-- ==== Sys2Proof/Laws/Meanings.lean ====
section
/-! SUPPORT. Everything one instruction may change, said once for all of them: the footprint of each instruction, and
that a meaning that completes stays inside it. -/

namespace Sys2Proof.Machine

/-! ### Taking a sequence of operations apart -/

theorem bind_ok {α β : Type} {x : Except Fault α} {f : α → Except Fault β} {b : β} :
    (x >>= f) = .ok b ↔ ∃ a, x = .ok a ∧ f a = .ok b := by
  cases x <;> simp

theorem mapped_ok {α β : Type} {x : Except Fault α} {f : α → β} {b : β} :
    x.map f = .ok b ↔ ∃ a, x = .ok a ∧ f a = b := by
  cases x <;> simp

end Sys2Proof.Machine

namespace Sys2Proof.Safety

open Machine

/-! ### Frames of the operations that may fail -/

theorem only_memWrite16 {s t : State} {a : Int} {v : Word} (h : s.memWrite16 a v = .ok t) :
    OnlyChanges { mem := [a.toNat, (a + 1).toNat] } s t := by
  obtain ⟨u, h1, h2⟩ := bind_ok.mp h
  exact ((only_memWrite h1).mono (by simp [Footprint.le])).trans ((only_memWrite h2).mono (by simp [Footprint.le]))

theorem only_push16 {s t : State} {v : Word} (h : s.push16 v = .ok t) :
    OnlyChanges { sp := true, mem := pushedBytes s } s t := by
  obtain ⟨u, h1, h⟩ := bind_ok.mp h
  obtain ⟨w, h2, h⟩ := bind_ok.mp h
  cases h
  have e1 : ((s.sp.toNat : Int) - 1).toNat = s.sp.toNat - 1 := by omega
  have e2 : ((s.sp.toNat : Int) - 2).toNat = s.sp.toNat - 2 := by omega
  have f1 := only_memWrite h1
  have f2 := only_memWrite h2
  rw [e1] at f1
  rw [e2] at f2
  exact (f1.mono (by simp [Footprint.le, pushedBytes])).trans
    ((f2.mono (by simp [Footprint.le, pushedBytes])).trans ((only_setSp _ _).mono (by simp [Footprint.le])))

theorem only_pop16 {s t : State} {v : Word} (h : s.pop16 = .ok (v, t)) : OnlyChanges { sp := true } s t := by
  obtain ⟨w, -, h⟩ := bind_ok.mp h
  cases h
  exact only_setSp _ _

theorem only_callTo {s t : State} {a : Word} (h : s.callTo a = .ok t) :
    OnlyChanges { pc := true, sp := true, mem := pushedBytes s } s t := by
  obtain ⟨u, h1, h⟩ := bind_ok.mp h
  cases h
  exact ((only_push16 h1).mono (by simp [Footprint.le])).trans ((only_setPc _ _).mono (by simp [Footprint.le]))

theorem only_returnFromCall {s t : State} (h : s.returnFromCall = .ok t) :
    OnlyChanges { pc := true, sp := true } s t := by
  obtain ⟨⟨v, u⟩, h1, h⟩ := bind_ok.mp h
  cases h
  exact ((only_pop16 h1).mono (by simp [Footprint.le])).trans ((only_setPc _ _).mono (by simp [Footprint.le]))

theorem only_jumpIf (s : State) (k : Cond) (a : Word) : OnlyChanges { pc := true } s (s.jumpIf k a) := by
  unfold State.jumpIf
  split
  · exact only_setPc s a
  · exact .refl _ s

/-- The bytes a conditional call stores to. -/
def pushedIf (k : Cond) (s : State) : List Nat := if s.flags.holds k then pushedBytes s else []

theorem only_callIf {s t : State} {k : Cond} {a : Word} (h : s.callIf k a = .ok t) :
    OnlyChanges { pc := true, sp := true, mem := pushedIf k s } s t := by
  unfold State.callIf at h
  unfold pushedIf
  split at h
  · next hk => rw [if_pos hk]; exact only_callTo h
  · cases h; exact .refl _ s

theorem only_returnIf {s t : State} {k : Cond} (h : s.returnIf k = .ok t) :
    OnlyChanges { pc := true, sp := true } s t := by
  unfold State.returnIf at h
  split at h
  · exact only_returnFromCall h
  · cases h; exact .refl _ s

theorem memWrite_flags {s t : State} {a : Int} {v : Byte} (h : s.memWrite a v = .ok t) : t.flags = s.flags := by
  unfold State.memWrite at h
  split at h
  · cases h; rfl
  · cases h

theorem only_stepM {s t : State} {f : Byte → AluOut} (h : s.stepM f = .ok t) :
    OnlyChanges { mem := [pairNat s .hl], flags := flagsButCarry } s t := by
  obtain ⟨v, -, h⟩ := bind_ok.mp h
  obtain ⟨u, h1, h⟩ := bind_ok.mp h
  cases h
  have f1 := only_memWrite h1
  have e : s.flags = u.flags := by
    exact (memWrite_flags h1).symm
  rw [e]
  exact (f1.mono (by simp [Footprint.le, State.mAddress, asAddress, pairNat])).trans
    ((only_keepCarry _ _).mono (by simp [Footprint.le]))

/-! ### The footprint of every instruction -/

/-- The pair's registers, or sp. -/
def pairPrint (p : Pair) : Footprint := { regs := regsOf p, sp := decide (p = .sp) }

/-- A call's. -/
def callPrint (s : State) : Footprint := { pc := true, sp := true, mem := pushedBytes s }

/-- A conditional call's. -/
def callIfPrint (k : Cond) (s : State) : Footprint := { pc := true, sp := true, mem := pushedIf k s }

/-- A return's. -/
def returnPrint : Footprint := { pc := true, sp := true }

/-- What an instruction may change, run on a state. -/
def footprint (i : Instr) (s : State) : Footprint :=
  match i with
  | .movRR dst _ | .movRM dst | .mviR dst _ => { regs := [dst] }
  | .movMR _ | .mviM _ => { mem := [pairNat s .hl] }
  | .lxi p _ | .inx p | .dcx p => pairPrint p
  | .lda _ | .ldax _ | .cma | .inPort _ => { regs := [.a] }
  | .sta a => { mem := [a.toNat] }
  | .stax p => { mem := [pairNat s p] }
  | .lhld _ => { regs := [.h, .l] }
  | .shld a => { mem := [a.toNat, a.toNat + 1] }
  | .xchg => { regs := [.d, .e, .h, .l] }
  | .addR _ | .addM | .adcR _ | .adcM | .subR _ | .subM | .sbbR _ | .sbbM => { regs := [.a], flags := allFlags }
  | .anaR _ | .anaM | .xraR _ | .xraM | .oraR _ | .oraM => { regs := [.a], flags := allFlags }
  | .adi _ | .aci _ | .sui _ | .sbi _ | .ani _ | .xri _ | .ori _ | .daa => { regs := [.a], flags := allFlags }
  | .cmpR _ | .cmpM | .cpi _ => { flags := allFlags }
  | .inrR r | .dcrR r => { regs := [r], flags := flagsButCarry }
  | .inrM | .dcrM => { mem := [pairNat s .hl], flags := flagsButCarry }
  | .dad _ => { regs := [.h, .l], flags := [.c] }
  | .rlc | .rrc | .ral | .rar => { regs := [.a], flags := [.c] }
  | .cmc | .stc => { flags := [.c] }
  | .jmp _ | .jnz _ | .jz _ | .jnc _ | .jc _ | .jpo _ | .jpe _ | .jp _ | .jm _ | .pchl => { pc := true }
  | .call _ | .rst _ => callPrint s
  | .cnz _ => callIfPrint .nz s
  | .cz _ => callIfPrint .z s
  | .cnc _ => callIfPrint .nc s
  | .cc _ => callIfPrint .c s
  | .cpo _ => callIfPrint .po s
  | .cpe _ => callIfPrint .pe s
  | .cp _ => callIfPrint .p s
  | .cm _ => callIfPrint .m s
  | .ret | .rnz | .rz | .rnc | .rc | .rpo | .rpe | .rp | .rm => returnPrint
  | .push _ | .pushPsw => { sp := true, mem := pushedBytes s }
  | .pop p => { regs := regsOf p, sp := true }
  | .popPsw => { regs := [.a], flags := allFlags, sp := true }
  | .xthl => { regs := [.h, .l], mem := [s.sp.toNat, s.sp.toNat + 1] }
  | .sphl => { sp := true }
  | .outPort p => { latches := [p.toNat], shift := decide (p.toNat = 4) }
  | .hlt => { halted := true }
  | .nop | .ei | .di => {}
  | .undef08 | .undef10 | .undef18 | .undef20 | .undef28 | .undef30 | .undef38 => {}
  | .undefCB | .undefD9 | .undefDD | .undefED | .undefFD => {}

theorem only_pair (s : State) (p : Pair) (v : Word) : OnlyChanges (pairPrint p) s (s.setPair p v) := by
  cases p
  case sp => exact (only_setSp s v).mono (by simp [Footprint.le, pairPrint])
  all_goals exact (only_setPair s v (by simp)).mono (by simp [Footprint.le, pairPrint])

theorem only_ioWrite {s t : State} {port v : Byte} (h : s.ioWrite port v = .ok t) :
    OnlyChanges { latches := [port.toNat], shift := decide (port.toNat = 4) } s t := by
  unfold State.ioWrite at h
  split at h
  · cases h
    refine ⟨fun _ _ => rfl, fun _ _ => rfl, fun _ => rfl, fun _ => rfl, fun _ _ => rfl, fun k hk => ?_, rfl,
      fun h4 => if_neg (by simpa using h4), fun _ => rfl, rfl, rfl, rfl⟩
    exact Vector.getElem_set_ne (by omega) (by omega) (by simpa [eq_comm] using hk)
  · cases h

theorem only_setAcc_setCarry (s : State) (v : Byte) (c : Bool) :
    OnlyChanges { regs := [.a], flags := [.c] } s ((s.setAcc v).setCarry c) :=
  ((only_setAcc s v).mono (by simp [Footprint.le])).trans ((only_setCarry _ c).mono (by simp [Footprint.le]))

theorem only_stepReg (s : State) (r : Reg) (o : AluOut) :
    OnlyChanges { regs := [r], flags := flagsButCarry } s (s.stepReg r o) :=
  ((only_setReg s r o.result).mono (by simp [Footprint.le])).trans
    ((only_keepCarry (s.setReg r o.result) o.flags).mono (by simp [Footprint.le]))

/-- An instruction that completes stays inside its footprint. -/
theorem exec_only {i : Instr} {s t : State} (h : exec i s = .next t) : OnlyChanges (footprint i s) s t := by
  have fin {x : Except Fault State} (hx : finish x = .next t) : x = .ok t := finish_next.mp hx
  have nxt {u : State} (hu : (.next u : Outcome) = .next t) : u = t := by cases hu; rfl
  have readThen {f : Byte → State} {w : Footprint} (hx : finish (s.readM.map f) = .next t)
      (hf : ∀ v, OnlyChanges w s (f v)) : OnlyChanges w s t := by
    obtain ⟨v, -, e⟩ := mapped_ok.mp (fin hx)
    exact e ▸ hf v
  cases i with
  | movRR dst r => exact nxt h ▸ only_setReg _ _ _
  | movRM dst =>
    dsimp only [exec, execMovRM] at h
    exact readThen h (fun v => only_setReg s dst v)
  | movMR r =>
    dsimp only [exec, execMovMR] at h
    have h := fin h
    exact only_memWrite h
  | mviR dst v => exact nxt h ▸ only_setReg _ _ _
  | mviM v =>
    dsimp only [exec, execMviM] at h
    have h := fin h
    exact only_memWrite h
  | lxi p v => exact nxt h ▸ only_pair s p v
  | lda a =>
    dsimp only [exec, execLda] at h
    obtain ⟨v, -, e⟩ := mapped_ok.mp (fin h)
    exact e ▸ only_setAcc s v
  | sta a =>
    dsimp only [exec, execSta] at h
    have h := fin h
    exact only_memWrite h
  | lhld a =>
    dsimp only [exec, execLhld] at h
    obtain ⟨v, -, e⟩ := mapped_ok.mp (fin h)
    exact e ▸ only_setPair s v (p := .hl) (by simp)
  | shld a =>
    dsimp only [exec, execShld] at h
    have h := fin h
    exact only_memWrite16 h
  | ldax p =>
    dsimp only [exec, execLdax] at h
    obtain ⟨a, -, h⟩ := bind_ok.mp (fin h)
    obtain ⟨v, -, h⟩ := bind_ok.mp h
    cases h
    exact only_setAcc s v
  | stax p =>
    dsimp only [exec, execStax] at h
    obtain ⟨a, ha, h⟩ := bind_ok.mp (fin h)
    unfold State.indirectAddress at ha
    split at ha
    · cases ha; exact only_memWrite h
    · cases ha
  | xchg =>
    exact nxt h ▸ ((only_setPair s _ (p := .hl) (by simp)).mono (by simp [Footprint.le, regsOf, footprint])).trans
      ((only_setPair _ _ (p := .de) (by simp)).mono (by simp [Footprint.le, regsOf, footprint]))
  | addR r => exact nxt h ▸ only_setAccFlags _ _
  | addM =>
    dsimp only [exec, execAddM] at h
    exact readThen h (fun v => only_setAccFlags _ _)
  | adcR r => exact nxt h ▸ only_setAccFlags _ _
  | adcM =>
    dsimp only [exec, execAdcM] at h
    exact readThen h (fun v => only_setAccFlags _ _)
  | subR r => exact nxt h ▸ only_setAccFlags _ _
  | subM =>
    dsimp only [exec, execSubM] at h
    exact readThen h (fun v => only_setAccFlags _ _)
  | sbbR r => exact nxt h ▸ only_setAccFlags _ _
  | sbbM =>
    dsimp only [exec, execSbbM] at h
    exact readThen h (fun v => only_setAccFlags _ _)
  | anaR r => exact nxt h ▸ only_setAccFlags _ _
  | anaM =>
    dsimp only [exec, execAnaM] at h
    exact readThen h (fun v => only_setAccFlags _ _)
  | xraR r => exact nxt h ▸ only_setAccFlags _ _
  | xraM =>
    dsimp only [exec, execXraM] at h
    exact readThen h (fun v => only_setAccFlags _ _)
  | oraR r => exact nxt h ▸ only_setAccFlags _ _
  | oraM =>
    dsimp only [exec, execOraM] at h
    exact readThen h (fun v => only_setAccFlags _ _)
  | cmpR r => exact nxt h ▸ only_setAllFlags _ _
  | cmpM =>
    dsimp only [exec, execCmpM] at h
    exact readThen h (fun v => only_setAllFlags _ _)
  | adi v => exact nxt h ▸ only_setAccFlags _ _
  | aci v => exact nxt h ▸ only_setAccFlags _ _
  | sui v => exact nxt h ▸ only_setAccFlags _ _
  | sbi v => exact nxt h ▸ only_setAccFlags _ _
  | ani v => exact nxt h ▸ only_setAccFlags _ _
  | xri v => exact nxt h ▸ only_setAccFlags _ _
  | ori v => exact nxt h ▸ only_setAccFlags _ _
  | cpi v => exact nxt h ▸ only_setAllFlags _ _
  | inrR r => exact nxt h ▸ only_stepReg _ _ _
  | inrM =>
    dsimp only [exec, execInrM] at h
    have h := fin h
    exact only_stepM h
  | dcrR r => exact nxt h ▸ only_stepReg _ _ _
  | dcrM =>
    dsimp only [exec, execDcrM] at h
    have h := fin h
    exact only_stepM h
  | inx p => exact nxt h ▸ only_pair s p _
  | dcx p => exact nxt h ▸ only_pair s p _
  | dad p =>
    exact nxt h ▸ ((only_setPair s _ (p := .hl) (by simp)).mono (by simp [Footprint.le, regsOf, footprint])).trans
      ((only_setCarry _ _).mono (by simp [Footprint.le, footprint]))
  | daa => exact nxt h ▸ only_setAccFlags _ _
  | rlc => exact nxt h ▸ only_setAcc_setCarry _ _ _
  | rrc => exact nxt h ▸ only_setAcc_setCarry _ _ _
  | ral => exact nxt h ▸ only_setAcc_setCarry _ _ _
  | rar => exact nxt h ▸ only_setAcc_setCarry _ _ _
  | cma => exact nxt h ▸ only_setAcc _ _
  | cmc => exact nxt h ▸ only_setCarry _ _
  | stc => exact nxt h ▸ only_setCarry _ _
  | jmp a => exact nxt h ▸ only_setPc _ _
  | jnz a => exact nxt h ▸ only_jumpIf _ _ _
  | jz a => exact nxt h ▸ only_jumpIf _ _ _
  | jnc a => exact nxt h ▸ only_jumpIf _ _ _
  | jc a => exact nxt h ▸ only_jumpIf _ _ _
  | jpo a => exact nxt h ▸ only_jumpIf _ _ _
  | jpe a => exact nxt h ▸ only_jumpIf _ _ _
  | jp a => exact nxt h ▸ only_jumpIf _ _ _
  | jm a => exact nxt h ▸ only_jumpIf _ _ _
  | call a =>
    dsimp only [exec, execCall] at h
    have h := fin h
    exact only_callTo h
  | cnz a =>
    dsimp only [exec, execCnz] at h
    have h := fin h
    exact only_callIf h
  | cz a =>
    dsimp only [exec, execCz] at h
    have h := fin h
    exact only_callIf h
  | cnc a =>
    dsimp only [exec, execCnc] at h
    have h := fin h
    exact only_callIf h
  | cc a =>
    dsimp only [exec, execCc] at h
    have h := fin h
    exact only_callIf h
  | cpo a =>
    dsimp only [exec, execCpo] at h
    have h := fin h
    exact only_callIf h
  | cpe a =>
    dsimp only [exec, execCpe] at h
    have h := fin h
    exact only_callIf h
  | cp a =>
    dsimp only [exec, execCp] at h
    have h := fin h
    exact only_callIf h
  | cm a =>
    dsimp only [exec, execCm] at h
    have h := fin h
    exact only_callIf h
  | ret =>
    dsimp only [exec, execRet] at h
    have h := fin h
    exact only_returnFromCall h
  | rnz =>
    dsimp only [exec, execRnz] at h
    have h := fin h
    exact only_returnIf h
  | rz =>
    dsimp only [exec, execRz] at h
    have h := fin h
    exact only_returnIf h
  | rnc =>
    dsimp only [exec, execRnc] at h
    have h := fin h
    exact only_returnIf h
  | rc =>
    dsimp only [exec, execRc] at h
    have h := fin h
    exact only_returnIf h
  | rpo =>
    dsimp only [exec, execRpo] at h
    have h := fin h
    exact only_returnIf h
  | rpe =>
    dsimp only [exec, execRpe] at h
    have h := fin h
    exact only_returnIf h
  | rp =>
    dsimp only [exec, execRp] at h
    have h := fin h
    exact only_returnIf h
  | rm =>
    dsimp only [exec, execRm] at h
    have h := fin h
    exact only_returnIf h
  | rst n =>
    dsimp only [exec, execRst] at h
    have h := fin h
    exact only_callTo h
  | pchl => exact nxt h ▸ only_setPc _ _
  | push p =>
    dsimp only [exec, execPush] at h
    obtain ⟨q, -, h⟩ := bind_ok.mp (fin h)
    exact only_push16 h
  | pushPsw =>
    dsimp only [exec, execPushPsw] at h
    have h := fin h
    exact only_push16 h
  | pop p =>
    dsimp only [exec, execPop] at h
    obtain ⟨q, hq, h⟩ := bind_ok.mp (fin h)
    obtain ⟨⟨v, u⟩, h1, h⟩ := bind_ok.mp h
    unfold stackOperand at hq
    split at hq
    · next hp =>
      cases hq
      cases h
      exact ((only_pop16 h1).mono (by simp [Footprint.le, footprint])).trans
        ((only_setPair u v fun e => by rw [e] at hp; cases hp).mono (by simp [Footprint.le, footprint]))
    · cases hq
  | popPsw =>
    dsimp only [exec, execPopPsw] at h
    obtain ⟨⟨v, u⟩, h1, h⟩ := bind_ok.mp (fin h)
    cases h
    exact ((only_pop16 h1).mono (by simp [Footprint.le, footprint])).trans
      (((only_setAcc u _).mono (by simp [Footprint.le, footprint])).trans
        ((only_setAllFlags _ _).mono (by simp [Footprint.le, footprint])))
  | xthl =>
    dsimp only [exec, execXthl] at h
    obtain ⟨v, -, h⟩ := bind_ok.mp (fin h)
    obtain ⟨u, h1, h⟩ := bind_ok.mp h
    cases h
    exact ((only_memWrite16 h1).mono (by simp [Footprint.le, footprint, asAddress])).trans
      ((only_setPair u v (p := .hl) (by simp)).mono (by simp [Footprint.le, footprint, regsOf]))
  | sphl => exact nxt h ▸ only_setSp _ _
  | inPort p =>
    dsimp only [exec, execInPort] at h
    obtain ⟨v, -, e⟩ := mapped_ok.mp (fin h)
    exact e ▸ only_setAcc s v
  | outPort p =>
    dsimp only [exec, execOutPort] at h
    have h := fin h
    exact only_ioWrite h
  | hlt =>
    exact nxt h ▸ ⟨fun _ _ => rfl, fun _ _ => rfl, fun _ => rfl, fun _ => rfl, fun _ _ => rfl, fun _ _ => rfl, rfl,
      fun _ => rfl, by simp [footprint], rfl, rfl, rfl⟩
  | nop | ei | di => exact nxt h ▸ .refl _ s
  | undef08 | undef10 | undef18 | undef20 | undef28 | undef30 | undef38 => cases h
  | undefCB | undefD9 | undefDD | undefED | undefFD => cases h

end Sys2Proof.Safety
end

