-- ==== Sys2Proof/Laws/Invariant.lean ====
section
/-! SUPPORT. Every update and shared operation keeps the invariant. -/

namespace Sys2Proof.Safety

open Machine

theorem Invariant.setReg {s : State} (h : Invariant s) (r : Reg) (v : Byte) : Invariant (s.setReg r v) :=
  ⟨h.pc_lt, h.sp_lt, h.mem_wf⟩

theorem Invariant.setAcc {s : State} (h : Invariant s) (v : Byte) : Invariant (s.setAcc v) :=
  ⟨h.pc_lt, h.sp_lt, h.mem_wf⟩

theorem Invariant.setFlags {s : State} (h : Invariant s) (f : Flags) : Invariant (s.setFlags f) :=
  ⟨h.pc_lt, h.sp_lt, h.mem_wf⟩

theorem Invariant.setAccFlags {s : State} (h : Invariant s) (o : AluOut) : Invariant (s.setAccFlags o) :=
  ⟨h.pc_lt, h.sp_lt, h.mem_wf⟩

theorem Invariant.setPc {s : State} (h : Invariant s) (v : Word) : Invariant (s.setPc v) :=
  ⟨wrapAddr_lt v, h.sp_lt, h.mem_wf⟩

theorem Invariant.setSp {s : State} (h : Invariant s) (v : Word) : Invariant (s.setSp v) :=
  ⟨h.pc_lt, wrapAddr_lt v, h.mem_wf⟩

theorem Invariant.setPair {s : State} (h : Invariant s) (p : Pair) (v : Word) : Invariant (s.setPair p v) := by
  cases p
  case sp => exact h.setSp v
  all_goals exact ⟨h.pc_lt, h.sp_lt, h.mem_wf⟩

theorem Invariant.memWrite {s t : State} {a : Int} {v : Byte} (h : Invariant s) (hw : s.memWrite a v = .ok t) :
    Invariant t := by
  by_cases ha : inMemory a
  · rw [State.memWrite_ok s v ha] at hw
    cases hw
    exact ⟨h.pc_lt, h.sp_lt, Memory.write_wf v h.mem_wf (by have := ha.1; have := ha.2; omega)⟩
  · rw [State.memWrite_error s v ha] at hw
    cases hw

theorem Invariant.memWrite16 {s t : State} {a : Int} {v : Word} (h : Invariant s) (hw : s.memWrite16 a v = .ok t) :
    Invariant t := by
  obtain ⟨u, h1, h2⟩ := bind_ok.mp hw
  exact (h.memWrite h1).memWrite h2

theorem Invariant.push16 {s t : State} {v : Word} (h : Invariant s) (hp : s.push16 v = .ok t) : Invariant t := by
  obtain ⟨u, h1, hp⟩ := bind_ok.mp hp
  obtain ⟨w, h2, hp⟩ := bind_ok.mp hp
  cases hp
  exact ((h.memWrite h1).memWrite h2).setSp _

theorem Invariant.pop16 {s t : State} {v : Word} (h : Invariant s) (hp : s.pop16 = .ok (v, t)) : Invariant t := by
  obtain ⟨w, -, hp⟩ := bind_ok.mp hp
  cases hp
  exact h.setSp _

theorem Invariant.callTo {s t : State} {a : Word} (h : Invariant s) (hc : s.callTo a = .ok t) : Invariant t := by
  obtain ⟨u, h1, hc⟩ := bind_ok.mp hc
  cases hc
  exact (h.push16 h1).setPc _

theorem Invariant.returnFromCall {s t : State} (h : Invariant s) (hr : s.returnFromCall = .ok t) : Invariant t := by
  obtain ⟨⟨v, u⟩, h1, hr⟩ := bind_ok.mp hr
  cases hr
  exact (h.pop16 h1).setPc _

theorem Invariant.ioWrite {s t : State} {port v : Byte} (h : Invariant s) (hw : s.ioWrite port v = .ok t) :
    Invariant t := by
  unfold State.ioWrite at hw
  split at hw
  · cases hw; exact ⟨h.pc_lt, h.sp_lt, h.mem_wf⟩
  · cases hw

/-- Whatever a fault leaves free, pc and sp are below MEMSIZE and memory is canonical. -/
theorem Invariant.recordFault (s : State) (f : Fault) : Invariant (s.recordFault f) where
  pc_lt := by rw [State.recordFault]; exact wrapAddr_lt _
  sp_lt := by rw [State.recordFault]; exact wrapAddr_lt _
  mem_wf := by simp only [State.recordFault]; exact Memory.ofBytes_wf fun a => Config.unspecifiedByte (s, f) (25 + a)

end Sys2Proof.Safety
end

