-- ==== Sys2Proof/Laws/PerInstr.lean ====
section
/-! SUPPORT. One lemma per constructor of Instr. The family `Encoding`: the first byte of an instruction's encoding tells
its length (spec/30_encoding.md rule R80). -/

namespace Sys2Proof.Laws.Encoding

/-- An instruction that has an encoding is encoded as an opcode and as many operand bytes as that opcode asks for. -/
def Statement (i : Instr) : Prop :=
  i.wellFormed = true → ∃ op operands, encode i = op :: operands ∧ opcodeLength op = operands.length + 1

/-- The eight restart numbers. -/
theorem restart_cases {P : BitVec 3 → Prop} (h : ∀ n : Fin 8, P ⟨n⟩) : ∀ n, P n := fun ⟨n⟩ => h n

theorem movRR (dst src : Reg) : Statement (.movRR dst src) := by
  cases dst <;> cases src <;> exact fun _ => ⟨_, _, rfl, rfl⟩

theorem movRM (dst : Reg) : Statement (.movRM dst) := by
  cases dst <;> exact fun _ => ⟨_, _, rfl, rfl⟩

theorem movMR (src : Reg) : Statement (.movMR src) := by
  cases src <;> exact fun _ => ⟨_, _, rfl, rfl⟩

theorem mviR (dst : Reg) (v : Byte) : Statement (.mviR dst v) := by
  cases dst <;> exact fun _ => ⟨_, _, rfl, rfl⟩

theorem mviM (v : Byte) : Statement (.mviM v) := fun _ => ⟨_, _, rfl, rfl⟩

theorem lxi (p : Pair) (v : Word) : Statement (.lxi p v) := by
  cases p <;> exact fun _ => ⟨_, _, rfl, rfl⟩

theorem lda (a : Word) : Statement (.lda a) := fun _ => ⟨_, _, rfl, rfl⟩

theorem sta (a : Word) : Statement (.sta a) := fun _ => ⟨_, _, rfl, rfl⟩

theorem lhld (a : Word) : Statement (.lhld a) := fun _ => ⟨_, _, rfl, rfl⟩

theorem shld (a : Word) : Statement (.shld a) := fun _ => ⟨_, _, rfl, rfl⟩

theorem ldax (p : Pair) : Statement (.ldax p) := by
  cases p <;> first | exact fun h => absurd h (by decide) | exact fun _ => ⟨_, _, rfl, rfl⟩

theorem stax (p : Pair) : Statement (.stax p) := by
  cases p <;> first | exact fun h => absurd h (by decide) | exact fun _ => ⟨_, _, rfl, rfl⟩

theorem xchg : Statement .xchg := fun _ => ⟨_, _, rfl, rfl⟩

theorem addR (r : Reg) : Statement (.addR r) := by
  cases r <;> exact fun _ => ⟨_, _, rfl, rfl⟩

theorem addM : Statement .addM := fun _ => ⟨_, _, rfl, rfl⟩

theorem adcR (r : Reg) : Statement (.adcR r) := by
  cases r <;> exact fun _ => ⟨_, _, rfl, rfl⟩

theorem adcM : Statement .adcM := fun _ => ⟨_, _, rfl, rfl⟩

theorem subR (r : Reg) : Statement (.subR r) := by
  cases r <;> exact fun _ => ⟨_, _, rfl, rfl⟩

theorem subM : Statement .subM := fun _ => ⟨_, _, rfl, rfl⟩

theorem sbbR (r : Reg) : Statement (.sbbR r) := by
  cases r <;> exact fun _ => ⟨_, _, rfl, rfl⟩

theorem sbbM : Statement .sbbM := fun _ => ⟨_, _, rfl, rfl⟩

theorem anaR (r : Reg) : Statement (.anaR r) := by
  cases r <;> exact fun _ => ⟨_, _, rfl, rfl⟩

theorem anaM : Statement .anaM := fun _ => ⟨_, _, rfl, rfl⟩

theorem xraR (r : Reg) : Statement (.xraR r) := by
  cases r <;> exact fun _ => ⟨_, _, rfl, rfl⟩

theorem xraM : Statement .xraM := fun _ => ⟨_, _, rfl, rfl⟩

theorem oraR (r : Reg) : Statement (.oraR r) := by
  cases r <;> exact fun _ => ⟨_, _, rfl, rfl⟩

theorem oraM : Statement .oraM := fun _ => ⟨_, _, rfl, rfl⟩

theorem cmpR (r : Reg) : Statement (.cmpR r) := by
  cases r <;> exact fun _ => ⟨_, _, rfl, rfl⟩

theorem cmpM : Statement .cmpM := fun _ => ⟨_, _, rfl, rfl⟩

theorem adi (v : Byte) : Statement (.adi v) := fun _ => ⟨_, _, rfl, rfl⟩

theorem aci (v : Byte) : Statement (.aci v) := fun _ => ⟨_, _, rfl, rfl⟩

theorem sui (v : Byte) : Statement (.sui v) := fun _ => ⟨_, _, rfl, rfl⟩

theorem sbi (v : Byte) : Statement (.sbi v) := fun _ => ⟨_, _, rfl, rfl⟩

theorem ani (v : Byte) : Statement (.ani v) := fun _ => ⟨_, _, rfl, rfl⟩

theorem xri (v : Byte) : Statement (.xri v) := fun _ => ⟨_, _, rfl, rfl⟩

theorem ori (v : Byte) : Statement (.ori v) := fun _ => ⟨_, _, rfl, rfl⟩

theorem cpi (v : Byte) : Statement (.cpi v) := fun _ => ⟨_, _, rfl, rfl⟩

theorem inrR (r : Reg) : Statement (.inrR r) := by
  cases r <;> exact fun _ => ⟨_, _, rfl, rfl⟩

theorem inrM : Statement .inrM := fun _ => ⟨_, _, rfl, rfl⟩

theorem dcrR (r : Reg) : Statement (.dcrR r) := by
  cases r <;> exact fun _ => ⟨_, _, rfl, rfl⟩

theorem dcrM : Statement .dcrM := fun _ => ⟨_, _, rfl, rfl⟩

theorem inx (p : Pair) : Statement (.inx p) := by
  cases p <;> exact fun _ => ⟨_, _, rfl, rfl⟩

theorem dcx (p : Pair) : Statement (.dcx p) := by
  cases p <;> exact fun _ => ⟨_, _, rfl, rfl⟩

theorem dad (p : Pair) : Statement (.dad p) := by
  cases p <;> exact fun _ => ⟨_, _, rfl, rfl⟩

theorem daa : Statement .daa := fun _ => ⟨_, _, rfl, rfl⟩

theorem rlc : Statement .rlc := fun _ => ⟨_, _, rfl, rfl⟩

theorem rrc : Statement .rrc := fun _ => ⟨_, _, rfl, rfl⟩

theorem ral : Statement .ral := fun _ => ⟨_, _, rfl, rfl⟩

theorem rar : Statement .rar := fun _ => ⟨_, _, rfl, rfl⟩

theorem cma : Statement .cma := fun _ => ⟨_, _, rfl, rfl⟩

theorem cmc : Statement .cmc := fun _ => ⟨_, _, rfl, rfl⟩

theorem stc : Statement .stc := fun _ => ⟨_, _, rfl, rfl⟩

theorem jmp (a : Word) : Statement (.jmp a) := fun _ => ⟨_, _, rfl, rfl⟩

theorem jnz (a : Word) : Statement (.jnz a) := fun _ => ⟨_, _, rfl, rfl⟩

theorem jz (a : Word) : Statement (.jz a) := fun _ => ⟨_, _, rfl, rfl⟩

theorem jnc (a : Word) : Statement (.jnc a) := fun _ => ⟨_, _, rfl, rfl⟩

theorem jc (a : Word) : Statement (.jc a) := fun _ => ⟨_, _, rfl, rfl⟩

theorem jpo (a : Word) : Statement (.jpo a) := fun _ => ⟨_, _, rfl, rfl⟩

theorem jpe (a : Word) : Statement (.jpe a) := fun _ => ⟨_, _, rfl, rfl⟩

theorem jp (a : Word) : Statement (.jp a) := fun _ => ⟨_, _, rfl, rfl⟩

theorem jm (a : Word) : Statement (.jm a) := fun _ => ⟨_, _, rfl, rfl⟩

theorem call (a : Word) : Statement (.call a) := fun _ => ⟨_, _, rfl, rfl⟩

theorem cnz (a : Word) : Statement (.cnz a) := fun _ => ⟨_, _, rfl, rfl⟩

theorem cz (a : Word) : Statement (.cz a) := fun _ => ⟨_, _, rfl, rfl⟩

theorem cnc (a : Word) : Statement (.cnc a) := fun _ => ⟨_, _, rfl, rfl⟩

theorem cc (a : Word) : Statement (.cc a) := fun _ => ⟨_, _, rfl, rfl⟩

theorem cpo (a : Word) : Statement (.cpo a) := fun _ => ⟨_, _, rfl, rfl⟩

theorem cpe (a : Word) : Statement (.cpe a) := fun _ => ⟨_, _, rfl, rfl⟩

theorem cp (a : Word) : Statement (.cp a) := fun _ => ⟨_, _, rfl, rfl⟩

theorem cm (a : Word) : Statement (.cm a) := fun _ => ⟨_, _, rfl, rfl⟩

theorem ret : Statement .ret := fun _ => ⟨_, _, rfl, rfl⟩

theorem rnz : Statement .rnz := fun _ => ⟨_, _, rfl, rfl⟩

theorem rz : Statement .rz := fun _ => ⟨_, _, rfl, rfl⟩

theorem rnc : Statement .rnc := fun _ => ⟨_, _, rfl, rfl⟩

theorem rc : Statement .rc := fun _ => ⟨_, _, rfl, rfl⟩

theorem rpo : Statement .rpo := fun _ => ⟨_, _, rfl, rfl⟩

theorem rpe : Statement .rpe := fun _ => ⟨_, _, rfl, rfl⟩

theorem rp : Statement .rp := fun _ => ⟨_, _, rfl, rfl⟩

theorem rm : Statement .rm := fun _ => ⟨_, _, rfl, rfl⟩

theorem rst (n : BitVec 3) : Statement (.rst n) := by
  revert n; apply restart_cases; intro n; fin_cases n <;> exact fun _ => ⟨_, _, rfl, rfl⟩

theorem pchl : Statement .pchl := fun _ => ⟨_, _, rfl, rfl⟩

theorem push (p : Pair) : Statement (.push p) := by
  cases p <;> first | exact fun h => absurd h (by decide) | exact fun _ => ⟨_, _, rfl, rfl⟩

theorem pushPsw : Statement .pushPsw := fun _ => ⟨_, _, rfl, rfl⟩

theorem pop (p : Pair) : Statement (.pop p) := by
  cases p <;> first | exact fun h => absurd h (by decide) | exact fun _ => ⟨_, _, rfl, rfl⟩

theorem popPsw : Statement .popPsw := fun _ => ⟨_, _, rfl, rfl⟩

theorem xthl : Statement .xthl := fun _ => ⟨_, _, rfl, rfl⟩

theorem sphl : Statement .sphl := fun _ => ⟨_, _, rfl, rfl⟩

theorem inPort (port : Byte) : Statement (.inPort port) := fun _ => ⟨_, _, rfl, rfl⟩

theorem outPort (port : Byte) : Statement (.outPort port) := fun _ => ⟨_, _, rfl, rfl⟩

theorem hlt : Statement .hlt := fun _ => ⟨_, _, rfl, rfl⟩

theorem nop : Statement .nop := fun _ => ⟨_, _, rfl, rfl⟩

theorem ei : Statement .ei := fun _ => ⟨_, _, rfl, rfl⟩

theorem di : Statement .di := fun _ => ⟨_, _, rfl, rfl⟩

theorem undef08 : Statement .undef08 := fun _ => ⟨_, _, rfl, rfl⟩

theorem undef10 : Statement .undef10 := fun _ => ⟨_, _, rfl, rfl⟩

theorem undef18 : Statement .undef18 := fun _ => ⟨_, _, rfl, rfl⟩

theorem undef20 : Statement .undef20 := fun _ => ⟨_, _, rfl, rfl⟩

theorem undef28 : Statement .undef28 := fun _ => ⟨_, _, rfl, rfl⟩

theorem undef30 : Statement .undef30 := fun _ => ⟨_, _, rfl, rfl⟩

theorem undef38 : Statement .undef38 := fun _ => ⟨_, _, rfl, rfl⟩

theorem undefCB : Statement .undefCB := fun _ => ⟨_, _, rfl, rfl⟩

theorem undefD9 : Statement .undefD9 := fun _ => ⟨_, _, rfl, rfl⟩

theorem undefDD : Statement .undefDD := fun _ => ⟨_, _, rfl, rfl⟩

theorem undefED : Statement .undefED := fun _ => ⟨_, _, rfl, rfl⟩

theorem undefFD : Statement .undefFD := fun _ => ⟨_, _, rfl, rfl⟩

end Sys2Proof.Laws.Encoding
end

