-- ==== Sys2Proof/Laws/Step.lean ====
section
/-! SUPPORT. The fetch and the step: what each answers in a running state whose pc is an address. -/

namespace Sys2Proof.Safety

open Machine

/-! ### Fetch -/

/-- The state with pc `n` further on, mod 16384. -/
def advanced (s : State) (n : Nat) : State := { s with pc := BitVec.ofNat 16 ((s.pc.toNat + n) % memSize) }

theorem advanced_pc (s : State) (n : Nat) : (advanced s n).pc.toNat = (s.pc.toNat + n) % memSize := by
  show (BitVec.ofNat 16 ((s.pc.toNat + n) % 16384)).toNat = _
  rw [BitVec.toNat_ofNat]
  show _ = (s.pc.toNat + n) % 16384
  omega

theorem advanced_pc_lt (s : State) (n : Nat) : (advanced s n).pc.toNat < memSize := by
  rw [advanced_pc]; exact Nat.mod_lt _ (by decide)

theorem advanced_zero {s : State} (h : s.pc.toNat < memSize) : advanced s 0 = s := by
  simp [advanced, Nat.mod_eq_of_lt h]

theorem advanced_advanced (s : State) (m n : Nat) : advanced (advanced s m) n = advanced s (m + n) := by
  have h : ((advanced s m).pc.toNat + n) % memSize = (s.pc.toNat + (m + n)) % memSize := by
    rw [advanced_pc, Nat.mod_add_mod, Nat.add_assoc]
  show ({ advanced s m with pc := BitVec.ofNat 16 (((advanced s m).pc.toNat + n) % memSize) } : State) = _
  rw [h]; rfl

@[simp] theorem byteAt_advanced (s : State) (n a : Nat) : byteAt (advanced s n) a = byteAt s a := rfl

theorem setPc_succ (s : State) : s.setPc (s.pc + 1) = advanced s 1 := by
  have h : wrapAddr (s.pc + 1) = BitVec.ofNat 16 ((s.pc.toNat + 1) % memSize) := by
    apply BitVec.eq_of_toNat_eq
    rw [wrapAddr_toNat, BitVec.toNat_add, BitVec.toNat_ofNat]
    show (s.pc.toNat + 1) % 65536 % 16384 = (s.pc.toNat + 1) % 16384 % 65536
    omega
  simp only [State.setPc, h]; rfl

theorem fetch8_ok {s : State} (h : s.pc.toNat < memSize) :
    s.fetch8 = .ok (byteAt s s.pc.toNat, advanced s 1) := by
  simp only [State.fetch8, asAddress, s.memRead_nat h, ok_bind, pure_eq_ok, setPc_succ]
  rfl

theorem fetch16_ok {s : State} (h : s.pc.toNat < memSize) :
    s.fetch16 = .ok (joinBytes (byteAt s ((s.pc.toNat + 1) % memSize)) (byteAt s s.pc.toNat), advanced s 2) := by
  have h1 := fetch8_ok (advanced_pc_lt s 1)
  rw [← advanced_pc]
  unfold State.fetch16
  rw [fetch8_ok h, ok_bind]
  simp only []
  rw [h1, ok_bind, pure_eq_ok, advanced_advanced, byteAt_advanced]

/-- The instruction of an opcode whose operand lies at pc: what `decode` reads from those bytes. -/
theorem fetchOperand_ok {s : State} (h : s.pc.toNat < memSize) (op : Byte) :
    ∃ i rest, decode (op :: bytesFrom s s.pc.toNat 2) = .ok (i, rest) ∧ i.wellFormed = true ∧
      s.fetchOperand (decodeOpcode op) = .ok (i, advanced s ((encode i).length - 1)) := by
  have hs := decodeOpcode_spec op
  cases e : decodeOpcode op with
  | implied i =>
    rw [e] at hs
    refine ⟨i, _, decode_implied _ e, hs.1, ?_⟩
    simp [State.fetchOperand, hs.2, advanced_zero h]
  | wantsByte build =>
    rw [e] at hs
    refine ⟨_, _, decode_wantsByte _ _ e, (hs _).1, ?_⟩
    simp [State.fetchOperand, fetch8_ok h, (hs _).2, Nat.mod_eq_of_lt h]
  | wantsWord build =>
    rw [e] at hs
    refine ⟨_, _, decode_wantsWord _ _ _ e, (hs _).1, ?_⟩
    simp [State.fetchOperand, fetch16_ok h, (hs _).2, Nat.mod_eq_of_lt h, withOperand]

theorem fetchInstr_injected (s : State) (op : Byte) : s.fetchInstr (some op) = s.fetchOperand (decodeOpcode op) := rfl

theorem fetchInstr_fetched {s : State} (h : s.pc.toNat < memSize) :
    s.fetchInstr none = (advanced s 1).fetchOperand (decodeOpcode (byteAt s s.pc.toNat)) := by
  simp only [State.fetchInstr, State.fetchOpcode, fetch8_ok h, ok_bind]

theorem bytesFrom_mod (s : State) (a n : Nat) : bytesFrom s (a % memSize) n = bytesFrom s a n := by
  induction n generalizing a with
  | zero => rfl
  | succ n ih =>
    rw [bytesFrom, bytesFrom, Nat.mod_mod, ← ih (a % memSize + 1), Nat.mod_add_mod, ih]

/-! ### Step -/

theorem ifRunning_of_running {s : State} (h : Running s) (k : Outcome) : s.ifRunning k = k := by
  simp [State.ifRunning, h.1, h.2]

theorem step_of_running {s : State} (h : Running s) : step s = perform s.nextMove s.dropMove := ifRunning_of_running h _

theorem runCycle_of_running {s : State} (h : Running s) (injected : Option Byte) :
    runCycle injected s = match s.fetchInstr injected with
      | .error f => .fault f
      | .ok (i, s1) => exec i s1 := ifRunning_of_running h _

theorem nextMove_runCycle {s : State} (h : s.schedule = [] ∨ s.schedule.head? = some .runCycle) :
    s.nextMove = .runCycle := by
  unfold State.nextMove
  cases hs : s.schedule with
  | nil => rfl
  | cons m rest => rw [hs] at h; simpa using h

theorem nextMove_of_head {s : State} {m : Move} (h : s.schedule.head? = some m) : s.nextMove = m := by
  unfold State.nextMove
  cases hs : s.schedule with
  | nil => rw [hs] at h; cases h
  | cons m' rest => rw [hs] at h; simpa using h

end Sys2Proof.Safety
end

