-- ==== Sys2Proof/Tests/Slice0.lean ====
section
/-! SUPPORT. The model's own tests. Expected values come from the spec: decoding from the matrix of
spec/30_encoding.md rule R91, single steps from the vectors of spec/95_test_vectors.md, each under its name there. After
them, for every statement with hypotheses, a concrete state and operands that meet them. -/

namespace Sys2Proof.Tests

open Machine Safety

/-! ### States and steps of a test -/

/-- One piece of a start or end state, as the vectors list them. -/
inductive Put where
  | reg (r : Reg) (v : Byte)
  | pair (p : Pair) (v : Word)
  | flag (f : Flag) (v : Bool)
  | byte (a : Nat) (v : Byte)
  | pc (v : Word)
  | sp (v : Word)
  | out (port : Fin numWriteLatches) (v : Byte)
  | inp (port : Fin numReadLatches) (v : Byte)
  | shift (v : Word)
  | halted

/-- A state with one piece of it replaced. -/
def Put.into (s : State) : Put → State
  | .reg r v => s.setReg r v
  | .pair p v => s.setPair p v
  | .flag .s v => { s with flags := { s.flags with s := v } }
  | .flag .z v => { s with flags := { s.flags with z := v } }
  | .flag .ac v => { s with flags := { s.flags with ac := v } }
  | .flag .p v => { s with flags := { s.flags with p := v } }
  | .flag .c v => { s with flags := { s.flags with c := v } }
  | .byte a v => { s with mem := s.mem.write a v }
  | .pc v => { s with pc := v }
  | .sp v => { s with sp := v }
  | .out k v => { s with io := { s.io with w := s.io.w.set k.val v } }
  | .inp k v => { s with io := { s.io with rb := s.io.rb.set k.val v } }
  | .shift v => { s with io := { s.io with sr := v } }
  | .halted => { s with halted := true }

/-- The vectors' start state, with what a vector lists: pc 0x0100, sp 0x23FF, everything else 0. -/
def start (l : List Put) : State := l.foldl Put.into { State.reset with pc := 0x0100 }

/-- The start state with an instruction's bytes at pc. -/
def loaded (bytes : List Byte) (l : List Put) : State :=
  { start l with mem := storeFrom (start l).pc bytes (start l).mem }

/-- The outcome is this next state. -/
def isNext : Outcome → State → Bool
  | .next t, u => decide (t = u)
  | _, _ => false

/-- The outcome is this fault. -/
def isFault : Outcome → Fault → Bool
  | .fault f, g => decide (f = g)
  | _, _ => false

/-- A fetched step changes exactly what is listed. -/
def stepGives (bytes : List Byte) (before after : List Put) : Bool :=
  isNext (step (loaded bytes before)) (after.foldl Put.into (loaded bytes before))

/-- A fetched step ends in a fault. -/
def stepFaults (bytes : List Byte) (before : List Put) (f : Fault) : Bool :=
  isFault (step (loaded bytes before)) f

/-- A step with an injected opcode changes exactly what is listed. -/
def injectionGives (op : Byte) (before after : List Put) : Bool :=
  isNext (step { start before with schedule := [.inject op] }) (after.foldl Put.into (start before))

/-- A step with an injected opcode ends in a fault. -/
def injectionFaults (op : Byte) (before : List Put) (f : Fault) : Bool :=
  isFault (step { start before with schedule := [.inject op] }) f


/-! ### The decoding matrix of R91, a row per theorem: the byte, its operand bytes 0x34 and 0x12, the instruction -/

def mapRow0 : List (List Byte × Instr) :=
  [([0b00000000], .nop), ([0b00000001, 0x34, 0x12], .lxi .bc 0x1234), ([0b00000010], .stax .bc),
   ([0b00000011], .inx .bc), ([0b00000100], .inrR .b), ([0b00000101], .dcrR .b), ([0b00000110, 0x34], .mviR .b 0x34),
   ([0b00000111], .rlc), ([0b00001000], .undef08), ([0b00001001], .dad .bc), ([0b00001010], .ldax .bc),
   ([0b00001011], .dcx .bc), ([0b00001100], .inrR .c), ([0b00001101], .dcrR .c), ([0b00001110, 0x34], .mviR .c 0x34),
   ([0b00001111], .rrc)]

theorem test_map0 : ∀ r ∈ mapRow0, decode r.1 = .ok (r.2, []) := by decide

def mapRow1 : List (List Byte × Instr) :=
  [([0b00010000], .undef10), ([0b00010001, 0x34, 0x12], .lxi .de 0x1234), ([0b00010010], .stax .de),
   ([0b00010011], .inx .de), ([0b00010100], .inrR .d), ([0b00010101], .dcrR .d), ([0b00010110, 0x34], .mviR .d 0x34),
   ([0b00010111], .ral), ([0b00011000], .undef18), ([0b00011001], .dad .de), ([0b00011010], .ldax .de),
   ([0b00011011], .dcx .de), ([0b00011100], .inrR .e), ([0b00011101], .dcrR .e), ([0b00011110, 0x34], .mviR .e 0x34),
   ([0b00011111], .rar)]

theorem test_map1 : ∀ r ∈ mapRow1, decode r.1 = .ok (r.2, []) := by decide

def mapRow2 : List (List Byte × Instr) :=
  [([0b00100000], .undef20), ([0b00100001, 0x34, 0x12], .lxi .hl 0x1234), ([0b00100010, 0x34, 0x12], .shld 0x1234),
   ([0b00100011], .inx .hl), ([0b00100100], .inrR .h), ([0b00100101], .dcrR .h), ([0b00100110, 0x34], .mviR .h 0x34),
   ([0b00100111], .daa), ([0b00101000], .undef28), ([0b00101001], .dad .hl),
   ([0b00101010, 0x34, 0x12], .lhld 0x1234), ([0b00101011], .dcx .hl), ([0b00101100], .inrR .l),
   ([0b00101101], .dcrR .l), ([0b00101110, 0x34], .mviR .l 0x34), ([0b00101111], .cma)]

theorem test_map2 : ∀ r ∈ mapRow2, decode r.1 = .ok (r.2, []) := by decide

def mapRow3 : List (List Byte × Instr) :=
  [([0b00110000], .undef30), ([0b00110001, 0x34, 0x12], .lxi .sp 0x1234), ([0b00110010, 0x34, 0x12], .sta 0x1234),
   ([0b00110011], .inx .sp), ([0b00110100], .inrM), ([0b00110101], .dcrM), ([0b00110110, 0x34], .mviM 0x34),
   ([0b00110111], .stc), ([0b00111000], .undef38), ([0b00111001], .dad .sp), ([0b00111010, 0x34, 0x12], .lda 0x1234),
   ([0b00111011], .dcx .sp), ([0b00111100], .inrR .a), ([0b00111101], .dcrR .a), ([0b00111110, 0x34], .mviR .a 0x34),
   ([0b00111111], .cmc)]

theorem test_map3 : ∀ r ∈ mapRow3, decode r.1 = .ok (r.2, []) := by decide

def mapRow4 : List (List Byte × Instr) :=
  [([0b01000000], .movRR .b .b), ([0b01000001], .movRR .b .c), ([0b01000010], .movRR .b .d),
   ([0b01000011], .movRR .b .e), ([0b01000100], .movRR .b .h), ([0b01000101], .movRR .b .l),
   ([0b01000110], .movRM .b), ([0b01000111], .movRR .b .a), ([0b01001000], .movRR .c .b),
   ([0b01001001], .movRR .c .c), ([0b01001010], .movRR .c .d), ([0b01001011], .movRR .c .e),
   ([0b01001100], .movRR .c .h), ([0b01001101], .movRR .c .l), ([0b01001110], .movRM .c),
   ([0b01001111], .movRR .c .a)]

theorem test_map4 : ∀ r ∈ mapRow4, decode r.1 = .ok (r.2, []) := by decide

def mapRow5 : List (List Byte × Instr) :=
  [([0b01010000], .movRR .d .b), ([0b01010001], .movRR .d .c), ([0b01010010], .movRR .d .d),
   ([0b01010011], .movRR .d .e), ([0b01010100], .movRR .d .h), ([0b01010101], .movRR .d .l),
   ([0b01010110], .movRM .d), ([0b01010111], .movRR .d .a), ([0b01011000], .movRR .e .b),
   ([0b01011001], .movRR .e .c), ([0b01011010], .movRR .e .d), ([0b01011011], .movRR .e .e),
   ([0b01011100], .movRR .e .h), ([0b01011101], .movRR .e .l), ([0b01011110], .movRM .e),
   ([0b01011111], .movRR .e .a)]

theorem test_map5 : ∀ r ∈ mapRow5, decode r.1 = .ok (r.2, []) := by decide

def mapRow6 : List (List Byte × Instr) :=
  [([0b01100000], .movRR .h .b), ([0b01100001], .movRR .h .c), ([0b01100010], .movRR .h .d),
   ([0b01100011], .movRR .h .e), ([0b01100100], .movRR .h .h), ([0b01100101], .movRR .h .l),
   ([0b01100110], .movRM .h), ([0b01100111], .movRR .h .a), ([0b01101000], .movRR .l .b),
   ([0b01101001], .movRR .l .c), ([0b01101010], .movRR .l .d), ([0b01101011], .movRR .l .e),
   ([0b01101100], .movRR .l .h), ([0b01101101], .movRR .l .l), ([0b01101110], .movRM .l),
   ([0b01101111], .movRR .l .a)]

theorem test_map6 : ∀ r ∈ mapRow6, decode r.1 = .ok (r.2, []) := by decide

def mapRow7 : List (List Byte × Instr) :=
  [([0b01110000], .movMR .b), ([0b01110001], .movMR .c), ([0b01110010], .movMR .d), ([0b01110011], .movMR .e),
   ([0b01110100], .movMR .h), ([0b01110101], .movMR .l), ([0b01110110], .hlt), ([0b01110111], .movMR .a),
   ([0b01111000], .movRR .a .b), ([0b01111001], .movRR .a .c), ([0b01111010], .movRR .a .d),
   ([0b01111011], .movRR .a .e), ([0b01111100], .movRR .a .h), ([0b01111101], .movRR .a .l),
   ([0b01111110], .movRM .a), ([0b01111111], .movRR .a .a)]

theorem test_map7 : ∀ r ∈ mapRow7, decode r.1 = .ok (r.2, []) := by decide

def mapRow8 : List (List Byte × Instr) :=
  [([0b10000000], .addR .b), ([0b10000001], .addR .c), ([0b10000010], .addR .d), ([0b10000011], .addR .e),
   ([0b10000100], .addR .h), ([0b10000101], .addR .l), ([0b10000110], .addM), ([0b10000111], .addR .a),
   ([0b10001000], .adcR .b), ([0b10001001], .adcR .c), ([0b10001010], .adcR .d), ([0b10001011], .adcR .e),
   ([0b10001100], .adcR .h), ([0b10001101], .adcR .l), ([0b10001110], .adcM), ([0b10001111], .adcR .a)]

theorem test_map8 : ∀ r ∈ mapRow8, decode r.1 = .ok (r.2, []) := by decide

def mapRow9 : List (List Byte × Instr) :=
  [([0b10010000], .subR .b), ([0b10010001], .subR .c), ([0b10010010], .subR .d), ([0b10010011], .subR .e),
   ([0b10010100], .subR .h), ([0b10010101], .subR .l), ([0b10010110], .subM), ([0b10010111], .subR .a),
   ([0b10011000], .sbbR .b), ([0b10011001], .sbbR .c), ([0b10011010], .sbbR .d), ([0b10011011], .sbbR .e),
   ([0b10011100], .sbbR .h), ([0b10011101], .sbbR .l), ([0b10011110], .sbbM), ([0b10011111], .sbbR .a)]

theorem test_map9 : ∀ r ∈ mapRow9, decode r.1 = .ok (r.2, []) := by decide

def mapRowA : List (List Byte × Instr) :=
  [([0b10100000], .anaR .b), ([0b10100001], .anaR .c), ([0b10100010], .anaR .d), ([0b10100011], .anaR .e),
   ([0b10100100], .anaR .h), ([0b10100101], .anaR .l), ([0b10100110], .anaM), ([0b10100111], .anaR .a),
   ([0b10101000], .xraR .b), ([0b10101001], .xraR .c), ([0b10101010], .xraR .d), ([0b10101011], .xraR .e),
   ([0b10101100], .xraR .h), ([0b10101101], .xraR .l), ([0b10101110], .xraM), ([0b10101111], .xraR .a)]

theorem test_mapA : ∀ r ∈ mapRowA, decode r.1 = .ok (r.2, []) := by decide

def mapRowB : List (List Byte × Instr) :=
  [([0b10110000], .oraR .b), ([0b10110001], .oraR .c), ([0b10110010], .oraR .d), ([0b10110011], .oraR .e),
   ([0b10110100], .oraR .h), ([0b10110101], .oraR .l), ([0b10110110], .oraM), ([0b10110111], .oraR .a),
   ([0b10111000], .cmpR .b), ([0b10111001], .cmpR .c), ([0b10111010], .cmpR .d), ([0b10111011], .cmpR .e),
   ([0b10111100], .cmpR .h), ([0b10111101], .cmpR .l), ([0b10111110], .cmpM), ([0b10111111], .cmpR .a)]

theorem test_mapB : ∀ r ∈ mapRowB, decode r.1 = .ok (r.2, []) := by decide

def mapRowC : List (List Byte × Instr) :=
  [([0b11000000], .rnz), ([0b11000001], .pop .bc), ([0b11000010, 0x34, 0x12], .jnz 0x1234),
   ([0b11000011, 0x34, 0x12], .jmp 0x1234), ([0b11000100, 0x34, 0x12], .cnz 0x1234), ([0b11000101], .push .bc),
   ([0b11000110, 0x34], .adi 0x34), ([0b11000111], .rst 0), ([0b11001000], .rz), ([0b11001001], .ret),
   ([0b11001010, 0x34, 0x12], .jz 0x1234), ([0b11001011], .undefCB), ([0b11001100, 0x34, 0x12], .cz 0x1234),
   ([0b11001101, 0x34, 0x12], .call 0x1234), ([0b11001110, 0x34], .aci 0x34), ([0b11001111], .rst 1)]

theorem test_mapC : ∀ r ∈ mapRowC, decode r.1 = .ok (r.2, []) := by decide

def mapRowD : List (List Byte × Instr) :=
  [([0b11010000], .rnc), ([0b11010001], .pop .de), ([0b11010010, 0x34, 0x12], .jnc 0x1234),
   ([0b11010011, 0x34], .outPort 0x34), ([0b11010100, 0x34, 0x12], .cnc 0x1234), ([0b11010101], .push .de),
   ([0b11010110, 0x34], .sui 0x34), ([0b11010111], .rst 2), ([0b11011000], .rc), ([0b11011001], .undefD9),
   ([0b11011010, 0x34, 0x12], .jc 0x1234), ([0b11011011, 0x34], .inPort 0x34),
   ([0b11011100, 0x34, 0x12], .cc 0x1234), ([0b11011101], .undefDD), ([0b11011110, 0x34], .sbi 0x34),
   ([0b11011111], .rst 3)]

theorem test_mapD : ∀ r ∈ mapRowD, decode r.1 = .ok (r.2, []) := by decide

def mapRowE : List (List Byte × Instr) :=
  [([0b11100000], .rpo), ([0b11100001], .pop .hl), ([0b11100010, 0x34, 0x12], .jpo 0x1234), ([0b11100011], .xthl),
   ([0b11100100, 0x34, 0x12], .cpo 0x1234), ([0b11100101], .push .hl), ([0b11100110, 0x34], .ani 0x34),
   ([0b11100111], .rst 4), ([0b11101000], .rpe), ([0b11101001], .pchl), ([0b11101010, 0x34, 0x12], .jpe 0x1234),
   ([0b11101011], .xchg), ([0b11101100, 0x34, 0x12], .cpe 0x1234), ([0b11101101], .undefED),
   ([0b11101110, 0x34], .xri 0x34), ([0b11101111], .rst 5)]

theorem test_mapE : ∀ r ∈ mapRowE, decode r.1 = .ok (r.2, []) := by decide

def mapRowF : List (List Byte × Instr) :=
  [([0b11110000], .rp), ([0b11110001], .popPsw), ([0b11110010, 0x34, 0x12], .jp 0x1234), ([0b11110011], .di),
   ([0b11110100, 0x34, 0x12], .cp 0x1234), ([0b11110101], .pushPsw), ([0b11110110, 0x34], .ori 0x34),
   ([0b11110111], .rst 6), ([0b11111000], .rm), ([0b11111001], .sphl), ([0b11111010, 0x34, 0x12], .jm 0x1234),
   ([0b11111011], .ei), ([0b11111100, 0x34, 0x12], .cm 0x1234), ([0b11111101], .undefFD),
   ([0b11111110, 0x34], .cpi 0x34), ([0b11111111], .rst 7)]

theorem test_mapF : ∀ r ∈ mapRowF, decode r.1 = .ok (r.2, []) := by decide

/-! ### Vectors of spec/95_test_vectors.md, under their names there -/

theorem test_DT1 : stepGives [0x41] [.reg .c 0x5A] [.reg .b 0x5A, .pc 0x0101] = true := by decide

theorem test_DT3 : stepGives [0x66] [.pair .hl 0x2010, .byte 0x2010 0x30] [.reg .h 0x30, .pc 0x0101] = true := by decide

theorem test_DT4 : stepGives [0x74] [.pair .hl 0x2010] [.pc 0x0101, .byte 0x2010 0x20] = true := by decide

theorem test_DT5 : stepFaults [0x77] [.pair .hl 0x4000, .reg .a 0x01] (.outOfRange 0x4000) = true := by decide

theorem test_FT14 : stepGives [0x3E, 0x77] [.pc 0x3FFF] [.reg .a 0x77, .pc 0x0001] = true := by decide

theorem test_DT8 : stepGives [0x36, 0x07] [.pair .hl 0x2000] [.pc 0x0102, .byte 0x2000 0x07] = true := by decide

theorem test_DT9 : stepGives [0x01, 0xEF, 0xBE] [] [.reg .b 0xBE, .reg .c 0xEF, .pc 0x0103] = true := by decide

theorem test_DT10 : stepGives [0x31, 0x00, 0x40] [] [.pc 0x0103, .sp 0x0000] = true := by decide

theorem test_DT23 :
    stepGives [0x3A, 0x34, 0x12] [.pc 0x3FFE, .byte 0x1234 0x99] [.reg .a 0x99, .pc 0x0001] = true := by decide

theorem test_DT6 : stepGives [0x7E] [.pair .hl 0x3FFF, .byte 0x3FFF 0xEE] [.reg .a 0xEE, .pc 0x0101] = true := by decide

theorem test_DT13 : stepFaults [0x3A, 0x00, 0x40] [] (.outOfRange 0x4000) = true := by decide

theorem test_DT14 : stepGives [0x32, 0x00, 0x21] [.reg .a 0x42] [.pc 0x0103, .byte 0x2100 0x42] = true := by decide

theorem test_DT15 :
    stepGives [0x2A, 0x00, 0x22] [.byte 0x2200 0xCD, .byte 0x2201 0xAB]
      [.reg .h 0xAB, .reg .l 0xCD, .pc 0x0103] = true := by decide

theorem test_DT16 : stepFaults [0x2A, 0xFF, 0x3F] [.byte 0x3FFF 0x11] (.outOfRange 0x4000) = true := by decide

theorem test_DT17 :
    stepGives [0x22, 0x00, 0x22] [.pair .hl 0xABCD]
      [.pc 0x0103, .byte 0x2200 0xCD, .byte 0x2201 0xAB] = true := by decide

theorem test_DT18 :
    stepGives [0x0A] [.pair .bc 0x2003, .byte 0x2003 0x77] [.reg .a 0x77, .pc 0x0101] = true := by decide

theorem test_DT20 :
    stepGives [0x02] [.pair .bc 0x2100, .reg .a 0x5C] [.pc 0x0101, .byte 0x2100 0x5C] = true := by decide

theorem test_DT21 : stepFaults [0x12] [.pair .de 0xFFFF, .reg .a 0x5C] (.outOfRange 0xFFFF) = true := by decide

theorem test_DT22 :
    stepGives [0xEB] [.pair .de 0x1122, .pair .hl 0x3344]
      [.reg .d 0x33, .reg .e 0x44, .reg .h 0x11, .reg .l 0x22, .pc 0x0101] = true := by decide

theorem test_AR1 :
    stepGives [0x80] [.reg .a 0xFF, .reg .b 0x01]
      [.reg .a 0x00, .flag .z true, .flag .ac true, .flag .p true, .flag .c true, .pc 0x0101] = true := by decide

theorem test_AR2 :
    stepGives [0x80] [.reg .a 0x7F, .reg .b 0x01]
      [.reg .a 0x80, .flag .s true, .flag .ac true, .pc 0x0101] = true := by decide

theorem test_AR5 :
    stepGives [0x86] [.reg .a 0x10, .pair .hl 0x2000, .byte 0x2000 0x22] [.reg .a 0x32, .pc 0x0101] = true := by decide

theorem test_AR6 :
    stepGives [0xC6, 0x00] [.flag .c true, .flag .ac true, .flag .s true]
      [.flag .s false, .flag .z true, .flag .ac false, .flag .p true, .flag .c false, .pc 0x0102] = true := by decide

theorem test_AR7 :
    stepGives [0x88] [.reg .a 0xFF, .reg .b 0xFF, .flag .c true]
      [.flag .s true, .flag .ac true, .flag .p true, .pc 0x0101] = true := by decide

theorem test_AR8 :
    stepGives [0x88] [.reg .a 0x0F, .reg .b 0x00, .flag .c true]
      [.reg .a 0x10, .flag .ac true, .flag .c false, .pc 0x0101] = true := by decide

theorem test_AR9 :
    stepGives [0x8E] [.reg .a 0x01, .pair .hl 0x2000, .flag .c true, .byte 0x2000 0xFE]
      [.reg .a 0x00, .flag .z true, .flag .ac true, .flag .p true, .pc 0x0101] = true := by decide

theorem test_AR10 :
    stepGives [0xCE, 0xBE] [.reg .a 0x56, .flag .c true] [.reg .a 0x15, .flag .ac true, .pc 0x0102] = true := by decide

theorem test_AR12 :
    stepGives [0x90] [.reg .a 0x00, .reg .b 0x01]
      [.reg .a 0xFF, .flag .s true, .flag .p true, .flag .c true, .pc 0x0101] = true := by decide

theorem test_AR14 :
    stepGives [0x90] [.reg .a 0x35, .reg .b 0x10] [.reg .a 0x25, .flag .ac true, .pc 0x0101] = true := by decide

theorem test_AR15 :
    stepGives [0x96] [.reg .a 0x05, .pair .hl 0x2000, .byte 0x2000 0x06]
      [.reg .a 0xFF, .flag .s true, .flag .p true, .flag .c true, .pc 0x0101] = true := by decide

theorem test_AR16 : stepGives [0xD6, 0x01] [.reg .a 0x80] [.reg .a 0x7F, .pc 0x0102] = true := by decide

theorem test_AR17 :
    stepGives [0x98] [.reg .a 0x00, .reg .b 0xFF, .flag .c true]
      [.flag .z true, .flag .p true, .pc 0x0101] = true := by decide

theorem test_AR18 :
    stepGives [0x9D] [.reg .a 0x04, .reg .l 0x02, .flag .c true]
      [.reg .a 0x01, .flag .ac true, .flag .c false, .pc 0x0101] = true := by decide

theorem test_AR19 :
    stepGives [0x9E] [.reg .a 0x10, .pair .hl 0x2000, .flag .c true, .byte 0x2000 0x0F]
      [.reg .a 0x00, .flag .z true, .flag .p true, .flag .c false, .pc 0x0101] = true := by decide

theorem test_AR20 :
    stepGives [0xDE, 0x01] [.reg .a 0x00, .flag .c true] [.reg .a 0xFE, .flag .s true, .pc 0x0102] = true := by decide

theorem test_AR22 :
    stepGives [0x3C] [.reg .a 0xFF, .flag .c true]
      [.reg .a 0x00, .flag .z true, .flag .ac true, .flag .p true, .pc 0x0101] = true := by decide

theorem test_AR23 :
    stepGives [0x34] [.pair .hl 0x2000, .byte 0x2000 0x0F]
      [.flag .ac true, .pc 0x0101, .byte 0x2000 0x10] = true := by decide

theorem test_AR24 : stepFaults [0x34] [.pair .hl 0x8000] (.outOfRange 0x8000) = true := by decide

theorem test_AR25 :
    stepGives [0x05] [.reg .b 0x01, .flag .c true]
      [.reg .b 0x00, .flag .z true, .flag .ac true, .flag .p true, .pc 0x0101] = true := by decide

theorem test_AR26 :
    stepGives [0x05] [.reg .b 0x00] [.reg .b 0xFF, .flag .s true, .flag .p true, .pc 0x0101] = true := by decide

theorem test_AR27 :
    stepGives [0x35] [.pair .hl 0x2000, .byte 0x2000 0x40]
      [.flag .p true, .pc 0x0101, .byte 0x2000 0x3F] = true := by decide

theorem test_AR29 :
    stepGives [0x23] [.pair .hl 0xFFFF, .flag .z false, .flag .c false]
      [.reg .h 0x00, .reg .l 0x00, .pc 0x0101] = true := by decide

theorem test_AR30 : stepGives [0x33] [.sp 0x3FFF] [.pc 0x0101, .sp 0x0000] = true := by decide

theorem test_AR31 : stepGives [0x0B] [.pair .bc 0x0000] [.reg .b 0xFF, .reg .c 0xFF, .pc 0x0101] = true := by decide

theorem test_AR32 : stepGives [0x3B] [.sp 0x0000] [.pc 0x0101, .sp 0x3FFF] = true := by decide

theorem test_AR34 :
    stepGives [0x29] [.pair .hl 0x8000, .flag .z false, .flag .s true]
      [.reg .h 0x00, .flag .c true, .pc 0x0101] = true := by decide

theorem test_AR36 :
    stepGives [0x19] [.pair .hl 0x0001, .pair .de 0x0001, .flag .c true]
      [.reg .l 0x02, .flag .c false, .pc 0x0101] = true := by decide

theorem test_DA1 :
    stepGives [0x27] [.reg .a 0x9B, .flag .c false, .flag .ac false]
      [.reg .a 0x01, .flag .s false, .flag .z false, .flag .ac true, .flag .p false, .flag .c true, .pc 0x0101] = true :=
  by decide

theorem test_DA13 :
    stepGives [0x27] [.reg .a 0xFF, .flag .c false, .flag .ac false]
      [.reg .a 0x05, .flag .s false, .flag .z false, .flag .ac true, .flag .p true, .flag .c false, .pc 0x0101] = true :=
  by decide

theorem test_LG1 :
    stepGives [0xA1] [.reg .a 0xFC, .reg .c 0x0F, .flag .c true, .flag .ac true]
      [.reg .a 0x0C, .flag .ac false, .flag .p true, .flag .c false, .pc 0x0101] = true := by decide

theorem test_LG3 :
    stepGives [0xA6] [.reg .a 0xF0, .pair .hl 0x2000, .flag .c true, .byte 0x2000 0x0F]
      [.reg .a 0x00, .flag .z true, .flag .p true, .flag .c false, .pc 0x0101] = true := by decide

theorem test_LG4 : stepGives [0xE6, 0x0F] [.reg .a 0x3A] [.reg .a 0x0A, .flag .p true, .pc 0x0102] = true := by decide

theorem test_LG6 :
    stepGives [0xA8] [.reg .a 0xFF, .reg .b 0x0F]
      [.reg .a 0xF0, .flag .s true, .flag .p true, .pc 0x0101] = true := by decide

theorem test_LG7 :
    stepGives [0xAE] [.reg .a 0x5C, .pair .hl 0x2000, .byte 0x2000 0x78]
      [.reg .a 0x24, .flag .p true, .pc 0x0101] = true := by decide

theorem test_LG8 : stepGives [0xEE, 0x81] [.reg .a 0x3B] [.reg .a 0xBA, .flag .s true, .pc 0x0102] = true := by decide

theorem test_LG9 :
    stepGives [0xB1] [.reg .a 0x33, .reg .c 0x0F, .flag .c true]
      [.reg .a 0x3F, .flag .p true, .flag .c false, .pc 0x0101] = true := by decide

theorem test_LG10 :
    stepGives [0xB6] [.reg .a 0x80, .pair .hl 0x2000, .byte 0x2000 0x01]
      [.reg .a 0x81, .flag .s true, .flag .p true, .pc 0x0101] = true := by decide

theorem test_LG11 :
    stepGives [0xF6, 0x00] [.reg .a 0x00, .flag .c true, .flag .ac true]
      [.flag .z true, .flag .ac false, .flag .p true, .flag .c false, .pc 0x0102] = true := by decide

theorem test_LG13 :
    stepGives [0xBB] [.reg .a 0x02, .reg .e 0x05] [.flag .s true, .flag .c true, .pc 0x0101] = true := by decide

theorem test_LG14 :
    stepGives [0xBB] [.reg .a 0xE5, .reg .e 0x05] [.flag .s true, .flag .ac true, .pc 0x0101] = true := by decide

theorem test_LG16 :
    stepGives [0xBE] [.reg .a 0x20, .pair .hl 0x2000, .byte 0x2000 0x20]
      [.flag .z true, .flag .ac true, .flag .p true, .pc 0x0101] = true := by decide

theorem test_LG17 :
    stepGives [0xFE, 0x40] [.reg .a 0x3F]
      [.flag .s true, .flag .ac true, .flag .p true, .flag .c true, .pc 0x0102] = true := by decide

theorem test_LG19 : stepGives [0x07] [.reg .a 0xF2] [.reg .a 0xE5, .flag .c true, .pc 0x0101] = true := by decide

theorem test_LG22 : stepGives [0x0F] [.reg .a 0x01] [.reg .a 0x80, .flag .c true, .pc 0x0101] = true := by decide

theorem test_LG24 :
    stepGives [0x17] [.reg .a 0x00, .flag .c true] [.reg .a 0x01, .flag .c false, .pc 0x0101] = true := by decide

theorem test_LG25 :
    stepGives [0x1F] [.reg .a 0x6A, .flag .c true] [.reg .a 0xB5, .flag .c false, .pc 0x0101] = true := by decide

theorem test_LG27 : stepGives [0x2F] [.reg .a 0x51, .flag .z true] [.reg .a 0xAE, .pc 0x0101] = true := by decide

theorem test_LG28 : stepGives [0x3F] [.flag .c true] [.flag .c false, .pc 0x0101] = true := by decide

theorem test_LG29 : stepGives [0x3F] [] [.flag .c true, .pc 0x0101] = true := by decide

theorem test_LG30 : stepGives [0x37] [] [.flag .c true, .pc 0x0101] = true := by decide

theorem test_CT2 : stepGives [0xC3, 0x10, 0x40] [] [.pc 0x0010] = true := by decide

theorem test_CT43 : stepGives [0xC3, 0x00, 0x02] [.pc 0x3FFF] [.pc 0x0200] = true := by decide

theorem test_CT4 : stepGives [0xC2, 0x10, 0x00] [.flag .z false] [.pc 0x0010] = true := by decide

theorem test_CT5 : stepGives [0xC2, 0x10, 0x00] [.flag .z true] [.pc 0x0103] = true := by decide

theorem test_CT6 : stepGives [0xCA, 0x10, 0x00] [.flag .z true] [.pc 0x0010] = true := by decide

theorem test_CT8 : stepGives [0xD2, 0x10, 0x00] [.flag .c false] [.pc 0x0010] = true := by decide

theorem test_CT10 : stepGives [0xDA, 0x10, 0x00] [.flag .c true] [.pc 0x0010] = true := by decide

theorem test_CT13 : stepGives [0xE2, 0x10, 0x00] [.flag .p true] [.pc 0x0103] = true := by decide

theorem test_CT14 : stepGives [0xEA, 0x10, 0x00] [.flag .p true] [.pc 0x0010] = true := by decide

theorem test_CT16 : stepGives [0xF2, 0x10, 0x00] [.flag .s false] [.pc 0x0010] = true := by decide

theorem test_CT18 : stepGives [0xFA, 0x10, 0x00] [.flag .s true] [.pc 0x0010] = true := by decide

theorem test_CT21 :
    stepGives [0xCD, 0x00, 0x10] [] [.pc 0x1000, .sp 0x23FD, .byte 0x23FD 0x03, .byte 0x23FE 0x01] = true := by decide

theorem test_CT22 : stepFaults [0xCD, 0x00, 0x10] [.sp 0x0001] (.outOfRange (-1)) = true := by decide

theorem test_CT24 :
    stepGives [0xDC, 0x34, 0x12] [.flag .c true, .sp 0x2400, .pc 0x0200]
      [.pc 0x1234, .sp 0x23FE, .byte 0x23FE 0x03, .byte 0x23FF 0x02] = true := by decide

theorem test_CT25 :
    stepGives [0xDC, 0x34, 0x12] [.flag .c false, .sp 0x2400, .pc 0x0200] [.pc 0x0203] = true := by decide

theorem test_CT26 :
    stepGives [0xEC, 0x00, 0x20] [.flag .p true, .sp 0x2400]
      [.pc 0x2000, .sp 0x23FE, .byte 0x23FE 0x03, .byte 0x23FF 0x01] = true := by decide

theorem test_CT27 : stepGives [0xFC, 0x00, 0x20] [.flag .s false, .sp 0x2400] [.pc 0x0103] = true := by decide

theorem test_CT28 :
    stepGives [0xC9] [.sp 0x23FE, .byte 0x23FE 0x03, .byte 0x23FF 0x01] [.pc 0x0103, .sp 0x2400] = true := by decide

theorem test_CT31 :
    stepGives [0xC9] [.sp 0x3FFE, .byte 0x3FFE 0x00, .byte 0x3FFF 0x02] [.pc 0x0200, .sp 0x0000] = true := by decide

theorem test_CT32 :
    stepGives [0xF8] [.flag .s true, .sp 0x23FE, .byte 0x23FE 0x50, .byte 0x23FF 0x00]
      [.pc 0x0050, .sp 0x2400] = true := by decide

theorem test_CT33 :
    stepGives [0xF8] [.flag .s false, .sp 0x23FE, .byte 0x23FE 0x50, .byte 0x23FF 0x00] [.pc 0x0101] = true := by decide

theorem test_CT34 :
    stepGives [0xC0] [.flag .z false, .sp 0x23FE, .byte 0x23FE 0x50, .byte 0x23FF 0x00]
      [.pc 0x0050, .sp 0x2400] = true := by decide

theorem test_CT35 :
    stepGives [0xE0] [.flag .p true, .sp 0x23FE, .byte 0x23FE 0x50, .byte 0x23FF 0x00] [.pc 0x0101] = true := by decide

theorem test_CT38 :
    stepGives [0xFF] [.sp 0x2400, .pc 0x1234]
      [.pc 0x0038, .sp 0x23FE, .byte 0x23FE 0x35, .byte 0x23FF 0x12] = true := by decide

theorem test_CT39 :
    injectionGives 0xD7 [.sp 0x2400, .pc 0x1234]
      [.pc 0x0010, .sp 0x23FE, .byte 0x23FE 0x34, .byte 0x23FF 0x12] = true := by decide

theorem test_CT41 : stepGives [0xE9] [.pair .hl 0x8005] [.pc 0x0005] = true := by decide

theorem test_CT42 : stepGives [0x00] [.pc 0x3FFF] [.pc 0x0000] = true := by decide

theorem test_ST2 :
    stepGives [0xD5] [.pair .de 0x8F9D, .sp 0x3A2C]
      [.pc 0x0101, .sp 0x3A2A, .byte 0x3A2A 0x9D, .byte 0x3A2B 0x8F] = true := by decide

theorem test_ST4 : stepFaults [0xC5] [.pair .bc 0x1234, .sp 0x0001] (.outOfRange (-1)) = true := by decide

theorem test_ST9 :
    stepGives [0xD1] [.sp 0x3FFE, .byte 0x3FFE 0x11, .byte 0x3FFF 0x22]
      [.reg .d 0x22, .reg .e 0x11, .pc 0x0101, .sp 0x0000] = true := by decide

theorem test_ST10 : stepFaults [0xD1] [.sp 0x3FFF] (.outOfRange 0x4000) = true := by decide

theorem test_ST11 :
    stepGives [0xF5] [.reg .a 0x1F, .flag .c true, .flag .z true, .flag .p true, .sp 0x2A2A]
      [.pc 0x0101, .sp 0x2A28, .byte 0x2A28 0xA2, .byte 0x2A29 0x1F] = true := by decide

theorem test_ST15 :
    stepGives [0xF1] [.sp 0x2C00, .byte 0x2C00 0x54, .byte 0x2C01 0x12]
      [.reg .a 0x12, .pc 0x0101, .sp 0x2C02] = true := by decide

theorem test_ST16 :
    stepGives [0xF1] [.sp 0x2C00, .byte 0x2C00 0xFF, .byte 0x2C01 0x80]
      [.reg .a 0x80, .flag .s true, .flag .z true, .flag .ac true, .flag .p true, .flag .c true, .pc 0x0101, .sp 0x2C02] = true :=
  by decide

theorem test_ST17 :
    stepGives [0xE3] [.pair .hl 0x0B3C, .sp 0x10AD, .byte 0x10AD 0xF0, .byte 0x10AE 0x0D]
      [.reg .h 0x0D, .reg .l 0xF0, .pc 0x0101, .byte 0x10AD 0x3C, .byte 0x10AE 0x0B] = true := by decide

theorem test_ST18 : stepFaults [0xE3] [.pair .hl 0x0B3C, .sp 0x3FFF] (.outOfRange 0x4000) = true := by decide

theorem test_ST20 : stepGives [0xF9] [.pair .hl 0x6400] [.pc 0x0101, .sp 0x2400] = true := by decide

theorem test_IO7 : stepGives [0xDB, 0x03] [.out 2 0xFA, .shift 0xFFAA] [.reg .a 0xFE, .pc 0x0102] = true := by decide

theorem test_IO11 : stepFaults [0xDB, 0x04] [] (.invalidPort 4) = true := by decide

theorem test_IO1 :
    stepGives [0xD3, 0x04] [.reg .a 0xAA, .shift 0x1234] [.pc 0x0102, .shift 0xAA12, .out 4 0xAA] = true := by decide

theorem test_IO14 : stepFaults [0xD3, 0x07] [.reg .a 0x55] (.invalidPort 7) = true := by decide

theorem test_IO17 : stepGives [0x76] [.pc 0x0005] [.pc 0x0006, .halted] = true := by decide

theorem test_IO18 : injectionGives 0x76 [.pc 0x0005] [.halted] = true := by decide

theorem test_IO20 : stepGives [0xFB] [.pc 0x0008] [.pc 0x0009] = true := by decide

theorem test_IO21 : stepGives [0xF3] [.pc 0x0000] [.pc 0x0001] = true := by decide

theorem test_FT1 : stepFaults [0x08] [] (.decodeFailure 0x08) = true := by decide

theorem test_FT13 : injectionFaults 0xCB [] (.decodeFailure 0xCB) = true := by decide

/-! ### Tests with no vector of their own -/

/-- `stepGives` under other parameters. -/
def stepGivesUnder (p : Params) (bytes : List Byte) (before after : List Put) : Bool :=
  isNext (step { loaded bytes before with params := p }) (after.foldl Put.into { loaded bytes before with params := p })

/-- The parameters with every choice the other way from the default. -/
def otherParams : Params := { pswLayout := .msb0Reading, subAc := .negate, shiftModulus := .legacy }

/-- Vector AR14's note: under SUB_AC = negate AC is 0. -/
theorem test_subNegate : stepGivesUnder otherParams [0x90] [.reg .a 0x35, .reg .b 0x10] [.reg .a 0x25, .pc 0x0101] := by
  decide

/-- Vector ST11's note: 0x45 under msb0_reading. -/
theorem test_pushPswMirrored :
    stepGivesUnder otherParams [0xF5] [.reg .a 0x1F, .flag .c true, .flag .z true, .flag .p true, .sp 0x2A2A]
      [.pc 0x0101, .sp 0x2A28, .byte 0x2A28 0x45, .byte 0x2A29 0x1F] := by decide

/-- Section 2.7's note on IO2: 0xFF written when SR is 0xFF00 gives 0xFFFF, and 0 under the legacy modulus. -/
theorem test_shiftFull :
    stepGives [0xD3, 0x04] [.reg .a 0xFF, .shift 0xFF00] [.out 4 0xFF, .shift 0xFFFF, .pc 0x0102] := by
  decide

theorem test_shiftLegacy :
    stepGivesUnder otherParams [0xD3, 0x04] [.reg .a 0xFF, .shift 0xFF00] [.out 4 0xFF, .shift 0, .pc 0x0102] := by decide

/-- R81: an injected JMP takes its operand bytes at pc. -/
theorem test_injectedOperand :
    isNext (step { loaded [0x34, 0x12] [] with schedule := [.inject 0xC3, .runCycle] })
      { loaded [0x34, 0x12] [.pc 0x0100] with pc := 0x1234, schedule := [.runCycle] } := by decide

/-- R272: bit 7 of latch 1 set, everything else kept. -/
theorem test_setReadBit :
    isNext (step { start [.inp 1 0x01] with schedule := [.setReadBit 1 7 true] }) (start [.inp 1 0x81]) := by decide

/-- R312: no step, fetched or injected, after HLT. -/
theorem test_noStepAfterHalt : step (start [.halted]) = .refused .coreHalted ∧
    step { start [.halted] with schedule := [.inject 0xC7] } = .refused .coreHalted := ⟨rfl, rfl⟩

/-- R38: a fault is kept in `faulted`; no step follows. -/
theorem test_faultIsKept : (advance (loaded [0x08] [])).faulted = some (.decodeFailure 0x08) ∧
    step (advance (loaded [0x08] [])) = .refused .coreFaulted := by
  have h : (advance (loaded [0x08] [])).faulted = some (.decodeFailure 0x08) := by decide
  have h0 : (advance (loaded [0x08] [])).halted = false := by decide
  refine ⟨h, ?_⟩
  unfold step takeStep State.ifRunning
  rw [h0, h]
  rfl

/-- R66, R67, R68: three bytes loaded, read back, and the second one found. -/
theorem test_loadReadFind :
    (match (start []).setRam 0x2000 [0x0A, 0x0B, 0x0C] with
      | .ok s => s.getRange 0x2000 0x2002 == .ok [0x0A, 0x0B, 0x0C] && s.findByte 0x0B 0x2000 == some 0x2001
      | .error _ => false) = true := by decide

/-- R66: a load that runs past the end of memory fails at address 16384. -/
theorem test_loadFails :
    (match (start []).setRam 0x3FFF [1, 2] with
      | .ok _ => none
      | .error f => some f) = some (.outOfRange 0x4000) := by decide

/-- An instruction of the opcode table as the first one after reset: bytes in table order, low byte first. -/
theorem test_withFetchWord :
    isNext (step (State.reset.withFetchWord 24 0x123421)) { State.reset.withFetchWord 24 0x123421 with
      pc := 3, regs := { State.reset.regs with h := 0x12, l := 0x34 } } ∧
    decodeTableWord 24 0x123421 = some (.lxi .hl 0x1234) ∧ decodeTableWord 8 0xC3 = some (.jmp 0) := by decide

/-! ### Ill-formed terms are refused by the well-formedness check -/

theorem test_wellFormed_pushSp : (Instr.push .sp).wellFormed = false := rfl
theorem test_wellFormed_popSp : (Instr.pop .sp).wellFormed = false := rfl
theorem test_wellFormed_ldaxHl : (Instr.ldax .hl).wellFormed = false := rfl
theorem test_wellFormed_ldaxSp : (Instr.ldax .sp).wellFormed = false := rfl
theorem test_wellFormed_staxHl : (Instr.stax .hl).wellFormed = false := rfl
theorem test_wellFormed_staxSp : (Instr.stax .sp).wellFormed = false := rfl

/-! ### Witnesses: the hypotheses of each statement can be met -/

/-- What `isNext` decides. -/
theorem next_of {o : Outcome} {u : State} (h : isNext o u = true) : o = .next u := by
  cases o with
  | next t => exact congrArg _ (of_decide_eq_true h)
  | fault f => cases h
  | refused r => cases h

/-- What `isFault` decides. -/
theorem fault_of {o : Outcome} {f : Fault} (h : isFault o f = true) : o = .fault f := by
  cases o with
  | next t => cases h
  | fault g => exact congrArg _ (of_decide_eq_true h)
  | refused r => cases h

theorem inv_start : Invariant (start []) := ⟨by decide, by decide, by decide⟩
theorem running_start : Running (start []) := ⟨rfl, rfl⟩

theorem witness_DecodeOfEncodeGivesTheInstruction : (Instr.push .hl).wellFormed = true := rfl

theorem witness_EncodeOfDecodeGivesTheBytes : decode [0x3E, 0x05, 0x76] = .ok (.mviR .a 5, [0x76]) := rfl

/-- Enough bytes and one too few, for each length. -/
theorem witness_OpcodeAloneGivesTheLength :
    opcodeLength 0x3A ≤ [1, 2].length + 1 ∧ [(1 : Byte)].length + 1 < opcodeLength 0x3A ∧
    opcodeLength 0x3E ≤ [1].length + 1 ∧ ([] : List Byte).length + 1 < opcodeLength 0x3E ∧
    opcodeLength 0x76 ≤ ([] : List Byte).length + 1 := by decide

theorem witness_TheTwelveUndefinedBytesFailDecoding :
    (0x08 ∈ undefinedBytes ∧ Invariant (loaded [0x08] []) ∧ Running (loaded [0x08] []) ∧
      (loaded [0x08] []).schedule = [] ∧ byteAt (loaded [0x08] []) (loaded [0x08] []).pc.toNat = 0x08) ∧
    (Invariant (withSchedule [.inject 0xFD] (start [])) ∧ Running (withSchedule [.inject 0xFD] (start [])) ∧
      0xFD ∈ undefinedBytes) ∧
    (0x00 : Byte) ∉ undefinedBytes ∧ decode [0x00] = .ok (.nop, []) :=
  ⟨⟨by decide, ⟨by decide, by decide, by decide⟩, ⟨rfl, rfl⟩, rfl, by decide⟩,
    ⟨⟨by decide, by decide, by decide⟩, ⟨rfl, rfl⟩, by decide⟩, by decide, rfl⟩

theorem witness_PairsWithoutAnEncodingAreInvalidRegisters : decode [0xC5] = .ok (.push .bc, []) := rfl

/-- An instruction that straddles the end of memory. -/
theorem witness_StepRunsTheFetchedInstruction :
    let s := loaded [0x3A, 0x34, 0x12] [.pc 0x3FFE]
    Invariant s ∧ Running s ∧ s.schedule = [] ∧ decode (bytesFrom s s.pc.toNat 3) = .ok (.lda 0x1234, []) :=
  ⟨⟨by decide, by decide, by decide⟩, ⟨rfl, rfl⟩, rfl, by decide⟩

theorem witness_StepRunsTheFetchedInstruction_scheduled :
    let s := withSchedule [.runCycle] (loaded [0x80] [])
    Invariant s ∧ Running s ∧ s.schedule.head? = some .runCycle ∧
      decode (bytesFrom s s.pc.toNat 3) = .ok (.addR .b, [0, 0]) :=
  ⟨⟨by decide, by decide, by decide⟩, ⟨rfl, rfl⟩, rfl, by decide⟩

theorem witness_StepRunsTheInjectedOpcode :
    let s := withSchedule [.inject 0xC3] (loaded [0x34, 0x12] [])
    Invariant s ∧ Running s ∧ s.schedule.head? = some (.inject 0xC3) ∧
      decode (0xC3 :: bytesFrom s s.pc.toNat 2) = .ok (.jmp 0x1234, []) :=
  ⟨⟨by decide, by decide, by decide⟩, ⟨rfl, rfl⟩, rfl, by decide⟩

theorem witness_FetchNeverFaults : Invariant (start []) := inv_start

theorem witness_HaltedOrFaultedCoreTakesNoStep :
    (start [.halted]).halted = true ∧
    (start []).halted = false ∧ ((start []).recordFault (.invalidPort 9)).faulted ≠ none := by decide

/-- The lowest sp a push takes. -/
theorem witness_InjectedRestartIsInterruptEntry :
    let s := withSchedule [.inject (0b11#2 ++ 2#3 ++ 0b111#3)] (start [.sp 2])
    Invariant s ∧ Running s ∧ 2 ≤ s.sp.toNat ∧ s.schedule.head? = some (.inject 0xD7) :=
  ⟨⟨by decide, by decide, by decide⟩, ⟨rfl, rfl⟩, by decide, rfl⟩

theorem witness_OnlyTheInputSourceChangesInputLatches :
    let s := withSchedule [.setReadBit 3 7 true] (start [])
    Running s ∧ s.schedule.head? = some (.setReadBit 3 7 true) ∧ ∃ t, step s = .next t ∧ t.io.rb ≠ s.io.rb :=
  ⟨⟨rfl, rfl⟩, rfl, _, rfl, by decide⟩

theorem witness_LaunchMeetsTheInvariant : Memory.wf [(0, 0x3E), (16383, 1)] := by decide

/-- A state that steps. -/
theorem steps_start : ∃ t, step (start []) = .next t := ⟨start [.pc 0x0101], next_of (by decide)⟩

theorem inv_of {s : State} (h : s.pc.toNat < memSize ∧ s.sp.toNat < memSize ∧ Memory.wf s.mem) : Invariant s :=
  ⟨h.1, h.2.1, h.2.2⟩

theorem witness_EveryStepKeepsTheInvariant : Invariant (start []) ∧ ∃ t, step (start []) = .next t :=
  ⟨inv_start, steps_start⟩

/-- A listed fault and a completion on each side of every boundary of the tables. -/
theorem witness_EveryInstructionCompletesOrFaultsAsTabled :
    faultOf .addM (start [.pair .hl 0x3FFF]) = none ∧
    faultOf .addM (start [.pair .hl 0x4000]) = some (.outOfRange 16384) ∧
    faultOf (.lhld 0x3FFE) (start []) = none ∧ faultOf (.lhld 0x3FFF) (start []) = some (.outOfRange 16384) ∧
    faultOf (.shld 0x4000) (start []) = some (.outOfRange 16384) ∧
    faultOf .pushPsw (start [.sp 2]) = none ∧ faultOf .pushPsw (start [.sp 1]) = some (.outOfRange (-1)) ∧
    faultOf .ret (start [.sp 0x3FFE]) = none ∧ faultOf .ret (start [.sp 0x3FFF]) = some (.outOfRange 16384) ∧
    faultOf (.inPort 3) (start []) = none ∧ faultOf (.inPort 4) (start []) = some (.invalidPort 4) ∧
    faultOf (.outPort 6) (start []) = none ∧ faultOf (.outPort 7) (start []) = some (.invalidPort 7) ∧
    faultOf (.cz 0) (start [.sp 1, .flag .z true]) = some (.outOfRange (-1)) ∧
    faultOf (.cz 0) (start [.sp 1]) = none := by decide

theorem witness_EveryInstructionCompletesOrFaultsAsTabled_invariant :
    Invariant (start [.pair .hl 0x4000]) ∧ Invariant (start [.sp 1]) ∧ Invariant (start [.sp 0x3FFF]) :=
  ⟨inv_of (by decide), inv_of (by decide), inv_of (by decide)⟩

theorem witness_OnlyListedInstructionsWriteFlags :
    (∃ t, exec (.inrR .b) (start []) = .next t) ∧ Flag.c ∉ flagsWritten (.inrR .b) := ⟨⟨_, rfl⟩, by decide⟩

theorem witness_OnlyListedBytesAreStoredTo :
    (∃ t, exec (.sta 0x2000) (start []) = .next t) ∧ 0x2001 ∉ bytesStored (.sta 0x2000) (start []) :=
  ⟨⟨start [.byte 0x2000 0], next_of (by decide)⟩, by decide⟩

theorem witness_OnlyOutChangesTheBusAndOnlyHltHalts :
    (∃ t, exec .nop (start []) = .next t) ∧ (∀ p, Instr.nop ≠ .outPort p) ∧ Instr.nop ≠ .hlt :=
  ⟨⟨_, rfl⟩, (fun _ h => nomatch h), by decide⟩

theorem witness_PairsAreViewsOfTheRegisters : Pair.bc ≠ .sp := by decide

/-- The lowest and highest address, and the nearest ones outside. -/
theorem witness_MemoryReadsBackWritesAndFaultsOutside :
    Invariant (start []) ∧ ((0 : Int) ≤ 0 ∧ (0 : Int) < memSize) ∧ ((0 : Int) ≤ 16383 ∧ (16383 : Int) < memSize) ∧
    (-1 : Int) < 0 ∧ (memSize : Int) ≤ 16384 := ⟨inv_start, by decide⟩

/-- A load that just fits, one byte too many, and a search that finds and one that does not. -/
theorem witness_LoaderAndSearchWorkOnTheBytes :
    Invariant (start [.byte 0x3FFF 9]) ∧ 0x3FFE + [(1 : Byte), 2].length ≤ memSize ∧ [(1 : Byte), 2] ≠ [] ∧
    memSize < 0x3FFF + [(1 : Byte), 2].length ∧ (start [.byte 0x3FFF 9]).findByte 9 0x3FFD = some 0x3FFF ∧
    (start [.byte 0x3FFF 9]).findByte 9 0x4000 = none := ⟨inv_of (by decide), by decide⟩

theorem witness_PairLoadAndExchange : Pair.sp = .sp ∧ Pair.hl ≠ .sp := by decide

/-- HL, BC and a direct address at the last byte of memory and at the first one past it. -/
theorem witness_LoadsReadTheAddressedBytes :
    pairNat (start [.pair .hl 0x3FFF]) .hl < memSize ∧ memSize ≤ pairNat (start [.pair .hl 0x4000]) .hl ∧
    pairNat (start [.pair .bc 0x3FFF]) .bc < memSize ∧ memSize ≤ pairNat (start [.pair .bc 0x4000]) .bc ∧
    256 * (0x3F : Byte).toNat + (0xFE : Byte).toNat + 1 < memSize ∧
    256 * (0x3F : Byte).toNat + (0xFF : Byte).toNat < memSize ∧
    256 * (0x3F : Byte).toNat + (0xFF : Byte).toNat + 1 = memSize ∧
    memSize ≤ 256 * (0x40 : Byte).toNat + (0x00 : Byte).toNat := by decide

theorem witness_StoresWriteTheAddressedBytes :
    (Invariant (start [.pair .hl 0x3FFF]) ∧ pairNat (start [.pair .hl 0x3FFF]) .hl < memSize) ∧
    (Invariant (start [.pair .hl 0x4000]) ∧ memSize ≤ pairNat (start [.pair .hl 0x4000]) .hl) ∧
    (Invariant (start [.pair .de 0x3FFF]) ∧ pairNat (start [.pair .de 0x3FFF]) .de < memSize) ∧
    (Invariant (start [.pair .de 0x4000]) ∧ memSize ≤ pairNat (start [.pair .de 0x4000]) .de) :=
  ⟨⟨inv_of (by decide), by decide⟩, ⟨inv_of (by decide), by decide⟩, ⟨inv_of (by decide), by decide⟩,
    ⟨inv_of (by decide), by decide⟩⟩

/-- SHLD and STA: the last address with a byte after it, the last one, the first past memory. -/
theorem witness_StoresWriteTheAddressedBytes_direct :
    256 * (0x3F : Byte).toNat + (0xFE : Byte).toNat + 1 < memSize ∧
    256 * (0x3F : Byte).toNat + (0xFF : Byte).toNat + 1 = memSize ∧
    memSize ≤ 256 * (0x40 : Byte).toNat + (0x00 : Byte).toNat := by decide

/-- For the M forms of ADD, SUB, AND, CMP and their like: HL at the last byte of memory and past it. -/
theorem witness_ForEachOperand : pairNat (start [.pair .hl 0x3FFF]) .hl < memSize ∧
    memSize ≤ pairNat (start [.pair .hl 0x4000]) .hl := by decide

theorem witness_AddsGiveSumAndFlags : pairNat (start [.pair .hl 0x3FFF]) .hl < memSize := witness_ForEachOperand.1

theorem witness_SubtractsGiveDifferenceAndFlags : pairNat (start [.pair .hl 0x3FFF]) .hl < memSize :=
  witness_ForEachOperand.1

theorem witness_LogicalOperationsClearTheCarries : pairNat (start [.pair .hl 0x3FFF]) .hl < memSize :=
  witness_ForEachOperand.1

theorem witness_ComparesKeepTheAccumulator : pairNat (start [.pair .hl 0x3FFF]) .hl < memSize :=
  witness_ForEachOperand.1

/-- The nibbles on both sides of each test: 9 and 10. -/
theorem witness_DaaAdjustsInTwoSteps :
    9 < (start [.reg .a 0xAA]).acc.toNat % 16 ∧ ¬ 9 < (start [.reg .a 0x99]).acc.toNat % 16 ∧
    (start [.reg .a 0x99]).flags.ac = false ∧ 9 < 0xA0 / 16 ∧ ¬ 9 < 0x9F / 16 ∧
    (start [.reg .a 0x99]).flags.c = false := by decide

theorem witness_MemoryStepsKeepTheCarry :
    (Invariant (start [.pair .hl 0x3FFF]) ∧ pairNat (start [.pair .hl 0x3FFF]) .hl < memSize) ∧
    (Invariant (start [.pair .hl 0x4000]) ∧ memSize ≤ pairNat (start [.pair .hl 0x4000]) .hl) :=
  ⟨⟨inv_of (by decide), by decide⟩, ⟨inv_of (by decide), by decide⟩⟩

theorem witness_PairStepsWriteNoFlag : Invariant (start [.sp 0x3FFF]) := inv_of (by decide)

/-- Each condition holds in one state and fails in another. -/
theorem witness_ConditionalJumpsTestOneFlag :
    ∀ k : Cond, ∃ f g : Flags, condTrue k f ∧ ¬ condTrue k g := by
  intro k
  cases k
  case nz | nc | po | p =>
    exact ⟨⟨false, false, false, false, false⟩, ⟨true, true, true, true, true⟩, rfl, by simp [condTrue, Cond.code]⟩
  case z | c | pe | m =>
    exact ⟨⟨true, true, true, true, true⟩, ⟨false, false, false, false, false⟩, rfl, by simp [condTrue, Cond.code]⟩

theorem witness_ConditionalJumpsTestOneFlag_step :
    let s := loaded [0xCA, 0x34, 0x12] []
    Invariant s ∧ Running s ∧ s.schedule = [] ∧
      bytesFrom s s.pc.toNat 3 = [0b11#2 ++ Cond.z.code ++ 0b010#3, 0x34, 0x12] ∧ ¬ condTrue .z s.flags :=
  ⟨inv_of (by decide), ⟨rfl, rfl⟩, rfl, by decide, by unfold condTrue; decide⟩

theorem witness_CallsPushTheReturnAddress :
    (Invariant (start [.sp 2]) ∧ 2 ≤ (start [.sp 2]).sp.toNat) ∧
    (Invariant (start [.sp 1]) ∧ (start [.sp 1]).sp.toNat < 2) :=
  ⟨⟨inv_of (by decide), by decide⟩, inv_of (by decide), by decide⟩

theorem witness_ConditionalCallsPushOnlyWhenTaken :
    (Invariant (start [.sp 2]) ∧ condTrue .nz (start [.sp 2]).flags ∧ 2 ≤ (start [.sp 2]).sp.toNat) ∧
    (Invariant (start [.sp 1]) ∧ condTrue .nz (start [.sp 1]).flags ∧ (start [.sp 1]).sp.toNat < 2) ∧
    ¬ condTrue .z (start [.sp 1]).flags :=
  ⟨⟨inv_of (by decide), rfl, by decide⟩, ⟨inv_of (by decide), rfl, by decide⟩, by unfold condTrue; decide⟩

theorem witness_ReturnPopsThePc :
    (Invariant (start [.sp 0x3FFE]) ∧ (start [.sp 0x3FFE]).sp.toNat + 1 < memSize) ∧
    (Invariant (start [.sp 0x3FFF]) ∧ (start [.sp 0x3FFF]).sp.toNat + 1 = memSize) :=
  ⟨⟨inv_of (by decide), by decide⟩, inv_of (by decide), by decide⟩

theorem witness_ConditionalReturnsPopOnlyWhenTaken :
    (Invariant (start [.sp 0x3FFE]) ∧ condTrue .nz (start [.sp 0x3FFE]).flags ∧
      (start [.sp 0x3FFE]).sp.toNat + 1 < memSize) ∧
    (Invariant (start [.sp 0x3FFF]) ∧ condTrue .nz (start [.sp 0x3FFF]).flags ∧
      (start [.sp 0x3FFF]).sp.toNat + 1 = memSize) ∧
    ¬ condTrue .z (start []).flags :=
  ⟨⟨inv_of (by decide), rfl, by decide⟩, ⟨inv_of (by decide), rfl, by decide⟩, by unfold condTrue; decide⟩

theorem witness_ConditionalReturnsPopOnlyWhenTaken_step :
    let s := loaded [0xC8] []
    Invariant s ∧ Running s ∧ s.schedule = [] ∧ byteAt s s.pc.toNat = 0b11#2 ++ Cond.z.code ++ 0b000#3 ∧
      ¬ condTrue .z s.flags :=
  ⟨inv_of (by decide), ⟨rfl, rfl⟩, rfl, by decide, by unfold condTrue; decide⟩

/-- The lowest sp a CALL takes; the routine's last state is the one it was entered in. -/
theorem witness_ReturnUndoesCall : Invariant (start [.sp 2]) ∧ ∃ t, exec (.call 0x1234) (start [.sp 2]) = .next t :=
  ⟨inv_of (by decide), start [.sp 0, .pc 0x1234, .byte 1 0x01, .byte 0 0x00], next_of (by decide)⟩

theorem witness_PushesStoreHighByteAbove :
    Pair.de ≠ .sp ∧ (Invariant (start [.sp 2]) ∧ 2 ≤ (start [.sp 2]).sp.toNat) ∧
    (Invariant (start [.sp 1]) ∧ (start [.sp 1]).sp.toNat < 2) :=
  ⟨by decide, ⟨inv_of (by decide), by decide⟩, inv_of (by decide), by decide⟩

theorem witness_PopsLoadLowByteBelow :
    Pair.de ≠ .sp ∧ (Invariant (start [.sp 0x3FFE]) ∧ (start [.sp 0x3FFE]).sp.toNat + 1 < memSize) ∧
    (Invariant (start [.sp 0x3FFF]) ∧ (start [.sp 0x3FFF]).sp.toNat + 1 = memSize) :=
  ⟨by decide, ⟨inv_of (by decide), by decide⟩, inv_of (by decide), by decide⟩

theorem witness_HlAndStackExchange :
    (Invariant (start [.sp 0x3FFE]) ∧ (start [.sp 0x3FFE]).sp.toNat + 1 < memSize) ∧
    (Invariant (start [.sp 0x3FFF]) ∧ (start [.sp 0x3FFF]).sp.toNat + 1 = memSize) :=
  ⟨⟨inv_of (by decide), by decide⟩, inv_of (by decide), by decide⟩

theorem witness_PopUndoesPush :
    Invariant (start [.sp 2]) ∧ 2 ≤ (start [.sp 2]).sp.toNat ∧ Pair.bc ≠ .sp ∧ Pair.hl ≠ .sp :=
  ⟨inv_of (by decide), by decide⟩

theorem witness_InputReadsLatchesAndShiftWindow :
    ((0 : Fin numReadLatches) ≠ 3 ∧ (0 : Byte).toNat = (0 : Fin numReadLatches).val) ∧
    ((2 : Fin numReadLatches) ≠ 3 ∧ (2 : Byte).toNat = (2 : Fin numReadLatches).val) ∧ (3 : Byte).toNat = 3 ∧
    3 < (4 : Byte).toNat := by decide

theorem witness_OutputLatchesAndShifts :
    (6 : Byte).toNat = (6 : Fin numWriteLatches).val ∧ (4 : Byte).toNat = (4 : Fin numWriteLatches).val ∧
    6 < (7 : Byte).toNat := by decide

theorem witness_ShiftRegisterHoldsTheLastTwoBytes :
    modulusOf (start []).params.shiftModulus = 65536 ∧ (0xFE : Byte) ≠ 0xFF ∧ (0xFA : Byte).toNat % 8 = 2 := by decide

theorem witness_HaltIsTerminal :
    (Invariant (loaded [0x76] []) ∧ Running (loaded [0x76] []) ∧ (loaded [0x76] []).schedule = [] ∧
      byteAt (loaded [0x76] []) 0x0100 = 0x76) ∧
    Invariant (withSchedule [.inject 0x76] (start [])) ∧ Running (withSchedule [.inject 0x76] (start [])) :=
  ⟨⟨inv_of (by decide), ⟨rfl, rfl⟩, rfl, by decide⟩, inv_of (by decide), ⟨rfl, rfl⟩⟩

/-- A call that does not halt, one that does, and a condition that holds. -/
theorem witness_CycleCountsArePositiveAndOrdered :
    ((∃ t, runCycle none (start []) = .next t) ∧ byteAt (start []) (start []).pc.toNat ≠ 0x76) ∧
    (∃ t, runCycle (some 0x76) (start []) = .next t) ∧ ConditionMet 0xC2 (start []).flags :=
  ⟨⟨⟨start [.pc 0x0101], next_of (by decide)⟩, by decide⟩, ⟨start [.halted], next_of (by decide)⟩,
    .nz, rfl, .inl rfl⟩

theorem witness_FaultsAreRecordedAndEndTheRun :
    step (loaded [0x08] []) = .fault (.decodeFailure 0x08) ∧ ∃ t, step (start []) = .next t :=
  ⟨fault_of (by decide), steps_start⟩

end Sys2Proof.Tests
end

namespace Sys2Proof.Safety

open Machine

/-! ### Register moves (spec/40_data_transfer.md rules R110 and R113) -/

theorem decodeOpcode_movRR (dst src : Reg) :
    decodeOpcode (0b01#2 ++ dst.code ++ src.code) = .implied (.movRR dst src) := by
  cases dst <;> cases src <;> rfl

theorem decodeOpcode_mviR (dst : Reg) : decodeOpcode (0b00#2 ++ dst.code ++ 0b110#3) = .wantsByte (.mviR dst) := by
  cases dst <;> rfl

theorem encodedAs_movRR (dst src : Reg) : EncodedAs (.movRR dst src) [0b01#2 ++ dst.code ++ src.code] :=
  ⟨rfl, decode_implied [] (decodeOpcode_movRR dst src)⟩

theorem encodedAs_mviR (dst : Reg) (v : Byte) : EncodedAs (.mviR dst v) [0b00#2 ++ dst.code ++ 0b110#3, v] :=
  ⟨rfl, decode_wantsByte v [] (decodeOpcode_mviR dst)⟩

/-- An instruction whose whole effect is one register write. -/
theorem completes_of_exec_setReg {i : Instr} {s : State} {r : Reg} {v : Byte} (h : exec i s = .next (s.setReg r v)) :
    Completes i s fun t => t.reg r = v ∧ OnlyChanges { regs := [r] } s t :=
  ⟨s.setReg r v, h, State.reg_setReg_same s r v, only_setReg s r v⟩

theorem exec_movRR (dst src : Reg) (s : State) : exec (.movRR dst src) s = .next (s.setReg dst (s.reg src)) := rfl

theorem exec_mviR (dst : Reg) (v : Byte) (s : State) : exec (.mviR dst v) s = .next (s.setReg dst v) := rfl

/-- Settles O27: each is one `setReg`, whose read-back and frame are known, and each opcode decodes to its instruction
register by register. -/
theorem registerMovesWriteOneRegister : Obligations.RegisterMovesWriteOneRegister := by
  intro s dst src v
  exact ⟨encodedAs_movRR dst src, completes_of_exec_setReg (exec_movRR dst src s),
    encodedAs_mviR dst v, completes_of_exec_setReg (exec_mviR dst v s)⟩

end Sys2Proof.Safety

namespace Sys2Proof.Safety

open Machine

/-! ### The three operand forms of an 8-bit operation -/

theorem encodedAs_of_implied {op : Byte} {i : Instr} (h : decodeOpcode op = .implied i) : EncodedAs i [op] := by
  have spec := decodeOpcode_spec op
  rw [h] at spec
  exact ⟨spec.2, decode_implied [] h⟩

theorem encodedAs_of_wantsByte {op : Byte} {build : Byte → Instr} (v : Byte)
    (h : decodeOpcode op = .wantsByte build) : EncodedAs (build v) [op, v] := by
  have spec := decodeOpcode_spec op
  rw [h] at spec
  exact ⟨(spec v).2, decode_wantsByte v [] h⟩

/-- The decoding of the three forms of operation `op`: quadrant 10 by source (R83) and the immediate column of quadrant
11 (R90). -/
structure FormsDecode (op : BitVec 3) (reg : Reg → Instr) (mem : Instr) (imm : Byte → Instr) : Prop where
  reg : ∀ r : Reg, decodeOpcode (0b10#2 ++ op ++ r.code) = .implied (reg r)
  mem : decodeOpcode (0b10#2 ++ op ++ 0b110#3) = .implied mem
  imm : decodeOpcode (0b11#2 ++ op ++ 0b110#3) = .wantsByte imm

/-- The three forms run one update of the state, on the register, on the byte at HL when there is one, and on the
immediate byte. -/
structure FormsRun (s : State) (update : Byte → State) (reg : Reg → Instr) (mem : Instr) (imm : Byte → Instr) :
    Prop where
  reg : ∀ r, exec (reg r) s = .next (update (s.reg r))
  mem : exec mem s = finish (s.readM.map update)
  imm : ∀ v, exec (imm v) s = .next (update v)

/-- What one update achieves for every operand byte, the three forms that run it achieve. -/
theorem forEachOperand_completes {s : State} {op : BitVec 3} {reg : Reg → Instr} {mem : Instr} {imm : Byte → Instr}
    {update : Byte → State} {post : Byte → State → Prop} (hdecode : FormsDecode op reg mem imm)
    (hrun : FormsRun s update reg mem imm) (hpost : ∀ v, post v (update v)) :
    ForEachOperand s op reg mem imm fun i v => Completes i s (post v) := by
  refine ⟨fun r => ⟨encodedAs_of_implied (hdecode.reg r), _, hrun.reg r, hpost _⟩, encodedAs_of_implied hdecode.mem,
    fun hl => ?inside, fun hl => ?outside, fun v => ⟨encodedAs_of_wantsByte v hdecode.imm, _, hrun.imm v, hpost v⟩⟩
  case inside =>
    have hexec : exec mem s = .next (update (byteAt s (pairNat s .hl))) := by
      rw [hrun.mem, readM_ok s hl, map_ok, finish_ok]
    exact ⟨_, hexec, hpost _⟩
  case outside =>
    show exec mem s = _
    rw [hrun.mem, readM_error s hl, map_error, finish_error]

/-! ### Logical operations (spec/42_logical.md rules R180 to R189) -/

theorem formsDecode_ana : FormsDecode 0b100 .anaR .anaM .ani := ⟨fun r => by cases r <;> rfl, rfl, rfl⟩

theorem formsDecode_xra : FormsDecode 0b101 .xraR .xraM .xri := ⟨fun r => by cases r <;> rfl, rfl, rfl⟩

theorem formsDecode_ora : FormsDecode 0b110 .oraR .oraM .ori := ⟨fun r => by cases r <;> rfl, rfl, rfl⟩

theorem formsRun_ana (s : State) : FormsRun s s.anaAcc .anaR .anaM .ani := ⟨fun _ => rfl, rfl, fun _ => rfl⟩

theorem formsRun_xra (s : State) : FormsRun s s.xraAcc .xraR .xraM .xri := ⟨fun _ => rfl, rfl, fun _ => rfl⟩

theorem formsRun_ora (s : State) : FormsRun s s.oraAcc .oraR .oraM .ori := ⟨fun _ => rfl, rfl, fun _ => rfl⟩

/-- `LOGIC(r)` written to A and the flags (R180), for a result whose bits are known. -/
theorem setAccFlags_logic8 (s : State) {r : Byte} {bit : Fin 8 → Bool} (hbits : ∀ k : Fin 8, r.getLsbD k = bit k) :
    (∀ k : Fin 8, (s.setAccFlags (logic8 r)).acc.getLsbD k = bit k) ∧
    IsLogic (s.setAccFlags (logic8 r)).acc (s.setAccFlags (logic8 r)).flags ∧
    OnlyChanges { regs := [.a], flags := allFlags } s (s.setAccFlags (logic8 r)) :=
  ⟨hbits, logic8_flags r, only_setAccFlags s (logic8 r)⟩

/-- Settles O38: each operation runs one `LOGIC(r)` update in its three forms, and a bit of r is the operation on the
bits of A and of the operand. -/
theorem logicalOperationsClearTheCarries : Obligations.LogicalOperationsClearTheCarries := by
  intro s
  refine ⟨forEachOperand_completes formsDecode_ana (formsRun_ana s) fun v => ?_,
    forEachOperand_completes formsDecode_xra (formsRun_xra s) fun v => ?_,
    forEachOperand_completes formsDecode_ora (formsRun_ora s) fun v => ?_⟩
  · exact setAccFlags_logic8 s fun _ => BitVec.getLsbD_and
  · exact setAccFlags_logic8 s fun _ => BitVec.getLsbD_xor
  · exact setAccFlags_logic8 s fun _ => BitVec.getLsbD_or

end Sys2Proof.Safety

namespace Sys2Proof.Safety

open Machine

/-! ### Return (spec/43_control_transfer.md rule R215) -/

theorem encodedAs_ret : EncodedAs .ret [0b11001001] := encodedAs_of_implied rfl

theorem exec_ret (s : State) : exec .ret s = finish s.returnFromCall := rfl

/-- The state a return that succeeds reaches: sp popped, then pc at the word that was at sp. -/
def returned (s : State) : State := (s.setSp (s.sp + 2)).setPc (topWord s)

theorem pc_returned (s : State) : (returned s).pc.toNat = wordAtSp s % memSize := by
  rw [returned, State.setPc_pc, wrapAddr_toNat, topWord_toNat]

theorem popped_returned (s : State) : Popped s (returned s) := sp_popped s

/-- Settles O46: a RET is one `returnFromCall`, which completes in `returned s` below the last sp and faults in the high
byte's read at it. -/
theorem returnPopsThePc : Obligations.ReturnPopsThePc := by
  intro s _
  refine ⟨encodedAs_ret, fun hs => ?inside, fun hs => ?last⟩
  case inside =>
    have hret : s.returnFromCall = .ok (returned s) := returnFromCall_ok s hs
    have hexec : exec .ret s = .next (returned s) := by rw [exec_ret, hret, finish_ok]
    exact ⟨_, hexec, pc_returned s, popped_returned s, only_returnFromCall hret⟩
  case last =>
    show exec .ret s = _
    rw [exec_ret, returnFromCall_error s hs, finish_error]

end Sys2Proof.Safety

namespace Sys2Proof.Safety

open Machine

/-! ### What a frame leaves, place by place -/

section
variable {w : Footprint} {s t : State} (h : OnlyChanges w s t)
include h

theorem OnlyChanges.flag_eq {f : Flag} (hf : f ∉ w.flags) : flagOf t.flags f = flagOf s.flags f := by
  obtain ⟨-, hflags, -⟩ := h
  exact hflags f hf

theorem OnlyChanges.byteAt_eq {a : Nat} (ha : a ∉ w.mem) : byteAt t a = byteAt s a := by
  obtain ⟨-, -, -, -, hmem, -⟩ := h
  exact hmem a ha

theorem OnlyChanges.rb_eq : t.io.rb = s.io.rb := by
  obtain ⟨-, -, -, -, -, -, hrb, -⟩ := h
  exact hrb

theorem OnlyChanges.halted_eq (hw : w.halted = false) : t.halted = s.halted := by
  obtain ⟨-, -, -, -, -, -, -, -, hhalted, -⟩ := h
  exact hhalted hw

theorem OnlyChanges.faulted_eq : t.faulted = s.faulted := by
  obtain ⟨-, -, -, -, -, -, -, -, -, hfaulted, -⟩ := h
  exact hfaulted

theorem OnlyChanges.params_eq : t.params = s.params := by
  obtain ⟨-, -, -, -, -, -, -, -, -, -, hparams, -⟩ := h
  exact hparams

theorem OnlyChanges.schedule_eq : t.schedule = s.schedule := by
  obtain ⟨-, -, -, -, -, -, -, -, -, -, -, hschedule⟩ := h
  exact hschedule

end

/-! ### Decoder and encoder are inverse (spec/30_encoding.md rules R80, R90, R93) -/

/-- The instructions a template stands for, one for each value of its operand. -/
def Builds : Template → Instr → Prop
  | .implied j, i => j = i
  | .wantsByte build, i => ∃ v, build v = i
  | .wantsWord build, i => ∃ v, build v = i

theorem builds_of_implied {op : Byte} {i : Instr} (h : decodeOpcode op = .implied i) : Builds (decodeOpcode op) i := by
  rw [h]; rfl

theorem builds_of_wantsByte {op : Byte} {build : Byte → Instr} (h : decodeOpcode op = .wantsByte build) (v : Byte) :
    Builds (decodeOpcode op) (build v) := by
  rw [h]; exact ⟨v, rfl⟩

theorem builds_of_wantsWord {op : Byte} {build : Word → Instr} (h : decodeOpcode op = .wantsWord build) (v : Word) :
    Builds (decodeOpcode op) (build v) := by
  rw [h]; exact ⟨v, rfl⟩

theorem decodeOpcode_rst : ∀ n : BitVec 3, decodeOpcode (0b11#2 ++ n ++ 0b111#3) = .implied (.rst n) := by
  apply Laws.Encoding.restart_cases
  intro n
  fin_cases n <;> rfl

/-- The first byte of an encoding selects the template of that instruction. -/
theorem encode_builds {i : Instr} (h : i.wellFormed = true) :
    ∃ op operands, encode i = op :: operands ∧ Builds (decodeOpcode op) i := by
  cases i with
  | movRR dst src => cases dst <;> cases src <;> exact ⟨_, _, rfl, rfl⟩
  | movRM r | movMR r | inrR r | dcrR r => cases r <;> exact ⟨_, _, rfl, rfl⟩
  | addR r | adcR r | subR r | sbbR r | anaR r | xraR r | oraR r | cmpR r => cases r <;> exact ⟨_, _, rfl, rfl⟩
  | mviR r v => exact ⟨_, _, rfl, builds_of_wantsByte (decodeOpcode_mviR r) v⟩
  | lxi p v => cases p <;> exact ⟨_, _, rfl, builds_of_wantsWord rfl v⟩
  | inx p | dcx p | dad p => cases p <;> exact ⟨_, _, rfl, rfl⟩
  | ldax p | stax p =>
    cases p
    case bc | de => exact ⟨_, _, rfl, rfl⟩
    case hl | sp => cases h
  | push p | pop p =>
    cases p
    case bc | de | hl => exact ⟨_, _, rfl, rfl⟩
    case sp => cases h
  | rst n => exact ⟨_, _, rfl, builds_of_implied (decodeOpcode_rst n)⟩
  | mviM v | adi v | aci v | sui v | sbi v | ani v | xri v | ori v | cpi v | inPort v | outPort v =>
    exact ⟨_, _, rfl, builds_of_wantsByte rfl v⟩
  | lda a | sta a | lhld a | shld a | jmp a | call a => exact ⟨_, _, rfl, builds_of_wantsWord rfl a⟩
  | jnz a | jz a | jnc a | jc a | jpo a | jpe a | jp a | jm a => exact ⟨_, _, rfl, builds_of_wantsWord rfl a⟩
  | cnz a | cz a | cnc a | cc a | cpo a | cpe a | cp a | cm a => exact ⟨_, _, rfl, builds_of_wantsWord rfl a⟩
  | _ => exact ⟨_, _, rfl, rfl⟩

/-- What an opcode builds is encoded with that opcode, and `decode` reads it back from its encoding. -/
theorem decode_encode_of_builds {op : Byte} {i : Instr} (h : Builds (decodeOpcode op) i) (rest : List Byte) :
    decode (encode i ++ rest) = .ok (i, rest) := by
  have spec := decodeOpcode_spec op
  cases e : decodeOpcode op with
  | implied j =>
    rw [e] at spec h
    obtain rfl : j = i := h
    rw [spec.2]
    exact decode_implied rest e
  | wantsByte build =>
    rw [e] at spec h
    obtain ⟨v, rfl⟩ := h
    rw [(spec v).2]
    exact decode_wantsByte v rest e
  | wantsWord build =>
    rw [e] at spec h
    obtain ⟨v, rfl⟩ := h
    rw [(spec v).2]
    exact (decode_wantsWord (loByte v) (hiByte v) rest e).trans (by rw [joinBytes_hi_lo])

/-- Settles O1: the opcode of the encoding selects the instruction's own template, and the template reads back the
operand bytes that follow it. -/
theorem decodeOfEncodeGivesTheInstruction : Obligations.DecodeOfEncodeGivesTheInstruction := by
  intro i rest hwf
  obtain ⟨op, _, -, hop⟩ := encode_builds hwf
  exact decode_encode_of_builds hop rest

theorem wellFormed_and_encode_of_decode {op : Byte} {i : Instr} {rest after : List Byte}
    (h : decode (op :: rest) = .ok (i, after)) : i.wellFormed = true ∧ op :: rest = encode i ++ after := by
  have spec := decodeOpcode_spec op
  cases e : decodeOpcode op with
  | implied j =>
    rw [e] at spec
    rw [decode_implied rest e] at h
    cases h
    exact ⟨spec.1, by rw [spec.2]; rfl⟩
  | wantsByte build =>
    rw [e] at spec
    match rest with
    | [] => rw [decode_wantsByte_short e] at h; cases h
    | v :: tl =>
      rw [decode_wantsByte v tl e] at h
      cases h
      exact ⟨(spec v).1, by rw [(spec v).2]; rfl⟩
  | wantsWord build =>
    rw [e] at spec
    match rest with
    | [] | [_] => rw [decode_wantsWord_short e (by simp)] at h; cases h
    | lo :: hi :: tl =>
      rw [decode_wantsWord lo hi tl e] at h
      cases h
      exact ⟨(spec _).1, by rw [(spec _).2, withOperand_join]; rfl⟩

/-- Settles O2: by the template of the first byte; with too few bytes for it nothing decodes. -/
theorem encodeOfDecodeGivesTheBytes : Obligations.EncodeOfDecodeGivesTheBytes := by
  intro bs i rest h
  cases bs with
  | nil => cases h
  | cons op tl => exact wellFormed_and_encode_of_decode h

theorem opcodeLength_eq_three_iff : ∀ op : Byte, opcodeLength op = 3 ↔ op ∈ threeByteOpcodes := by decide

theorem opcodeLength_eq_two_iff : ∀ op : Byte, opcodeLength op = 2 ↔ op ∈ twoByteOpcodes := by decide

theorem opcodeLength_eq_one_iff (op : Byte) :
    opcodeLength op = 1 ↔ op ∉ threeByteOpcodes ∧ op ∉ twoByteOpcodes := by
  rw [← opcodeLength_eq_three_iff, ← opcodeLength_eq_two_iff, opcodeLength]
  cases decodeOpcode op <;> simp [Template.length]

theorem decode_of_enough {op : Byte} {rest : List Byte} (h : opcodeLength op ≤ rest.length + 1) :
    ∃ i, decode (op :: rest) = .ok (i, rest.drop (opcodeLength op - 1)) ∧ (encode i).length = opcodeLength op := by
  have spec := decodeOpcode_spec op
  unfold opcodeLength at h ⊢
  cases e : decodeOpcode op with
  | implied i =>
    rw [e] at spec
    exact ⟨i, decode_implied rest e, by rw [spec.2]; rfl⟩
  | wantsByte build =>
    rw [e] at spec h
    match rest with
    | v :: tl => exact ⟨build v, decode_wantsByte v tl e, by rw [(spec v).2]; rfl⟩
  | wantsWord build =>
    rw [e] at spec h
    match rest with
    | lo :: hi :: tl => exact ⟨_, decode_wantsWord lo hi tl e, by rw [(spec _).2]; rfl⟩

theorem decode_of_too_few {op : Byte} {rest : List Byte} (h : rest.length + 1 < opcodeLength op) :
    decode (op :: rest) = .error (.missingOperand op) := by
  unfold opcodeLength at h
  cases e : decodeOpcode op with
  | implied i => rw [e] at h; exact absurd h (by simp [Template.length])
  | wantsByte build =>
    rw [e] at h
    match rest with
    | [] => exact decode_wantsByte_short e
  | wantsWord build =>
    rw [e] at h
    exact decode_wantsWord_short e (Nat.lt_of_succ_lt_succ h)

/-- Settles O3: the lists of R90 against the 256 opcodes, and the template of the opcode for the bytes after it. -/
theorem opcodeAloneGivesTheLength : Obligations.OpcodeAloneGivesTheLength := fun op =>
  ⟨opcodeLength_eq_three_iff op, opcodeLength_eq_two_iff op, opcodeLength_eq_one_iff op,
    fun _ => decode_of_enough, fun _ => decode_of_too_few⟩

/-- Settles O4: each word names its opcode's template and is read by it. -/
theorem sampleWordsDecodeAsTheTableSays : Obligations.SampleWordsDecodeAsTheTableSays := by
  refine ⟨rfl, ?_, rfl, rfl, ?_, rfl, rfl, rfl, rfl⟩
  · exact decode_wantsWord 0x34 0x12 [] rfl
  · exact decode_wantsWord 0x34 0x12 [] rfl

end Sys2Proof.Safety

namespace Sys2Proof.Safety

open Machine

/-! ### The effect of every instruction: the state it reaches or the fault it raises -/

/-- What `exec` finishes: each instruction's one operation on the state. -/
def effect (i : Instr) (s : State) : Except Fault State :=
  match i with
  | .movRR dst src => .ok (s.setReg dst (s.reg src))
  | .movRM dst => s.readM.map (s.setReg dst)
  | .movMR src => s.writeM (s.reg src)
  | .mviR dst v => .ok (s.setReg dst v)
  | .mviM v => s.writeM v
  | .lxi p v => .ok (s.setPair p v)
  | .lda a => (s.memRead (asAddress a)).map s.setAcc
  | .sta a => s.memWrite (asAddress a) s.acc
  | .lhld a => (s.memRead16 (asAddress a)).map (s.setPair .hl)
  | .shld a => s.memWrite16 (asAddress a) (s.pair .hl)
  | .ldax p => s.indirectAddress p >>= fun a => (s.memRead a).map s.setAcc
  | .stax p => s.indirectAddress p >>= fun a => s.memWrite a s.acc
  | .xchg => .ok ((s.setPair .hl (s.pair .de)).setPair .de (s.pair .hl))
  | .addR r => .ok (s.addAcc (s.reg r))
  | .addM => s.readM.map s.addAcc
  | .adi v => .ok (s.addAcc v)
  | .adcR r => .ok (s.adcAcc (s.reg r))
  | .adcM => s.readM.map s.adcAcc
  | .aci v => .ok (s.adcAcc v)
  | .subR r => .ok (s.subAcc (s.reg r))
  | .subM => s.readM.map s.subAcc
  | .sui v => .ok (s.subAcc v)
  | .sbbR r => .ok (s.sbbAcc (s.reg r))
  | .sbbM => s.readM.map s.sbbAcc
  | .sbi v => .ok (s.sbbAcc v)
  | .anaR r => .ok (s.anaAcc (s.reg r))
  | .anaM => s.readM.map s.anaAcc
  | .ani v => .ok (s.anaAcc v)
  | .xraR r => .ok (s.xraAcc (s.reg r))
  | .xraM => s.readM.map s.xraAcc
  | .xri v => .ok (s.xraAcc v)
  | .oraR r => .ok (s.oraAcc (s.reg r))
  | .oraM => s.readM.map s.oraAcc
  | .ori v => .ok (s.oraAcc v)
  | .cmpR r => .ok (s.cmpAcc (s.reg r))
  | .cmpM => s.readM.map s.cmpAcc
  | .cpi v => .ok (s.cmpAcc v)
  | .inrR r => .ok (s.stepReg r (incByte (s.reg r)))
  | .inrM => s.stepM incByte
  | .dcrR r => .ok (s.stepReg r (decByte s.params.subAc (s.reg r)))
  | .dcrM => s.stepM (decByte s.params.subAc)
  | .inx p => .ok (s.setPair p (s.pair p + 1))
  | .dcx p => .ok (s.setPair p (s.pair p - 1))
  | .dad p =>
    let sum := (s.pair .hl).toNat + (s.pair p).toNat
    .ok ((s.setPair .hl (BitVec.ofNat 16 sum)).setCarry (decide (sum > 65535)))
  | .daa => .ok (s.setAccFlags (daa8 s.acc s.flags))
  | .rlc =>
    let b := s.acc.getLsbD 7
    .ok ((s.setAcc (s.acc <<< 1 ||| (BitVec.ofBool b).setWidth 8)).setCarry b)
  | .rrc =>
    let b := s.acc.getLsbD 0
    .ok ((s.setAcc (s.acc >>> 1 ||| (BitVec.ofBool b).setWidth 8 <<< 7)).setCarry b)
  | .ral => .ok ((s.setAcc (s.acc <<< 1 ||| (BitVec.ofBool s.flags.c).setWidth 8)).setCarry (s.acc.getLsbD 7))
  | .rar => .ok ((s.setAcc (s.acc >>> 1 ||| (BitVec.ofBool s.flags.c).setWidth 8 <<< 7)).setCarry (s.acc.getLsbD 0))
  | .cma => .ok (s.setAcc (~~~s.acc))
  | .cmc => .ok (s.setCarry (!s.flags.c))
  | .stc => .ok (s.setCarry true)
  | .jmp a => .ok (s.setPc a)
  | .jnz a => .ok (s.jumpIf .nz a)
  | .jz a => .ok (s.jumpIf .z a)
  | .jnc a => .ok (s.jumpIf .nc a)
  | .jc a => .ok (s.jumpIf .c a)
  | .jpo a => .ok (s.jumpIf .po a)
  | .jpe a => .ok (s.jumpIf .pe a)
  | .jp a => .ok (s.jumpIf .p a)
  | .jm a => .ok (s.jumpIf .m a)
  | .call a => s.callTo a
  | .cnz a => s.callIf .nz a
  | .cz a => s.callIf .z a
  | .cnc a => s.callIf .nc a
  | .cc a => s.callIf .c a
  | .cpo a => s.callIf .po a
  | .cpe a => s.callIf .pe a
  | .cp a => s.callIf .p a
  | .cm a => s.callIf .m a
  | .ret => s.returnFromCall
  | .rnz => s.returnIf .nz
  | .rz => s.returnIf .z
  | .rnc => s.returnIf .nc
  | .rc => s.returnIf .c
  | .rpo => s.returnIf .po
  | .rpe => s.returnIf .pe
  | .rp => s.returnIf .p
  | .rm => s.returnIf .m
  | .rst n => s.callTo (restartTarget n)
  | .pchl => .ok (s.setPc (s.pair .hl))
  | .push p => stackOperand p >>= fun p => s.push16 (s.pair p)
  | .pushPsw => s.push16 (joinBytes s.acc (psw s.params.pswLayout s.flags))
  | .pop p => stackOperand p >>= fun p => s.pop16.map fun x => x.2.setPair p x.1
  | .popPsw => s.pop16.map fun x => (x.2.setAcc (hiByte x.1)).setFlags (flagsOfPsw s.params.pswLayout (loByte x.1))
  | .xthl => s.memRead16 (asAddress s.sp) >>= fun v =>
      (s.memWrite16 (asAddress s.sp) (s.pair .hl)).map fun t => t.setPair .hl v
  | .sphl => .ok (s.setSp (s.pair .hl))
  | .inPort port => (s.ioRead port).map s.setAcc
  | .outPort port => s.ioWrite port s.acc
  | .hlt => .ok { s with halted := true }
  | .nop | .ei | .di => .ok s
  | .undef08 => .error (.decodeFailure 0x08)
  | .undef10 => .error (.decodeFailure 0x10)
  | .undef18 => .error (.decodeFailure 0x18)
  | .undef20 => .error (.decodeFailure 0x20)
  | .undef28 => .error (.decodeFailure 0x28)
  | .undef30 => .error (.decodeFailure 0x30)
  | .undef38 => .error (.decodeFailure 0x38)
  | .undefCB => .error (.decodeFailure 0xCB)
  | .undefD9 => .error (.decodeFailure 0xD9)
  | .undefDD => .error (.decodeFailure 0xDD)
  | .undefED => .error (.decodeFailure 0xED)
  | .undefFD => .error (.decodeFailure 0xFD)

theorem bind_pure_eq_map {α β : Type} (x : Except Fault α) (f : α → β) : (x >>= fun v => pure (f v)) = x.map f :=
  LawfulMonad.bind_pure_comp f x

/-- `exec` is the effect, finished; four meanings end a sequence of operations with an update of the state. -/
theorem exec_eq_finish (i : Instr) (s : State) : exec i s = finish (effect i s) := by
  cases i
  case ldax p => simp only [exec, execLdax, effect, bind_pure_eq_map]
  case pop p => simp only [exec, execPop, effect, bind_pure_eq_map]
  case popPsw => simp only [exec, execPopPsw, effect, bind_pure_eq_map]
  case xthl => simp only [exec, execXthl, effect, bind_pure_eq_map]
  all_goals rfl

theorem exec_next {i : Instr} {s t : State} : exec i s = .next t ↔ effect i s = .ok t := by
  rw [exec_eq_finish, finish_next]

theorem exec_fault {i : Instr} {s : State} {f : Fault} : exec i s = .fault f ↔ effect i s = .error f := by
  rw [exec_eq_finish]
  cases effect i s <;> simp

/-! ### Every instruction keeps the invariant (spec/10_state.md rules R26 and R29) -/

theorem Invariant.of_map {α : Type} {x : Except Fault α} {f : α → State} {t : State} (h : x.map f = .ok t)
    (hf : ∀ v, Invariant (f v)) : Invariant t := by
  obtain ⟨v, -, rfl⟩ := mapped_ok.mp h
  exact hf v

theorem Invariant.jumpIf {s : State} (h : Invariant s) (k : Cond) (a : Word) : Invariant (s.jumpIf k a) := by
  unfold State.jumpIf
  split
  · exact h.setPc a
  · exact h

theorem Invariant.callIf {s t : State} {k : Cond} {a : Word} (h : Invariant s) (hc : s.callIf k a = .ok t) :
    Invariant t := by
  unfold State.callIf at hc
  split at hc
  · exact h.callTo hc
  · cases hc; exact h

theorem Invariant.returnIf {s t : State} {k : Cond} (h : Invariant s) (hr : s.returnIf k = .ok t) : Invariant t := by
  unfold State.returnIf at hr
  split at hr
  · exact h.returnFromCall hr
  · cases hr; exact h

theorem Invariant.stepM {s t : State} {f : Byte → AluOut} (h : Invariant s) (hm : s.stepM f = .ok t) :
    Invariant t := by
  obtain ⟨v, -, hm⟩ := bind_ok.mp hm
  obtain ⟨u, hw, hm⟩ := bind_ok.mp hm
  cases hm
  exact (h.memWrite hw).setFlags _

theorem Invariant.effect {i : Instr} {s t : State} (hs : Invariant s) (h : effect i s = .ok t) : Invariant t := by
  unfold Safety.effect at h
  cases i with
  | movRR dst src => cases h; exact hs.setReg dst _
  | mviR dst v => cases h; exact hs.setReg dst v
  | movRM dst => exact .of_map h fun v => hs.setReg dst v
  | movMR r | mviM v | sta a => exact hs.memWrite h
  | lxi p v | inx p | dcx p => cases h; exact hs.setPair p _
  | lda a | inPort p => exact .of_map h hs.setAcc
  | lhld a => exact .of_map h (hs.setPair .hl)
  | shld a => exact hs.memWrite16 h
  | ldax p =>
    obtain ⟨a, -, h⟩ := bind_ok.mp h
    exact .of_map h hs.setAcc
  | stax p =>
    obtain ⟨a, -, h⟩ := bind_ok.mp h
    exact hs.memWrite h
  | xchg => cases h; exact (hs.setPair .hl _).setPair .de _
  | addM | adcM | subM | sbbM | anaM | xraM | oraM => exact .of_map h fun v => hs.setAccFlags _
  | cmpM => exact .of_map h fun v => hs.setFlags _
  | addR r | adcR r | subR r | sbbR r | anaR r | xraR r | oraR r => cases h; exact hs.setAccFlags _
  | adi v | aci v | sui v | sbi v | ani v | xri v | ori v => cases h; exact hs.setAccFlags _
  | cmpR r | cpi v => cases h; exact hs.setFlags _
  | inrR r | dcrR r => cases h; exact (hs.setReg r _).setFlags _
  | inrM | dcrM => exact hs.stepM h
  | dad p => cases h; exact (hs.setPair .hl _).setFlags _
  | daa => cases h; exact hs.setAccFlags _
  | rlc | rrc | ral | rar => cases h; exact (hs.setAcc _).setFlags _
  | cma => cases h; exact hs.setAcc _
  | cmc | stc => cases h; exact hs.setFlags _
  | jmp a => cases h; exact hs.setPc a
  | pchl => cases h; exact hs.setPc _
  | jnz a | jz a | jnc a | jc a | jpo a | jpe a | jp a | jm a => cases h; exact hs.jumpIf _ a
  | call a | rst a => exact hs.callTo h
  | cnz a | cz a | cnc a | cc a | cpo a | cpe a | cp a | cm a => exact hs.callIf h
  | ret => exact hs.returnFromCall h
  | rnz | rz | rnc | rc | rpo | rpe | rp | rm => exact hs.returnIf h
  | push p =>
    obtain ⟨q, -, h⟩ := bind_ok.mp h
    exact hs.push16 h
  | pushPsw => exact hs.push16 h
  | pop p =>
    obtain ⟨q, -, h⟩ := bind_ok.mp h
    obtain ⟨⟨v, u⟩, hpop, rfl⟩ := mapped_ok.mp h
    exact (hs.pop16 hpop).setPair q v
  | popPsw =>
    obtain ⟨⟨v, u⟩, hpop, rfl⟩ := mapped_ok.mp h
    exact ((hs.pop16 hpop).setAcc _).setFlags _
  | xthl =>
    obtain ⟨v, -, h⟩ := bind_ok.mp h
    obtain ⟨u, hw, rfl⟩ := mapped_ok.mp h
    exact (hs.memWrite16 hw).setPair .hl v
  | sphl => cases h; exact hs.setSp _
  | outPort p => exact hs.ioWrite h
  | hlt => cases h; exact ⟨hs.pc_lt, hs.sp_lt, hs.mem_wf⟩
  | nop | ei | di => cases h; exact hs
  | undef08 | undef10 | undef18 | undef20 | undef28 | undef30 | undef38 => cases h
  | undefCB | undefD9 | undefDD | undefED | undefFD => cases h

end Sys2Proof.Safety

namespace Sys2Proof.Safety

open Machine

/-! ### What a fetch finds (spec/30_encoding.md rule R81) -/

theorem Invariant.advanced {s : State} (h : Invariant s) (n : Nat) : Invariant (advanced s n) :=
  ⟨advanced_pc_lt s n, h.sp_lt, h.mem_wf⟩

theorem Invariant.dropMove {s : State} (h : Invariant s) : Invariant s.dropMove := ⟨h.pc_lt, h.sp_lt, h.mem_wf⟩

theorem encode_length_pos {i : Instr} (h : i.wellFormed = true) : 0 < (encode i).length := by
  obtain ⟨op, operands, he, -⟩ := encode_builds h
  simp [he]

/-- A fetch with pc inside memory finds a well-formed instruction and moves pc past the bytes it took. -/
theorem fetchInstr_ok {s : State} (h : s.pc.toNat < memSize) (injected : Option Byte) :
    ∃ i n, s.fetchInstr injected = .ok (i, advanced s n) ∧ i.wellFormed = true := by
  cases injected with
  | some op =>
    obtain ⟨i, -, -, hwf, hf⟩ := fetchOperand_ok h op
    exact ⟨i, _, hf, hwf⟩
  | none =>
    obtain ⟨i, -, -, hwf, hf⟩ := fetchOperand_ok (advanced_pc_lt s 1) (byteAt s s.pc.toNat)
    rw [advanced_advanced] at hf
    exact ⟨i, _, (fetchInstr_fetched h).trans hf, hwf⟩

/-- Settles O9: pc is an address of memory, and moving it on wraps. -/
theorem fetchNeverFaults : Obligations.FetchNeverFaults := by
  intro s injected hs
  obtain ⟨i, n, hf, hwf⟩ := fetchInstr_ok hs.pc_lt injected
  exact ⟨i, advanced s n, hf, hwf, hs.advanced n⟩

theorem fetchInstr_of_decode_injected {s : State} {op : Byte} {i : Instr} {rest : List Byte}
    (h : s.pc.toNat < memSize) (hd : decode (op :: bytesFrom s s.pc.toNat 2) = .ok (i, rest)) :
    s.fetchInstr (some op) = .ok (i, advanced s ((encode i).length - 1)) := by
  obtain ⟨j, _, hj, -, hf⟩ := fetchOperand_ok h op
  cases hj.symm.trans hd
  exact hf

theorem bytesFrom_three {s : State} (h : s.pc.toNat < memSize) :
    bytesFrom s s.pc.toNat 3 = byteAt s s.pc.toNat :: bytesFrom (advanced s 1) (advanced s 1).pc.toNat 2 := by
  rw [advanced_pc, bytesFrom_mod]
  show byteAt s (s.pc.toNat % memSize) :: _ = _
  rw [Nat.mod_eq_of_lt h]
  rfl

/-- A one-byte instruction is read from its opcode at pc, whatever follows it. -/
theorem decode_bytesFrom_of_implied {s : State} {i : Instr} (h : s.pc.toNat < memSize)
    (hi : decodeOpcode (byteAt s s.pc.toNat) = .implied i) :
    ∃ rest, decode (bytesFrom s s.pc.toNat 3) = .ok (i, rest) := by
  rw [bytesFrom_three h]
  exact ⟨_, decode_implied _ hi⟩

theorem fetchInstr_of_decode_fetched {s : State} {i : Instr} {rest : List Byte} (h : s.pc.toNat < memSize)
    (hd : decode (bytesFrom s s.pc.toNat 3) = .ok (i, rest)) :
    s.fetchInstr none = .ok (i, advanced s (encode i).length) := by
  rw [bytesFrom_three h] at hd
  obtain ⟨j, _, hj, hwf, hf⟩ := fetchOperand_ok (advanced_pc_lt s 1) (byteAt s s.pc.toNat)
  cases hj.symm.trans hd
  rw [fetchInstr_fetched h, hf, advanced_advanced, Nat.add_sub_cancel' (encode_length_pos hwf)]

/-! ### A step forwards: from what the move fetches to what the step answers -/

theorem step_of_fetched {s t : State} {i : Instr} (hrun : Running s)
    (hmove : s.schedule = [] ∨ s.schedule.head? = some .runCycle) (hf : s.dropMove.fetchInstr none = .ok (i, t)) :
    step s = exec i t := by
  rw [step_of_running hrun, nextMove_runCycle hmove]
  show runCycle none s.dropMove = _
  rw [runCycle_of_running (s := s.dropMove) hrun, hf]

theorem step_of_injected {s t : State} {op : Byte} {i : Instr} (hrun : Running s)
    (hmove : s.schedule.head? = some (.inject op)) (hf : s.dropMove.fetchInstr (some op) = .ok (i, t)) :
    step s = exec i t := by
  rw [step_of_running hrun, nextMove_of_head hmove]
  show runCycle (some op) s.dropMove = _
  rw [runCycle_of_running (s := s.dropMove) hrun, hf]

/-- Settles O7: the fetch reads what `decode` reads from the bytes at pc. -/
theorem stepRunsTheFetchedInstruction : Obligations.StepRunsTheFetchedInstruction := by
  intro s i rest hs hrun hmove hd
  exact step_of_fetched hrun hmove (fetchInstr_of_decode_fetched (s := s.dropMove) hs.pc_lt hd)

/-- Settles O8: the injected opcode is read with the bytes at pc as its operand. -/
theorem stepRunsTheInjectedOpcode : Obligations.StepRunsTheInjectedOpcode := by
  intro s op i rest hs hrun hmove hd
  exact step_of_injected hrun hmove (fetchInstr_of_decode_injected (s := s.dropMove) hs.pc_lt hd)

/-! ### A step backwards: where a next state or a fault comes from -/

theorem ifRunning_of_halted {s : State} (h : s.halted = true) (k : Outcome) : s.ifRunning k = .refused .coreHalted :=
  if_pos h

theorem ifRunning_of_faulted {s : State} (h : s.halted = false) (hf : s.faulted ≠ none) (k : Outcome) :
    s.ifRunning k = .refused .coreFaulted := by
  rw [State.ifRunning, if_neg (by simp [h]), if_pos (Option.isSome_iff_ne_none.mpr hf)]

/-- Only a running core gives an answer other than a refusal to step. -/
theorem running_or_ifRunning_refused (s : State) (k : Outcome) : Running s ∨ ∃ why, s.ifRunning k = .refused why := by
  by_cases hh : s.halted = true
  · exact .inr ⟨_, ifRunning_of_halted hh k⟩
  · have hh : s.halted = false := Bool.eq_false_iff.mpr hh
    by_cases hf : s.faulted = none
    · exact .inl ⟨hh, hf⟩
    · exact .inr ⟨_, ifRunning_of_faulted hh hf k⟩

theorem running_of_ifRunning_next {s t : State} {k : Outcome} (h : s.ifRunning k = .next t) : Running s := by
  obtain hrun | ⟨why, hr⟩ := running_or_ifRunning_refused s k
  · exact hrun
  · rw [hr] at h; cases h

theorem running_of_ifRunning_fault {s : State} {k : Outcome} {f : Fault} (h : s.ifRunning k = .fault f) :
    Running s := by
  obtain hrun | ⟨why, hr⟩ := running_or_ifRunning_refused s k
  · exact hrun
  · rw [hr] at h; cases h

theorem runCycle_next {s t : State} {injected : Option Byte} (h : runCycle injected s = .next t) :
    Running s ∧ ∃ i u, s.fetchInstr injected = .ok (i, u) ∧ exec i u = .next t := by
  have hrun : Running s := running_of_ifRunning_next h
  rw [runCycle_of_running hrun] at h
  refine ⟨hrun, ?_⟩
  split at h
  · cases h
  · next i u hf => exact ⟨i, u, hf, h⟩

/-- Where the next state of a step comes from: an input latch's bit was set, or an instruction was run. -/
theorem step_next {s t : State} (h : step s = .next t) :
    Running s ∧
      ((∃ port bit value, s.nextMove = .setReadBit port bit value ∧ t = s.dropMove.setReadBit port bit value) ∨
        ∃ injected, runCycle injected s.dropMove = .next t) := by
  have hrun : Running s := running_of_ifRunning_next h
  rw [step_of_running hrun] at h
  refine ⟨hrun, ?_⟩
  cases hm : s.nextMove with
  | runCycle => rw [hm] at h; exact .inr ⟨none, h⟩
  | inject op => rw [hm] at h; exact .inr ⟨some op, h⟩
  | setReadBit port bit value => rw [hm] at h; cases h; exact .inl ⟨port, bit, value, rfl, rfl⟩

theorem Invariant.setReadBit {s : State} (h : Invariant s) (port : Fin numReadLatches) (bit : Fin 8) (value : Bool) :
    Invariant (s.setReadBit port bit value) := ⟨h.pc_lt, h.sp_lt, h.mem_wf⟩

theorem Invariant.runCycle {s t : State} {injected : Option Byte} (hs : Invariant s)
    (h : runCycle injected s = .next t) : Invariant t := by
  obtain ⟨-, i, u, hf, hx⟩ := runCycle_next h
  obtain ⟨j, n, hok, -⟩ := fetchInstr_ok hs.pc_lt injected
  cases hok.symm.trans hf
  exact (hs.advanced n).effect (exec_next.mp hx)

/-- Settles O16: a move of the input source touches no field of the invariant, a fetch wraps pc, and the effect of every
instruction keeps the invariant. -/
theorem everyStepKeepsTheInvariant : Obligations.EveryStepKeepsTheInvariant := by
  intro s t hs h
  obtain ⟨-, ⟨port, bit, value, -, rfl⟩ | ⟨injected, h⟩⟩ := step_next h
  · exact hs.dropMove.setReadBit port bit value
  · exact hs.dropMove.runCycle h

/-- Settles O10: both answers pass through `ifRunning` first. -/
theorem haltedOrFaultedCoreTakesNoStep : Obligations.HaltedOrFaultedCoreTakesNoStep := by
  intro s m injected
  refine ⟨fun hh => ?halted, fun hh hf => ?faulted⟩
  case halted => exact ⟨ifRunning_of_halted (s := withSchedule m s) hh _, ifRunning_of_halted hh _⟩
  case faulted => exact ⟨ifRunning_of_faulted (s := withSchedule m s) hh hf _, ifRunning_of_faulted hh hf _⟩

/-! ### Reset (spec/70_reset_and_hazards.md rules R340 to R342) -/

/-- Settles O13: pc is wrapped and sp is the constant of R42. -/
theorem launchSetsPcAndSp : Obligations.LaunchSetsPcAndSp :=
  ⟨fun l => ⟨wrapAddr_toNat l.pcReset, rfl⟩, rfl, rfl⟩

/-- Settles O14: every other field of the state is the launch's. -/
theorem launchRunsWithAnyUnspecifiedValues : Obligations.LaunchRunsWithAnyUnspecifiedValues :=
  fun _ => ⟨⟨rfl, rfl⟩, rfl, rfl, rfl, fun _ => rfl⟩

theorem launch_invariant (l : Launch) (h : Memory.wf l.image) : Invariant (State.launch l) :=
  ⟨wrapAddr_lt l.pcReset, (by decide : spReset.toNat < memSize), h⟩

/-- Settles O15: the default launch loads nothing. -/
theorem launchMeetsTheInvariant : Obligations.LaunchMeetsTheInvariant :=
  ⟨launch_invariant, launch_invariant Launch.default Memory.empty_wf⟩

/-! ### After a fault (spec/60_exceptions.md rule R305) -/

theorem advance_of_next {s t : State} (h : step s = .next t) : advance s = t := by
  rw [advance, show takeStep s = .next t from h]

theorem advance_of_fault {s : State} {f : Fault} (h : step s = .fault f) : advance s = s.recordFault f := by
  rw [advance, show takeStep s = .fault f from h]

theorem advance_of_refused {s : State} {why : Refusal} (h : step s = .refused why) : advance s = s := by
  rw [advance, show takeStep s = .refused why from h]

/-- The second state is the first with another pc, if anything. -/
def MovesOnlyPc (s t : State) : Prop := ∃ pc, t = { s with pc := pc }

theorem MovesOnlyPc.refl (s : State) : MovesOnlyPc s s := ⟨s.pc, rfl⟩

theorem MovesOnlyPc.trans {s t u : State} (h : MovesOnlyPc s t) (k : MovesOnlyPc t u) : MovesOnlyPc s u := by
  obtain ⟨_, rfl⟩ := h
  obtain ⟨pc, rfl⟩ := k
  exact ⟨pc, rfl⟩

theorem fetch8_next {s t : State} {v : Byte} (h : s.fetch8 = .ok (v, t)) :
    v = byteAt s s.pc.toNat ∧ MovesOnlyPc s t := by
  obtain ⟨w, hw, h⟩ := bind_ok.mp h
  cases h
  unfold State.memRead at hw
  split at hw
  · cases hw; exact ⟨rfl, _, rfl⟩
  · cases hw

theorem fetch16_next {s t : State} {v : Word} (h : s.fetch16 = .ok (v, t)) : MovesOnlyPc s t := by
  obtain ⟨⟨lo, u⟩, hlo, h⟩ := bind_ok.mp h
  obtain ⟨⟨hi, w⟩, hhi, h⟩ := bind_ok.mp h
  cases h
  exact (fetch8_next hlo).2.trans (fetch8_next hhi).2

theorem opcodeOf_of_encode {i : Instr} {op : Byte} {operands : List Byte} (h : encode i = op :: operands) :
    opcodeOf i = op := by
  rw [opcodeOf, h]; rfl

theorem fetchOperand_next {s t : State} {op : Byte} {i : Instr} (h : s.fetchOperand (decodeOpcode op) = .ok (i, t)) :
    i.wellFormed = true ∧ opcodeOf i = op ∧ MovesOnlyPc s t := by
  have spec := decodeOpcode_spec op
  cases e : decodeOpcode op with
  | implied j =>
    rw [e] at spec h
    cases h
    exact ⟨spec.1, opcodeOf_of_encode spec.2, .refl s⟩
  | wantsByte build =>
    rw [e] at spec h
    obtain ⟨⟨v, u⟩, hv, h⟩ := bind_ok.mp h
    cases h
    exact ⟨(spec v).1, opcodeOf_of_encode (spec v).2, (fetch8_next hv).2⟩
  | wantsWord build =>
    rw [e] at spec h
    obtain ⟨⟨v, u⟩, hv, h⟩ := bind_ok.mp h
    cases h
    exact ⟨(spec v).1, opcodeOf_of_encode (spec v).2, fetch16_next hv⟩

/-- Everything a fetch can give, in any state: the instruction of the injected opcode or of the byte at pc, and a state
that differs in pc only. -/
theorem fetchInstr_next {s t : State} {injected : Option Byte} {i : Instr}
    (h : s.fetchInstr injected = .ok (i, t)) :
    i.wellFormed = true ∧ opcodeOf i = injected.getD (byteAt s s.pc.toNat) ∧ MovesOnlyPc s t := by
  cases injected with
  | some op => exact fetchOperand_next h
  | none =>
    obtain ⟨⟨op, u⟩, hop, h⟩ := bind_ok.mp h
    obtain ⟨rfl, hu⟩ := fetch8_next hop
    obtain ⟨hwf, hopcode, ht⟩ := fetchOperand_next h
    exact ⟨hwf, hopcode, hu.trans ht⟩

theorem runCycle_keeps {s t : State} {injected : Option Byte} (h : runCycle injected s = .next t) :
    t.io.rb = s.io.rb ∧ t.faulted = s.faulted := by
  obtain ⟨-, i, u, hf, hx⟩ := runCycle_next h
  obtain ⟨-, -, pc, rfl⟩ := fetchInstr_next hf
  exact ⟨(exec_only hx).rb_eq, (exec_only hx).faulted_eq⟩

theorem step_next_faulted {s t : State} (h : step s = .next t) : t.faulted = none := by
  obtain ⟨hrun, ⟨port, bit, value, -, rfl⟩ | ⟨injected, h⟩⟩ := step_next h
  · exact hrun.2
  · exact (runCycle_keeps h).2.trans hrun.2

/-- Settles O59: only a running core faults, and what `advance` makes of a fault has it recorded, so `ifRunning` refuses
whatever comes next. -/
theorem faultsAreRecordedAndEndTheRun : Obligations.FaultsAreRecordedAndEndTheRun := by
  intro s
  refine ⟨fun f h => ?fault, fun t h => ⟨advance_of_next h, step_next_faulted h⟩⟩
  case fault =>
    have hrun : Running s := running_of_ifRunning_fault h
    have hhalted : (s.recordFault f).halted = false := hrun.1
    have hfaulted : (s.recordFault f).faulted ≠ none := Option.some_ne_none f
    have hstep : step (s.recordFault f) = .refused .coreFaulted := ifRunning_of_faulted hhalted hfaulted _
    have refused (m : List Move) (k : Outcome) :
        (withSchedule m (s.recordFault f)).ifRunning k = .refused .coreFaulted :=
      ifRunning_of_faulted (s := withSchedule m (s.recordFault f)) hhalted hfaulted k
    rw [advance_of_fault h]
    exact ⟨State.recordFault_faulted s f, hhalted, advance_of_refused hstep, fun m _ => ⟨refused m _, refused m _⟩⟩

/-! ### The input source (spec/45_io_and_control.md rule R272) -/

theorem getLsbD_withBit (v : Byte) (bit j : Fin 8) (value : Bool) :
    (withBit v bit value).getLsbD j = if j = bit then value else v.getLsbD j := by
  have hmask : (1#8 <<< bit.val).getLsbD j = decide (j = bit) := by
    exact (BitVec.getLsbD_twoPow bit.val j.val).trans (by simp [Fin.ext_iff, eq_comm])
  cases value with
  | true =>
    show (v ||| 1#8 <<< bit.val).getLsbD j = _
    rw [BitVec.getLsbD_or, hmask]
    by_cases h : j = bit <;> simp [h]
  | false =>
    show (v &&& ~~~(1#8 <<< bit.val)).getLsbD j = _
    rw [BitVec.getLsbD_and, BitVec.getLsbD_not, hmask]
    by_cases h : j = bit <;> simp [h]

theorem head_of_nextMove {s : State} {m : Move} (h : s.nextMove = m) (hm : m ≠ .runCycle) :
    s.schedule.head? = some m := by
  unfold State.nextMove at h
  cases hs : s.schedule with
  | nil => rw [hs] at h; exact absurd h.symm hm
  | cons n rest => rw [hs] at h; exact congrArg some h

/-- Settles O12: the move writes one bit of one latch; any other step runs an instruction, and no instruction's frame
holds an input latch. -/
theorem onlyTheInputSourceChangesInputLatches : Obligations.OnlyTheInputSourceChangesInputLatches := by
  refine ⟨fun s port bit value hrun hmove => ?move, fun s t h hrb => ?only⟩
  case move =>
    refine ⟨s.dropMove.setReadBit port bit value, ?_, fun k j => ?_, rfl, rfl⟩
    · rw [step_of_running hrun, nextMove_of_head hmove]; rfl
    · show ((s.io.rb.set port.val (withBit s.io.rb[port] bit value))[k.val]).getLsbD j = _
      rw [Vector.getElem_set]
      by_cases hk : k = port
      · subst hk
        simpa only [if_true, true_and] using getLsbD_withBit s.io.rb[k] bit j value
      · rw [if_neg fun e => hk (Fin.ext e.symm), if_neg fun e => hk e.1]; rfl
  case only =>
    obtain ⟨-, ⟨port, bit, value, hm, -⟩ | ⟨injected, h⟩⟩ := step_next h
    · exact ⟨port, bit, value, head_of_nextMove hm nofun⟩
    · exact absurd (runCycle_keeps h).1 hrb

end Sys2Proof.Safety

namespace Sys2Proof.Safety

open Machine

/-! ### The frame tables of spec/10_state.md rule R31 and spec/20_memory.md rule R56, from the footprints -/

theorem footprint_flags (i : Instr) (s : State) : (footprint i s).flags = flagsWritten i := by
  cases i <;> rfl

/-- Settles O18: an instruction stays inside its footprint, whose flags are R31's. -/
theorem onlyListedInstructionsWriteFlags : Obligations.OnlyListedInstructionsWriteFlags := by
  intro i s t f h hf
  exact (exec_only h).flag_eq (by rwa [footprint_flags])

theorem pushedIf_eq {k : Cond} {s : State} {c : Prop} [Decidable c] (h : s.flags.holds k = true ↔ c) :
    pushedIf k s = if c then pushedBytes s else [] := by
  by_cases hc : c
  · rw [pushedIf, if_pos (h.mpr hc), if_pos hc]
  · rw [pushedIf, if_neg (mt h.mp hc), if_neg hc]

theorem footprint_mem (i : Instr) (s : State) : (footprint i s).mem = bytesStored i s := by
  cases i with
  | cnz | cnc | cpo | cp => exact pushedIf_eq (by simp [Flags.holds])
  | cz | cc | cpe | cm => exact pushedIf_eq Iff.rfl
  | _ => rfl

/-- Settles O19: an instruction stays inside its footprint, whose bytes are R56's. -/
theorem onlyListedBytesAreStoredTo : Obligations.OnlyListedBytesAreStoredTo := by
  intro i s t a h ha
  exact (exec_only h).byteAt_eq (by rwa [footprint_mem])

theorem footprint_bus {i : Instr} (h : ∀ p, i ≠ .outPort p) (s : State) :
    (footprint i s).latches = [] ∧ (footprint i s).shift = false := by
  cases i with
  | outPort p => exact absurd rfl (h p)
  | _ => exact ⟨rfl, rfl⟩

theorem footprint_halted {i : Instr} (h : i ≠ .hlt) (s : State) : (footprint i s).halted = false := by
  cases i with
  | hlt => exact absurd rfl h
  | _ => rfl

/-- A frame without latches and shift register leaves the whole I/O bus. -/
theorem OnlyChanges.io {w : Footprint} {s t : State} (h : OnlyChanges w s t) (hl : w.latches = [])
    (hs : w.shift = false) : t.io = s.io := by
  obtain ⟨-, -, -, -, -, hw, hrb, hsr, -⟩ := h
  have hw : t.io.w = s.io.w := Vector.ext fun k hk => hw ⟨k, hk⟩ (by simp [hl])
  calc t.io = ⟨t.io.w, t.io.rb, t.io.sr⟩ := rfl
    _ = ⟨s.io.w, s.io.rb, s.io.sr⟩ := by rw [hw, hrb, hsr hs]

theorem exec_halted {i : Instr} {s t : State} (h : exec i s = .next t) (hi : i ≠ .hlt) : t.halted = s.halted :=
  (exec_only h).halted_eq (footprint_halted hi s)

/-- Settles O20: the bus is in no footprint but OUT's, `halted` in none but HLT's, and the rest in no frame. -/
theorem onlyOutChangesTheBusAndOnlyHltHalts : Obligations.OnlyOutChangesTheBusAndOnlyHltHalts := by
  intro i s t h
  have frame := exec_only h
  refine ⟨fun hi => ?bus, exec_halted h, frame.faulted_eq, frame.params_eq, frame.schedule_eq⟩
  case bus =>
    obtain ⟨hl, hs⟩ := footprint_bus hi s
    exact frame.io hl hs

/-! ### What no instruction sees (spec/10_state.md rules R37 and R39) -/

/-- The state with another I/O bus and other moves to come. -/
def withUnseen (bus : IoBus → IoBus) (moves : List Move → List Move) (s : State) : State :=
  { s with io := bus s.io, schedule := moves s.schedule }

/-- The change of the bus shows in nothing an IN reads, and an OUT leaves it. -/
structure Unseen (bus : IoBus → IoBus) (moves : List Move → List Move) : Prop where
  ioRead : ∀ s port, (withUnseen bus moves s).ioRead port = s.ioRead port
  ioWrite : ∀ s port v, (withUnseen bus moves s).ioWrite port v = (s.ioWrite port v).map (withUnseen bus moves)

/-- Operations that commute with a change of the state, one after the other. -/
theorem bind_map_comm {x : Except Fault State} {f f' : State → Except Fault State} {g : State → State}
    (h : ∀ t, f' (g t) = (f t).map g) : (x.map g >>= f') = (x >>= f).map g := by
  cases x with
  | error e => rfl
  | ok t => exact h t

/-- A value read from what does not change, then an operation that commutes with the change. -/
theorem read_bind_comm {α : Type} {x : Except Fault α} {f f' : α → Except Fault State} {g : State → State}
    (h : ∀ v, f' v = (f v).map g) : (x >>= f') = (x >>= f).map g := by
  cases x with
  | error e => rfl
  | ok v => exact h v

/-- The same where the operation is an update. -/
theorem read_map_comm {α : Type} {x : Except Fault α} {f f' : α → State} {g : State → State}
    (h : ∀ v, f' v = g (f v)) : x.map f' = (x.map f).map g := by
  cases x with
  | error e => rfl
  | ok v => exact congrArg Except.ok (h v)

section
variable (bus : IoBus → IoBus) (moves : List Move → List Move) (s : State)

@[simp] theorem sp_withUnseen : (withUnseen bus moves s).sp = s.sp := rfl
@[simp] theorem flags_withUnseen : (withUnseen bus moves s).flags = s.flags := rfl
@[simp] theorem pair_withUnseen (p : Pair) : (withUnseen bus moves s).pair p = s.pair p := by cases p <;> rfl
@[simp] theorem memRead16_withUnseen (a : Int) : (withUnseen bus moves s).memRead16 a = s.memRead16 a := rfl
@[simp] theorem readM_withUnseen : (withUnseen bus moves s).readM = s.readM := rfl

theorem setPair_withUnseen (p : Pair) (v : Word) :
    (withUnseen bus moves s).setPair p v = withUnseen bus moves (s.setPair p v) := by cases p <;> rfl

theorem memWrite_withUnseen (a : Int) (v : Byte) :
    (withUnseen bus moves s).memWrite a v = (s.memWrite a v).map (withUnseen bus moves) := by
  unfold State.memWrite
  split <;> rfl

theorem memWrite16_withUnseen (a : Int) (v : Word) :
    (withUnseen bus moves s).memWrite16 a v = (s.memWrite16 a v).map (withUnseen bus moves) := by
  unfold State.memWrite16
  rw [memWrite_withUnseen]
  exact bind_map_comm fun t => memWrite_withUnseen bus moves t _ _

theorem writeM_withUnseen (v : Byte) :
    (withUnseen bus moves s).writeM v = (s.writeM v).map (withUnseen bus moves) := memWrite_withUnseen bus moves s _ v

theorem stepM_withUnseen (f : Byte → AluOut) :
    (withUnseen bus moves s).stepM f = (s.stepM f).map (withUnseen bus moves) := by
  unfold State.stepM
  rw [readM_withUnseen]
  refine read_bind_comm fun v => ?_
  rw [writeM_withUnseen]
  exact bind_map_comm fun t => rfl

theorem push16_withUnseen (v : Word) :
    (withUnseen bus moves s).push16 v = (s.push16 v).map (withUnseen bus moves) := by
  unfold State.push16
  rw [sp_withUnseen, memWrite_withUnseen]
  refine bind_map_comm fun t => ?_
  rw [memWrite_withUnseen]
  exact bind_map_comm fun u => rfl

theorem pop16_withUnseen :
    (withUnseen bus moves s).pop16 = s.pop16.map fun x => (x.1, withUnseen bus moves x.2) := by
  unfold State.pop16
  rw [sp_withUnseen, memRead16_withUnseen]
  cases s.memRead16 s.sp.toNat with
  | error e => rfl
  | ok v => rfl

/-- A pop, then an update that commutes with the change. -/
theorem pop16_map_withUnseen {f f' : Word × State → State}
    (h : ∀ v t, f' (v, withUnseen bus moves t) = withUnseen bus moves (f (v, t))) :
    (withUnseen bus moves s).pop16.map f' = (s.pop16.map f).map (withUnseen bus moves) := by
  rw [pop16_withUnseen]
  cases s.pop16 with
  | error e => rfl
  | ok x => exact congrArg Except.ok (h x.1 x.2)

theorem jumpIf_withUnseen (k : Cond) (a : Word) :
    (withUnseen bus moves s).jumpIf k a = withUnseen bus moves (s.jumpIf k a) := by
  unfold State.jumpIf
  rw [flags_withUnseen]
  split <;> rfl

theorem callTo_withUnseen (a : Word) :
    (withUnseen bus moves s).callTo a = (s.callTo a).map (withUnseen bus moves) := by
  unfold State.callTo
  rw [push16_withUnseen]
  exact bind_map_comm fun t => rfl

theorem callIf_withUnseen (k : Cond) (a : Word) :
    (withUnseen bus moves s).callIf k a = (s.callIf k a).map (withUnseen bus moves) := by
  unfold State.callIf
  rw [flags_withUnseen]
  split
  · exact callTo_withUnseen bus moves s a
  · rfl

theorem returnFromCall_withUnseen :
    (withUnseen bus moves s).returnFromCall = s.returnFromCall.map (withUnseen bus moves) := by
  unfold State.returnFromCall
  rw [pop16_withUnseen]
  cases s.pop16 with
  | error e => rfl
  | ok x => rfl

theorem returnIf_withUnseen (k : Cond) :
    (withUnseen bus moves s).returnIf k = (s.returnIf k).map (withUnseen bus moves) := by
  unfold State.returnIf
  rw [flags_withUnseen]
  split
  · exact returnFromCall_withUnseen bus moves s
  · rfl

theorem indirectAddress_withUnseen (p : Pair) :
    (withUnseen bus moves s).indirectAddress p = s.indirectAddress p := by
  rw [State.indirectAddress, pair_withUnseen]; rfl

/-- No effect depends on what is unseen, and none changes it. -/
theorem effect_withUnseen (h : Unseen bus moves) (i : Instr) :
    effect i (withUnseen bus moves s) = (effect i s).map (withUnseen bus moves) := by
  unfold effect
  cases i with
  | movMR r | mviM v => exact writeM_withUnseen bus moves s _
  | sta a => exact memWrite_withUnseen bus moves s _ _
  | shld a => exact memWrite16_withUnseen bus moves s _ _
  | movRM r | addM | adcM | subM | sbbM | anaM | xraM | oraM | cmpM => exact read_map_comm (x := s.readM) fun v => rfl
  | lda a => exact read_map_comm (x := s.memRead _) fun v => rfl
  | lhld a => exact read_map_comm (x := s.memRead16 _) fun v => rfl
  | ldax p =>
    dsimp only
    rw [indirectAddress_withUnseen]
    exact read_bind_comm fun a => read_map_comm (x := s.memRead a) fun v => rfl
  | stax p =>
    dsimp only
    rw [indirectAddress_withUnseen]
    exact read_bind_comm fun a => memWrite_withUnseen bus moves s a _
  | inrM | dcrM => exact stepM_withUnseen bus moves s _
  | lxi p v | inx p | dcx p => cases p <;> rfl
  | dad p => cases p <;> rfl
  | jnz a | jz a | jnc a | jc a | jpo a | jpe a | jp a | jm a =>
    exact congrArg Except.ok (jumpIf_withUnseen bus moves s _ a)
  | call a | rst a => exact callTo_withUnseen bus moves s _
  | cnz a | cz a | cnc a | cc a | cpo a | cpe a | cp a | cm a => exact callIf_withUnseen bus moves s _ a
  | ret => exact returnFromCall_withUnseen bus moves s
  | rnz | rz | rnc | rc | rpo | rpe | rp | rm => exact returnIf_withUnseen bus moves s _
  | push p =>
    refine read_bind_comm (x := stackOperand p) fun q => ?_
    rw [pair_withUnseen]
    exact push16_withUnseen bus moves s _
  | pushPsw => exact push16_withUnseen bus moves s _
  | pop p =>
    refine read_bind_comm (x := stackOperand p) fun q => ?_
    exact pop16_map_withUnseen bus moves s fun v t => setPair_withUnseen bus moves t q v
  | popPsw => exact pop16_map_withUnseen bus moves s fun v t => rfl
  | xthl =>
    dsimp only
    rw [memRead16_withUnseen, sp_withUnseen, pair_withUnseen, memWrite16_withUnseen]
    refine read_bind_comm fun v => ?_
    cases s.memWrite16 (asAddress s.sp) (s.pair .hl) with
    | error e => rfl
    | ok t => rfl
  | inPort port =>
    dsimp only
    rw [h.ioRead]
    exact read_map_comm fun v => rfl
  | outPort port => exact h.ioWrite s port _
  | _ => rfl

theorem exec_withUnseen (h : Unseen bus moves) (i : Instr) :
    exec i (withUnseen bus moves s) = mapNext (withUnseen bus moves) (exec i s) := by
  rw [exec_eq_finish, exec_eq_finish, effect_withUnseen bus moves s h]
  cases effect i s <;> rfl

end

/-- Settles O22: the schedule alone is changed, which no IN reads and no OUT writes. -/
theorem noInstructionSeesTheSchedule : Obligations.NoInstructionSeesTheSchedule := by
  intro i s m
  refine exec_withUnseen id (fun _ => m) s ⟨fun _ _ => rfl, fun t port v => ?_⟩ i
  unfold State.ioWrite
  split <;> rfl

theorem ioRead_withReadLatch3 (s : State) (v port : Byte) : (withReadLatch3 v s).ioRead port = s.ioRead port := by
  unfold State.ioRead
  split <;> simp [withReadLatch3, IoBus.shiftWindow, IoBus.shiftOffset]

theorem ioWrite_withReadLatch3 (s : State) (v port w : Byte) :
    (withReadLatch3 v s).ioWrite port w = (s.ioWrite port w).map (withReadLatch3 v) := by
  unfold State.ioWrite
  split <;> rfl

/-- Settles O21: port 3 reads the shift window, and no port reads RB[3]. -/
theorem noInstructionReadsInputLatchThree : Obligations.NoInstructionReadsInputLatchThree := by
  intro i s v
  exact exec_withUnseen (fun io => { io with rb := io.rb.set 3 v }) id s
    ⟨fun t => ioRead_withReadLatch3 t v, fun t => ioWrite_withReadLatch3 t v⟩ i

end Sys2Proof.Safety

namespace Sys2Proof.Safety

open Machine

/-! ### The fault tables (spec/60_exceptions.md rules R303 and R304) -/

/-- The result is the tabled fault, or a state when none is tabled. -/
def Tabled (x : Except Fault State) : Option Fault → Prop
  | some f => x = .error f
  | none => ∃ t, x = .ok t

theorem tabled_of_memRead (s : State) (a : Nat) (f : Byte → State) :
    Tabled ((s.memRead (a : Int)).map f) (faultAt a) := by
  unfold faultAt
  split
  · next h => rw [s.memRead_nat_error h]; rfl
  · next h => rw [s.memRead_nat (Nat.lt_of_not_le h)]; exact ⟨_, rfl⟩

theorem tabled_of_memWrite (s : State) (a : Nat) (v : Byte) : Tabled (s.memWrite (a : Int) v) (faultAt a) := by
  unfold faultAt
  split
  · next h => rw [s.memWrite_nat_error v h]; rfl
  · next h => rw [s.memWrite_nat v (Nat.lt_of_not_le h)]; exact ⟨_, rfl⟩

theorem tabled_of_memRead16 (s : State) (a : Nat) (f : Word → State) :
    Tabled ((s.memRead16 (a : Int)).map f) (faultAt2 a) := by
  unfold faultAt2
  split
  · next h => rw [memRead16_error s h]; rfl
  · next h =>
    split
    · next hlast => rw [memRead16_last s (by omega)]; rfl
    · next hlast => rw [memRead16_ok s (by omega)]; exact ⟨_, rfl⟩

theorem tabled_of_memWrite16 (s : State) (a : Nat) (v : Word) :
    Tabled (s.memWrite16 (a : Int) v) (faultAt2 a) := by
  unfold faultAt2
  split
  · next h => rw [memWrite16_error s v h]; rfl
  · next h =>
    split
    · next hlast => rw [memWrite16_last s v (by omega)]; rfl
    · next hlast => rw [memWrite16_ok s v (by omega)]; exact ⟨_, rfl⟩

theorem indirectAddress_ok (s : State) {p : Pair} (h : p.isIndirect = true) :
    s.indirectAddress p = .ok (pairNat s p : Int) := if_pos h

theorem stackOperand_ok {p : Pair} (h : p.isStackable = true) : stackOperand p = .ok p := if_pos h

theorem tabled_of_indirect {s : State} {p : Pair} {access : Int → Except Fault State} {f : Option Fault}
    (hp : p.isIndirect = true) (h : Tabled (access (pairNat s p : Int)) f) :
    Tabled (s.indirectAddress p >>= access) f := by
  rw [indirectAddress_ok s hp]; exact h

theorem tabled_of_stackOperand {p : Pair} {transfer : Pair → Except Fault State} {f : Option Fault}
    (hp : p.isStackable = true) (h : Tabled (transfer p) f) : Tabled (stackOperand p >>= transfer) f := by
  rw [stackOperand_ok hp]; exact h

/-- The state with one byte of memory written. -/
def stored (s : State) (a : Nat) (v : Byte) : State := { s with mem := s.mem.write a v }

/-- The state `stepM` reaches when HL is an address: the byte there stepped, the flags but C. -/
def steppedM (s : State) (f : Byte → AluOut) : State :=
  (stored s (pairNat s .hl) (f (byteAt s (pairNat s .hl))).result).setFlags
    (keepCarry s.flags (f (byteAt s (pairNat s .hl))).flags)

theorem stepM_ok (s : State) (f : Byte → AluOut) (h : pairNat s .hl < memSize) :
    s.stepM f = .ok (steppedM s f) := by
  simp only [State.stepM, readM_ok s h, writeM_ok s _ h, ok_bind, pure_eq_ok]
  rfl

theorem stepM_error (s : State) (f : Byte → AluOut) (h : memSize ≤ pairNat s .hl) :
    s.stepM f = .error (.outOfRange (pairNat s .hl)) := by
  simp only [State.stepM, readM_error s h, error_bind]

theorem tabled_of_stepM (s : State) (f : Byte → AluOut) : Tabled (s.stepM f) (faultAt (pairNat s .hl)) := by
  unfold faultAt
  split
  · next h => rw [stepM_error s f h]; rfl
  · next h => rw [stepM_ok s f (Nat.lt_of_not_le h)]; exact ⟨_, rfl⟩

theorem tabled_of_push16 {s : State} (h : Invariant s) (v : Word) : Tabled (s.push16 v) (pushFault s) := by
  unfold pushFault
  split
  · next hs => rw [push16_error s v hs]; rfl
  · next hs => rw [push16_ok s v h (Nat.le_of_not_lt hs)]; exact ⟨_, rfl⟩

theorem tabled_of_callTo {s : State} (h : Invariant s) (a : Word) : Tabled (s.callTo a) (pushFault s) := by
  unfold pushFault
  split
  · next hs => rw [callTo_error s a hs]; rfl
  · next hs => rw [callTo_ok s a h (Nat.le_of_not_lt hs)]; exact ⟨_, rfl⟩

/-- sp is the last address of memory or has one above it. -/
theorem sp_cases {s : State} (h : Invariant s) : s.sp.toNat + 1 = memSize ∨ s.sp.toNat + 1 < memSize :=
  (Nat.lt_or_eq_of_le h.sp_lt).symm

theorem popFault_of_last {s : State} (h : s.sp.toNat + 1 = memSize) : popFault s = some (.outOfRange memSize) :=
  if_pos (Nat.eq_sub_of_add_eq h)

theorem popFault_of_lt {s : State} (h : s.sp.toNat + 1 < memSize) : popFault s = none :=
  if_neg fun e => by omega

theorem tabled_of_pop16 {s : State} (h : Invariant s) (f : Word × State → State) :
    Tabled (s.pop16.map f) (popFault s) := by
  rcases sp_cases h with hs | hs
  · rw [popFault_of_last hs, pop16_error s hs]; rfl
  · rw [popFault_of_lt hs, pop16_ok s hs]; exact ⟨_, rfl⟩

theorem tabled_of_returnFromCall {s : State} (h : Invariant s) : Tabled s.returnFromCall (popFault s) := by
  rcases sp_cases h with hs | hs
  · rw [popFault_of_last hs, returnFromCall_error s hs]; rfl
  · rw [popFault_of_lt hs, returnFromCall_ok s hs]; exact ⟨_, rfl⟩

/-- A conditional form has the fault of its taken form when its condition holds, and none otherwise. -/
theorem Tabled.ite {s : State} {x : Except Fault State} {f : Option Fault} {k : Cond} {c : Prop} [Decidable c]
    (h : Tabled x f) (hc : s.flags.holds k = true ↔ c) :
    Tabled (if s.flags.holds k then x else .ok s) (if c then f else none) := by
  by_cases hk : c
  · rwa [if_pos (hc.mpr hk), if_pos hk]
  · rw [if_neg (mt hc.mp hk), if_neg hk]; exact ⟨s, rfl⟩

theorem tabled_of_xthl {s : State} (h : Invariant s) : Tabled (effect .xthl s) (popFault s) := by
  unfold effect asAddress
  dsimp only
  rcases sp_cases h with hs | hs
  · rw [popFault_of_last hs, memRead16_last s hs]; rfl
  · rw [popFault_of_lt hs, memRead16_ok s hs, memWrite16_ok s _ hs]; exact ⟨_, rfl⟩

theorem tabled_of_ioRead (s : State) (port : Byte) (f : Byte → State) :
    Tabled ((s.ioRead port).map f) (if 3 < port.toNat then some (.invalidPort port) else none) := by
  split
  · next h => rw [ioRead_error s port h]; rfl
  · next h =>
    by_cases h3 : port.toNat = 3
    · rw [ioRead_shift s port h3]; exact ⟨_, rfl⟩
    · have hport : port.toNat < numReadLatches := show port.toNat < 4 by omega
      rw [ioRead_latch s port ⟨port.toNat, hport⟩ (fun e => h3 (congrArg Fin.val e)) rfl]; exact ⟨_, rfl⟩

/-- The state after a write to an output latch: port 4 shifts the byte into SR too (R271). -/
def latched (s : State) (port v : Byte) (h : port.toNat < numWriteLatches) : State :=
  { s with io := { s.io with
      w := s.io.w.set port.toNat v
      sr := if port.toNat = 4 then shiftIn s.params.shiftModulus s.io.sr v else s.io.sr } }

theorem ioWrite_ok (s : State) (port v : Byte) (h : port.toNat < numWriteLatches) :
    s.ioWrite port v = .ok (latched s port v h) := dif_pos h

theorem tabled_of_ioWrite (s : State) (port v : Byte) :
    Tabled (s.ioWrite port v) (if 6 < port.toNat then some (.invalidPort port) else none) := by
  split
  · next h => rw [ioWrite_error s port v h]; rfl
  · next h => exact ⟨_, ioWrite_ok s port v (show port.toNat < 7 by omega)⟩

theorem effect_tabled {i : Instr} {s : State} (h : Invariant s) : Tabled (effect i s) (faultOf i s) := by
  unfold effect faultOf
  cases i with
  | movRM r | addM | adcM | subM | sbbM | anaM | xraM | oraM | cmpM => exact tabled_of_memRead s (pairNat s .hl) _
  | movMR r | mviM v => exact tabled_of_memWrite s (pairNat s .hl) _
  | inrM | dcrM => exact tabled_of_stepM s _
  | lda a => exact tabled_of_memRead s a.toNat _
  | sta a => exact tabled_of_memWrite s a.toNat _
  | lhld a => exact tabled_of_memRead16 s a.toNat _
  | shld a => exact tabled_of_memWrite16 s a.toNat _
  | ldax p =>
    cases p
    case bc => exact tabled_of_indirect rfl (tabled_of_memRead s (pairNat s .bc) _)
    case de => exact tabled_of_indirect rfl (tabled_of_memRead s (pairNat s .de) _)
    case hl | sp => rfl
  | stax p =>
    cases p
    case bc => exact tabled_of_indirect rfl (tabled_of_memWrite s (pairNat s .bc) _)
    case de => exact tabled_of_indirect rfl (tabled_of_memWrite s (pairNat s .de) _)
    case hl | sp => rfl
  | call a | rst n => exact tabled_of_callTo h _
  | cnz a | cnc a | cpo a | cp a => exact (tabled_of_callTo h a).ite (by simp [Flags.holds])
  | cz a | cc a | cpe a | cm a => exact (tabled_of_callTo h a).ite Iff.rfl
  | ret => exact tabled_of_returnFromCall h
  | rnz | rnc | rpo | rp => exact (tabled_of_returnFromCall h).ite (by simp [Flags.holds])
  | rz | rc | rpe | rm => exact (tabled_of_returnFromCall h).ite Iff.rfl
  | push p =>
    cases p
    case bc | de | hl => exact tabled_of_stackOperand rfl (tabled_of_push16 h _)
    case sp => rfl
  | pop p =>
    cases p
    case bc | de | hl => exact tabled_of_stackOperand rfl (tabled_of_pop16 h _)
    case sp => rfl
  | pushPsw => exact tabled_of_push16 h _
  | popPsw => exact tabled_of_pop16 h _
  | xthl => exact tabled_of_xthl h
  | inPort port => exact tabled_of_ioRead s port _
  | outPort port => exact tabled_of_ioWrite s port _
  | undef08 | undef10 | undef18 | undef20 | undef28 | undef30 | undef38 => rfl
  | undefCB | undefD9 | undefDD | undefED | undefFD => rfl
  | _ => exact ⟨_, rfl⟩

/-- Settles O17: the effect of every instruction is the tabled fault or a state. -/
theorem everyInstructionCompletesOrFaultsAsTabled : Obligations.EveryInstructionCompletesOrFaultsAsTabled := by
  intro i s h
  have table := effect_tabled (i := i) h
  refine ⟨fun f hf => ?fault, fun hf => ?completes⟩
  case fault =>
    rw [hf] at table
    exact exec_fault.mpr table
  case completes =>
    rw [hf] at table
    obtain ⟨t, ht⟩ := table
    exact ⟨t, exec_next.mpr ht⟩

end Sys2Proof.Safety

namespace Sys2Proof.Safety

open Machine

/-! ### Which faults an instruction can raise, in any state (spec/60_exceptions.md rules R301 and R302) -/

/-- Whatever fails here fails at an address. -/
def OnlyAddressFaults {α : Type} (x : Except Fault α) : Prop := ∀ f, x = .error f → ∃ a, f = .outOfRange a

theorem OnlyAddressFaults.ok {α : Type} (v : α) : OnlyAddressFaults (.ok v) := nofun

theorem OnlyAddressFaults.bind {α β : Type} {x : Except Fault α} {g : α → Except Fault β} (hx : OnlyAddressFaults x)
    (hg : ∀ v, OnlyAddressFaults (g v)) : OnlyAddressFaults (x >>= g) := by
  intro f h
  cases x with
  | error e => cases h; exact hx f rfl
  | ok v => exact hg v f h

theorem OnlyAddressFaults.map {α β : Type} {x : Except Fault α} {g : α → β} (hx : OnlyAddressFaults x) :
    OnlyAddressFaults (x.map g) := by
  intro f h
  cases x with
  | error e => cases h; exact hx f rfl
  | ok v => cases h

theorem OnlyAddressFaults.ite {α : Type} {c : Prop} [Decidable c] {x y : Except Fault α} (hx : OnlyAddressFaults x)
    (hy : OnlyAddressFaults y) : OnlyAddressFaults (if c then x else y) := by
  split
  · exact hx
  · exact hy

theorem memRead_faults (s : State) (a : Int) : OnlyAddressFaults (s.memRead a) :=
  .ite (.ok _) fun _ h => by cases h; exact ⟨a, rfl⟩

theorem memWrite_faults (s : State) (a : Int) (v : Byte) : OnlyAddressFaults (s.memWrite a v) :=
  .ite (.ok _) fun _ h => by cases h; exact ⟨a, rfl⟩

theorem memRead16_faults (s : State) (a : Int) : OnlyAddressFaults (s.memRead16 a) :=
  (memRead_faults s a).bind fun _ => (memRead_faults s (a + 1)).bind fun _ => .ok _

theorem memWrite16_faults (s : State) (a : Int) (v : Word) : OnlyAddressFaults (s.memWrite16 a v) :=
  (memWrite_faults s a _).bind fun t => memWrite_faults t (a + 1) _

theorem stepM_faults (s : State) (g : Byte → AluOut) : OnlyAddressFaults (s.stepM g) :=
  (memRead_faults s _).bind fun _ => (memWrite_faults s _ _).bind fun _ => .ok _

theorem push16_faults (s : State) (v : Word) : OnlyAddressFaults (s.push16 v) :=
  (memWrite_faults s _ _).bind fun t => (memWrite_faults t _ _).bind fun _ => .ok _

theorem pop16_faults (s : State) : OnlyAddressFaults s.pop16 := (memRead16_faults s _).bind fun _ => .ok _

theorem callTo_faults (s : State) (a : Word) : OnlyAddressFaults (s.callTo a) := (push16_faults s _).bind fun _ => .ok _

theorem returnFromCall_faults (s : State) : OnlyAddressFaults s.returnFromCall := (pop16_faults s).bind fun _ => .ok _

theorem callIf_faults (s : State) (k : Cond) (a : Word) : OnlyAddressFaults (s.callIf k a) :=
  .ite (callTo_faults s a) (.ok s)

theorem returnIf_faults (s : State) (k : Cond) : OnlyAddressFaults (s.returnIf k) :=
  .ite (returnFromCall_faults s) (.ok s)

/-- The faults that fit an instruction: DecodeFailure of its own byte where that is undefined, InvalidRegister where it
has no encoding, and the faults of addresses and ports. -/
def FaultFits (i : Instr) : Fault → Prop
  | .decodeFailure op => op ∈ undefinedBytes ∧ encode i = [op]
  | .invalidRegister _ => i.wellFormed = false
  | .invalidPort _ | .outOfRange _ => True

theorem OnlyAddressFaults.fits {α : Type} {x : Except Fault α} (hx : OnlyAddressFaults x) {f : Fault}
    (h : x = .error f) (i : Instr) : FaultFits i f := by
  obtain ⟨a, rfl⟩ := hx f h
  trivial

theorem ioRead_fault {s : State} {port : Byte} {f : Fault} (h : s.ioRead port = .error f) : f = .invalidPort port := by
  unfold State.ioRead at h
  split at h <;> cases h
  rfl

theorem ioWrite_fault {s : State} {port v : Byte} {f : Fault} (h : s.ioWrite port v = .error f) :
    f = .invalidPort port := by
  unfold State.ioWrite at h
  split at h <;> cases h
  rfl

theorem bind_error {α β : Type} {x : Except Fault α} {g : α → Except Fault β} {f : Fault} :
    (x >>= g) = .error f ↔ x = .error f ∨ ∃ v, x = .ok v ∧ g v = .error f := by
  cases x <;> simp

theorem mapped_error {α β : Type} {x : Except Fault α} {g : α → β} {f : Fault} :
    x.map g = .error f ↔ x = .error f := by
  cases x <;> simp

/-- LDAX and STAX: the pair is refused where the instruction has no encoding, or the access fails. -/
theorem fits_of_indirect {i : Instr} {s : State} {p : Pair} {access : Int → Except Fault State} {f : Fault}
    (h : s.indirectAddress p >>= access = .error f) (hi : i.wellFormed = p.isIndirect)
    (haccess : ∀ a, OnlyAddressFaults (access a)) : FaultFits i f := by
  obtain h | ⟨a, -, h⟩ := bind_error.mp h
  · unfold State.indirectAddress at h
    split at h
    · cases h
    · next hp => cases h; exact hi.trans (Bool.eq_false_iff.mpr hp)
  · exact (haccess a).fits h i

/-- PUSH and POP: the pair is refused where the instruction has no encoding, or the transfer fails. -/
theorem fits_of_stackOperand {i : Instr} {p : Pair} {transfer : Pair → Except Fault State} {f : Fault}
    (h : stackOperand p >>= transfer = .error f) (hi : i.wellFormed = p.isStackable)
    (htransfer : ∀ q, OnlyAddressFaults (transfer q)) : FaultFits i f := by
  obtain h | ⟨q, -, h⟩ := bind_error.mp h
  · unfold stackOperand at h
    split at h
    · cases h
    · next hp => cases h; exact hi.trans (Bool.eq_false_iff.mpr hp)
  · exact (htransfer q).fits h i

theorem effect_fault_fits {i : Instr} {s : State} {f : Fault} (h : effect i s = .error f) : FaultFits i f := by
  unfold effect at h
  cases i with
  | movRM r | addM | adcM | subM | sbbM | anaM | xraM | oraM | cmpM => exact (memRead_faults s _).map.fits h _
  | movMR r | mviM v | sta a => exact (memWrite_faults s _ _).fits h _
  | lda a => exact (memRead_faults s _).map.fits h _
  | lhld a => exact (memRead16_faults s _).map.fits h _
  | shld a => exact (memWrite16_faults s _ _).fits h _
  | ldax p => exact fits_of_indirect h rfl fun a => (memRead_faults s a).map
  | stax p => exact fits_of_indirect h rfl fun a => memWrite_faults s a _
  | inrM | dcrM => exact (stepM_faults s _).fits h _
  | call a | rst a => exact (callTo_faults s _).fits h _
  | cnz a | cz a | cnc a | cc a | cpo a | cpe a | cp a | cm a => exact (callIf_faults s _ a).fits h _
  | ret => exact (returnFromCall_faults s).fits h _
  | rnz | rz | rnc | rc | rpo | rpe | rp | rm => exact (returnIf_faults s _).fits h _
  | push p => exact fits_of_stackOperand h rfl fun q => push16_faults s _
  | pop p => exact fits_of_stackOperand h rfl fun q => (pop16_faults s).map
  | pushPsw => exact (push16_faults s _).fits h _
  | popPsw => exact (pop16_faults s).map.fits h _
  | xthl => exact ((memRead16_faults s _).bind fun v => (memWrite16_faults s _ _).map).fits h _
  | inPort port => cases ioRead_fault (mapped_error.mp h); trivial
  | outPort port => cases ioWrite_fault h; trivial
  | undef08 | undef10 | undef18 | undef20 | undef28 | undef30 | undef38 => cases h; exact ⟨by decide, rfl⟩
  | undefCB | undefD9 | undefDD | undefED | undefFD => cases h; exact ⟨by decide, rfl⟩
  | _ => cases h

theorem exec_fault_fits {i : Instr} {s : State} {f : Fault} (h : exec i s = .fault f) : FaultFits i f :=
  effect_fault_fits (exec_fault.mp h)

/-- Settles O6: InvalidRegister fits only what has no encoding, and what decodes has one. -/
theorem pairsWithoutAnEncodingAreInvalidRegisters : Obligations.PairsWithoutAnEncodingAreInvalidRegisters := by
  refine ⟨fun s => ⟨rfl, rfl, rfl, rfl, rfl, rfl⟩, fun bs i rest hd s code h => ?_⟩
  have hwf : i.wellFormed = true := (encodeOfDecodeGivesTheBytes bs i rest hd).1
  have hno : i.wellFormed = false := exec_fault_fits h
  simp [hwf] at hno

/-- Each undefined byte selects an instruction of its own, which raises DecodeFailure of that byte (R97). -/
theorem undefined_selects : ∀ op ∈ undefinedBytes,
    ∃ i, decodeOpcode op = .implied i ∧ ∀ s, exec i s = .fault (.decodeFailure op) := by
  intro op hop
  fin_cases hop <;> exact ⟨_, rfl, fun _ => rfl⟩

/-- Settles O5: each byte selects an instruction that raises its DecodeFailure, fetched or injected; the other way
round, DecodeFailure fits only an instruction encoded as an undefined byte. -/
theorem theTwelveUndefinedBytesFailDecoding : Obligations.TheTwelveUndefinedBytesFailDecoding := by
  refine ⟨fun s => ⟨rfl, rfl, rfl, rfl, rfl, rfl, rfl, rfl, rfl, rfl, rfl, rfl⟩, fun op hop s hs hrun => ?steps,
    fun op hop rest i after hd s f h => ?others⟩
  case steps =>
    obtain ⟨i, hi, hexec⟩ := undefined_selects op hop
    refine ⟨fun hmove hbyte => ?fetched, fun hmove => ?injected⟩
    case fetched =>
      obtain ⟨rest, hd⟩ := decode_bytesFrom_of_implied hs.pc_lt (hbyte ▸ hi)
      rw [stepRunsTheFetchedInstruction s i rest hs hrun hmove hd, hexec]
    case injected => rw [stepRunsTheInjectedOpcode s op i _ hs hrun hmove (decode_implied _ hi), hexec]
  case others =>
    obtain ⟨hf, henc⟩ : f ∈ undefinedBytes ∧ encode i = [f] := exec_fault_fits h
    have hbytes : op :: rest = encode i ++ after := (encodeOfDecodeGivesTheBytes _ i after hd).2
    rw [henc] at hbytes
    cases hbytes
    exact hop hf

end Sys2Proof.Safety

namespace Sys2Proof.Safety

open Machine

/-! ### Views of the state (spec/10_state.md rules R23, R24, R33 and R34) -/

/-- Settles O23: a pair is the join of its two registers, and SP is wrapped. -/
theorem pairsAreViewsOfTheRegisters : Obligations.PairsAreViewsOfTheRegisters := fun s v =>
  ⟨joinBytes_toNat _ _, joinBytes_toNat _ _, joinBytes_toNat _ _, rfl,
    fun _ hp => ⟨pair_setPair s v hp, only_setPair s v hp⟩, wrapAddr_toNat v, only_setSp s v⟩

theorem psw_reserved (m : PswLayout) (f : Flags) : psw m f &&& ~~~ pswMask m = 0 := by
  obtain ⟨s, z, ac, p, c⟩ := f
  cases m <;> revert s z ac p c <;> decide

theorem psw_lsb0_toNat (f : Flags) : (psw .lsb0Literal f).toNat =
    128 * f.c.toNat + 32 * f.p.toNat + 8 * f.ac.toNat + 2 * f.z.toNat + f.s.toNat := by
  obtain ⟨s, z, ac, p, c⟩ := f
  revert s z ac p c
  decide

theorem psw_flagsOfPsw (m : PswLayout) (v : Byte) : psw m (flagsOfPsw m v) = v &&& pswMask m := by
  cases m <;> revert v <;> decide

/-- Settles O24: the bits of each layout, one by one. -/
theorem statusByteAndFlagsRoundTrip : Obligations.StatusByteAndFlagsRoundTrip := fun m f v =>
  ⟨psw_bits m f, psw_reserved m f, psw_lsb0_toNat f, flagsOfPsw_bits m v, flagsOfPsw_psw m f, psw_flagsOfPsw m v⟩

/-! ### Memory (spec/20_memory.md rules R52, R53, R66 and R68) -/

/-- What is written reads back. -/
theorem byteAt_memWrite_same {s : State} (h : Invariant s) (a : Nat) (v : Byte) :
    byteAt { s with mem := s.mem.write a v } a = v :=
  (Memory.read_write s.mem a a v h.mem_wf.1).trans (if_pos rfl)

/-- Settles O25: the two access primitives, by whether the address is one of memory. -/
theorem memoryReadsBackWritesAndFaultsOutside : Obligations.MemoryReadsBackWritesAndFaultsOutside := by
  intro s a v hs
  refine ⟨fun h0 hlt => ?inside, fun h => ?outside⟩
  case inside =>
    have ha : inMemory a := ⟨h0, hlt⟩
    have hw := s.memWrite_ok v ha
    refine ⟨s.memRead_ok ha, _, hw, ?_, only_memWrite hw, (hs.memWrite hw).mem_wf⟩
    rw [State.memRead_ok _ ha]
    exact congrArg Except.ok (byteAt_memWrite_same hs a.toNat v)
  case outside =>
    have ha : ¬ inMemory a := fun ⟨h0, hlt⟩ => by omega
    exact ⟨s.memRead_error ha, s.memWrite_error v ha⟩

theorem setRam_cons (s : State) (a : Nat) (v : Byte) (rest : List Byte) :
    s.setRam a (v :: rest) = s.memWrite (a : Int) v >>= fun t => t.setRam (a + 1) rest := rfl

theorem setRam_ok {s : State} (hs : Invariant s) {a : Nat} {bs : List Byte} (h : a + bs.length ≤ memSize) :
    ∃ t, s.setRam a bs = .ok t ∧ (∀ k (h : k < bs.length), byteAt t (a + k) = bs[k]) ∧
      OnlyChanges { mem := List.range' a bs.length } s t := by
  induction bs generalizing s a with
  | nil => exact ⟨s, rfl, fun k hk => absurd hk (Nat.not_lt_zero k), .refl _ s⟩
  | cons v rest ih =>
    have hlen : a + 1 + rest.length ≤ memSize := by rw [List.length_cons] at h; omega
    have hw := s.memWrite_nat (a := a) v (by omega)
    obtain ⟨t, ht, hbytes, frame⟩ := ih (hs.memWrite hw) hlen
    refine ⟨t, by rw [setRam_cons, hw, ok_bind, ht], fun k hk => ?bytes, ?frame⟩
    case bytes =>
      cases k with
      | zero =>
        have hout : a ∉ List.range' (a + 1) rest.length := by simp [List.mem_range'_1]
        exact (frame.byteAt_eq hout).trans (byteAt_memWrite_same hs a v)
      | succ k =>
        rw [Nat.add_succ, ← Nat.succ_add]
        exact hbytes k (Nat.lt_of_succ_lt_succ hk)
    case frame =>
      refine ((only_writeMem s a v).mono ?_).trans (frame.mono ?_)
      · simp [Footprint.le, List.range'_succ]
      · simp [Footprint.le, List.range'_succ]

theorem setRam_error {s : State} {a : Nat} {bs : List Byte} (hne : bs ≠ []) (h : memSize < a + bs.length) :
    s.setRam a bs = .error (.outOfRange (max a memSize : Nat)) := by
  induction bs generalizing s a with
  | nil => exact absurd rfl hne
  | cons v rest ih =>
    rw [setRam_cons]
    rcases Nat.lt_or_ge a memSize with ha | ha
    · have hlen : memSize < a + 1 + rest.length := by rw [List.length_cons] at h; omega
      have hrest : rest ≠ [] := by rintro rfl; exact absurd hlen (by simpa using ha)
      rw [s.memWrite_nat v ha, ok_bind, ih hrest hlen, Nat.max_eq_right ha, Nat.max_eq_right (Nat.le_of_lt ha)]
    · rw [s.memWrite_nat_error v ha, error_bind, Nat.max_eq_left ha]

theorem findByte_eq_some {s : State} {v : Byte} {a k : Nat} : s.findByte v a = some k ↔
    a ≤ k ∧ k < memSize ∧ byteAt s k = v ∧ ∀ j, a ≤ j → j < k → byteAt s j ≠ v := by
  have hrange : k ∈ List.range' a (memSize - a) ↔ a ≤ k ∧ k < memSize := by
    rw [List.mem_range'_1]; omega
  rw [State.findByte, List.find?_range'_eq_some, hrange]
  simp only [beq_iff_eq, Bool.not_eq_true', beq_eq_false_iff_ne, byteAt]
  tauto

theorem findByte_eq_none {s : State} {v : Byte} {a : Nat} : s.findByte v a = none ↔
    ∀ j, a ≤ j → j < memSize → byteAt s j ≠ v := by
  rw [State.findByte, List.find?_range'_eq_none]
  simp only [Bool.not_eq_true', beq_eq_false_iff_ne, byteAt]
  exact forall_congr' fun j => forall_congr' fun hj => imp_congr_left (by omega)

/-- Settles O26: the load by induction on the bytes, the search by what `find?` gives on a range. -/
theorem loaderAndSearchWorkOnTheBytes : Obligations.LoaderAndSearchWorkOnTheBytes := fun _ _ _ _ hs =>
  ⟨setRam_ok hs, setRam_error, fun _ => findByte_eq_some, findByte_eq_none⟩

end Sys2Proof.Safety

namespace Sys2Proof.Safety

open Machine

/-! ### Loads, stores and exchange (spec/40_data_transfer.md) -/

/-- A word instruction's encoding: the opcode, then its operand low byte first (R88). -/
theorem encodedAs_of_wantsWord {op : Byte} {build : Word → Instr} (lo hi : Byte)
    (h : decodeOpcode op = .wantsWord build) : EncodedAs (build (hi ++ lo)) [op, lo, hi] := by
  have spec := decodeOpcode_spec op
  rw [h] at spec
  exact ⟨(spec (joinBytes hi lo)).2.trans (withOperand_join op lo hi), decode_wantsWord lo hi [] h⟩

theorem decodeOpcode_lxi (p : Pair) : decodeOpcode (0b00#2 ++ p.code ++ 0b0001#4) = .wantsWord (.lxi p) := by
  cases p <;> rfl

theorem exec_lxi (p : Pair) (v : Word) (s : State) : exec (.lxi p v) s = .next (s.setPair p v) := rfl

theorem exec_xchg (s : State) : exec .xchg s = .next ((s.setPair .hl (s.pair .de)).setPair .de (s.pair .hl)) := rfl

/-- Settles O28: LXI is one pair write, XCHG two, each of the pair the other one held. -/
theorem pairLoadAndExchange : Obligations.PairLoadAndExchange := by
  intro s p lo hi
  refine ⟨encodedAs_of_wantsWord lo hi (decodeOpcode_lxi p), ⟨_, exec_lxi p _ s, fun hp => ?pair, ?sp⟩,
    encodedAs_of_implied rfl, _, exec_xchg s, ?_, ?_, ?_, ?_, exec_only (exec_xchg s)⟩
  case pair => exact ⟨pair_setPair s _ hp, only_setPair s _ hp⟩
  case sp =>
    rintro rfl
    exact ⟨(wrapAddr_toNat _).trans (congrArg (· % memSize) (joinBytes_toNat hi lo)), only_setSp s _⟩
  · exact hiByte_joinBytes (s.reg .d) (s.reg .e)
  · exact loByte_joinBytes (s.reg .d) (s.reg .e)
  · exact hiByte_joinBytes (s.reg .h) (s.reg .l)
  · exact loByte_joinBytes (s.reg .h) (s.reg .l)

theorem exec_movRM_ok (dst : Reg) {s : State} (h : pairNat s .hl < memSize) :
    exec (.movRM dst) s = .next (s.setReg dst (byteAt s (pairNat s .hl))) := by
  rw [exec_eq_finish, effect, readM_ok s h, map_ok, finish_ok]

theorem exec_movRM_error (dst : Reg) {s : State} (h : memSize ≤ pairNat s .hl) :
    exec (.movRM dst) s = .fault (.outOfRange (pairNat s .hl)) := by
  rw [exec_eq_finish, effect, readM_error s h, map_error, finish_error]

theorem exec_lda_ok {s : State} {a : Word} (h : a.toNat < memSize) :
    exec (.lda a) s = .next (s.setAcc (byteAt s a.toNat)) := by
  rw [exec_eq_finish, effect, asAddress, s.memRead_nat h, map_ok, finish_ok, byteAt]

theorem exec_lda_error {s : State} {a : Word} (h : memSize ≤ a.toNat) :
    exec (.lda a) s = .fault (.outOfRange a.toNat) := by
  rw [exec_eq_finish, effect, asAddress, s.memRead_nat_error h, map_error, finish_error]

theorem exec_lhld_ok {s : State} {a : Word} (h : a.toNat + 1 < memSize) :
    exec (.lhld a) s = .next (s.setPair .hl (joinBytes (byteAt s (a.toNat + 1)) (byteAt s a.toNat))) := by
  rw [exec_eq_finish, effect, asAddress, memRead16_ok s h, map_ok, finish_ok]

theorem exec_lhld_error {s : State} {a : Word} (h : memSize ≤ a.toNat) :
    exec (.lhld a) s = .fault (.outOfRange a.toNat) := by
  rw [exec_eq_finish, effect, asAddress, memRead16_error s h, map_error, finish_error]

theorem exec_lhld_last {s : State} {a : Word} (h : a.toNat + 1 = memSize) :
    exec (.lhld a) s = .fault (.outOfRange memSize) := by
  rw [exec_eq_finish, effect, asAddress, memRead16_last s h, map_error, finish_error]

theorem exec_ldax_ok {s : State} {p : Pair} (hp : p.isIndirect = true) (h : pairNat s p < memSize) :
    exec (.ldax p) s = .next (s.setAcc (byteAt s (pairNat s p))) := by
  rw [exec_eq_finish, effect, indirectAddress_ok s hp, ok_bind, s.memRead_nat h, map_ok, finish_ok, byteAt]

theorem exec_ldax_error {s : State} {p : Pair} (hp : p.isIndirect = true) (h : memSize ≤ pairNat s p) :
    exec (.ldax p) s = .fault (.outOfRange (pairNat s p)) := by
  rw [exec_eq_finish, effect, indirectAddress_ok s hp, ok_bind, s.memRead_nat_error h, map_error, finish_error]

theorem isIndirect_of_bc_or_de {p : Pair} (h : p = .bc ∨ p = .de) : p.isIndirect = true := by
  rcases h with rfl | rfl <;> rfl

theorem decodeOpcode_movRM (dst : Reg) : decodeOpcode (0b01#2 ++ dst.code ++ 0b110#3) = .implied (.movRM dst) := by
  cases dst <;> rfl

theorem decodeOpcode_ldax {p : Pair} (h : p = .bc ∨ p = .de) :
    decodeOpcode (0b00#2 ++ p.code ++ 0b1010#4) = .implied (.ldax p) := by
  rcases h with rfl | rfl <;> rfl

/-- Settles O29: each load is one read of memory and one register write. -/
theorem loadsReadTheAddressedBytes : Obligations.LoadsReadTheAddressedBytes := by
  intro s dst p lo hi a
  have ha : (hi ++ lo : Word).toNat = a := joinBytes_toNat hi lo
  rw [← ha]
  refine ⟨encodedAs_of_implied (decodeOpcode_movRM dst), fun h => ?movRM, exec_movRM_error dst,
    encodedAs_of_wantsWord lo hi rfl, fun h => ?lda, exec_lda_error,
    encodedAs_of_wantsWord lo hi rfl, fun h => ?lhld, exec_lhld_error, exec_lhld_last,
    fun hp => ⟨encodedAs_of_implied (decodeOpcode_ldax hp), fun h => ?ldax,
      exec_ldax_error (isIndirect_of_bc_or_de hp)⟩, fun hp => ?noPair⟩
  case movRM => exact ⟨_, exec_movRM_ok dst h, State.reg_setReg_same s dst _, only_setReg s dst _⟩
  case lda => exact ⟨_, exec_lda_ok h, State.acc_setAcc s _, only_setAcc s _⟩
  case lhld =>
    exact ⟨_, exec_lhld_ok h, loByte_joinBytes _ _, hiByte_joinBytes _ _, only_setPair s (p := .hl) _ nofun⟩
  case ldax =>
    exact ⟨_, exec_ldax_ok (isIndirect_of_bc_or_de hp) h, State.acc_setAcc s _, only_setAcc s _⟩
  case noPair => rcases hp with rfl | rfl <;> rfl

/-! #### Stores -/

/-- An instruction whose whole effect is one byte stored. -/
theorem completes_of_exec_stored {i : Instr} {s : State} {a : Nat} {v : Byte} (hs : Invariant s)
    (h : exec i s = .next (stored s a v)) :
    Completes i s fun t => byteAt t a = v ∧ OnlyChanges { mem := [a] } s t :=
  ⟨_, h, byteAt_memWrite_same hs a v, only_writeMem s a v⟩

theorem exec_movMR_ok (src : Reg) {s : State} (h : pairNat s .hl < memSize) :
    exec (.movMR src) s = .next (stored s (pairNat s .hl) (s.reg src)) := by
  rw [exec_eq_finish, effect, writeM_ok s _ h, finish_ok, stored]

theorem exec_movMR_error (src : Reg) {s : State} (h : memSize ≤ pairNat s .hl) :
    exec (.movMR src) s = .fault (.outOfRange (pairNat s .hl)) := by
  rw [exec_eq_finish, effect, writeM_error s _ h, finish_error]

theorem exec_mviM_ok (v : Byte) {s : State} (h : pairNat s .hl < memSize) :
    exec (.mviM v) s = .next (stored s (pairNat s .hl) v) := by
  rw [exec_eq_finish, effect, writeM_ok s v h, finish_ok, stored]

theorem exec_mviM_error (v : Byte) {s : State} (h : memSize ≤ pairNat s .hl) :
    exec (.mviM v) s = .fault (.outOfRange (pairNat s .hl)) := by
  rw [exec_eq_finish, effect, writeM_error s v h, finish_error]

theorem exec_sta_ok {s : State} {a : Word} (h : a.toNat < memSize) :
    exec (.sta a) s = .next (stored s a.toNat s.acc) := by
  rw [exec_eq_finish, effect, asAddress, s.memWrite_nat _ h, finish_ok, stored]

theorem exec_sta_error {s : State} {a : Word} (h : memSize ≤ a.toNat) :
    exec (.sta a) s = .fault (.outOfRange a.toNat) := by
  rw [exec_eq_finish, effect, asAddress, s.memWrite_nat_error _ h, finish_error]

theorem exec_shld_ok {s : State} {a : Word} (h : a.toNat + 1 < memSize) :
    exec (.shld a) s = .next (wrote16 s a.toNat (s.pair .hl)) := by
  rw [exec_eq_finish, effect, asAddress, memWrite16_ok s _ h, finish_ok]

theorem exec_shld_error {s : State} {a : Word} (h : memSize ≤ a.toNat) :
    exec (.shld a) s = .fault (.outOfRange a.toNat) := by
  rw [exec_eq_finish, effect, asAddress, memWrite16_error s _ h, finish_error]

theorem exec_shld_last {s : State} {a : Word} (h : a.toNat + 1 = memSize) :
    exec (.shld a) s = .fault (.outOfRange memSize) := by
  rw [exec_eq_finish, effect, asAddress, memWrite16_last s _ h, finish_error]

theorem exec_stax_ok {s : State} {p : Pair} (hp : p.isIndirect = true) (h : pairNat s p < memSize) :
    exec (.stax p) s = .next (stored s (pairNat s p) s.acc) := by
  rw [exec_eq_finish, effect, indirectAddress_ok s hp, ok_bind, s.memWrite_nat _ h, finish_ok, stored]

theorem exec_stax_error {s : State} {p : Pair} (hp : p.isIndirect = true) (h : memSize ≤ pairNat s p) :
    exec (.stax p) s = .fault (.outOfRange (pairNat s p)) := by
  rw [exec_eq_finish, effect, indirectAddress_ok s hp, ok_bind, s.memWrite_nat_error _ h, finish_error]

theorem decodeOpcode_movMR (src : Reg) : decodeOpcode (0b01110#5 ++ src.code) = .implied (.movMR src) := by
  cases src <;> rfl

theorem decodeOpcode_stax {p : Pair} (h : p = .bc ∨ p = .de) :
    decodeOpcode (0b00#2 ++ p.code ++ 0b0010#4) = .implied (.stax p) := by
  rcases h with rfl | rfl <;> rfl

/-- The bytes of HL, stored: L below H (R54). -/
theorem byteAt_wrote16_hl {s : State} (hs : Invariant s) (a : Nat) :
    byteAt (wrote16 s a (s.pair .hl)) a = s.reg .l ∧ byteAt (wrote16 s a (s.pair .hl)) (a + 1) = s.reg .h :=
  ⟨(byteAt_wrote16_low s a _ hs.mem_wf).trans (loByte_joinBytes _ _),
    (byteAt_wrote16_high s a _ hs.mem_wf).trans (hiByte_joinBytes _ _)⟩

/-- Settles O30: each store is one write of memory, or two for SHLD, which canonical memory reads back. -/
theorem storesWriteTheAddressedBytes : Obligations.StoresWriteTheAddressedBytes := by
  intro s src v p lo hi hs a hl
  have ha : (hi ++ lo : Word).toNat = a := joinBytes_toNat hi lo
  rw [← ha]
  refine ⟨encodedAs_of_implied (decodeOpcode_movMR src), encodedAs_of_wantsByte v rfl,
    fun h => ⟨completes_of_exec_stored hs (exec_movMR_ok src h), completes_of_exec_stored hs (exec_mviM_ok v h)⟩,
    fun h => ⟨exec_movMR_error src h, exec_mviM_error v h⟩,
    encodedAs_of_wantsWord lo hi rfl, fun h => completes_of_exec_stored hs (exec_sta_ok h), exec_sta_error,
    encodedAs_of_wantsWord lo hi rfl, fun h => ?shld, exec_shld_error, exec_shld_last,
    fun hp => ⟨encodedAs_of_implied (decodeOpcode_stax hp),
      fun h => completes_of_exec_stored hs (exec_stax_ok (isIndirect_of_bc_or_de hp) h),
      exec_stax_error (isIndirect_of_bc_or_de hp)⟩, fun hp => ?noPair⟩
  case shld =>
    obtain ⟨hlow, hhigh⟩ := byteAt_wrote16_hl hs (hi ++ lo : Word).toNat
    exact ⟨_, exec_shld_ok h, hlow, hhigh, only_wrote16 s _ _⟩
  case noPair => rcases hp with rfl | rfl <;> rfl

end Sys2Proof.Safety

namespace Sys2Proof.Safety

open Machine

/-! ### Add, subtract, compare (spec/41_arithmetic.md rules R140 to R153, spec/42_logical.md rules R190 to R192) -/

theorem formsDecode_add : FormsDecode 0b000 .addR .addM .adi := ⟨fun r => by cases r <;> rfl, rfl, rfl⟩

theorem formsDecode_adc : FormsDecode 0b001 .adcR .adcM .aci := ⟨fun r => by cases r <;> rfl, rfl, rfl⟩

theorem formsDecode_sub : FormsDecode 0b010 .subR .subM .sui := ⟨fun r => by cases r <;> rfl, rfl, rfl⟩

theorem formsDecode_sbb : FormsDecode 0b011 .sbbR .sbbM .sbi := ⟨fun r => by cases r <;> rfl, rfl, rfl⟩

theorem formsDecode_cmp : FormsDecode 0b111 .cmpR .cmpM .cpi := ⟨fun r => by cases r <;> rfl, rfl, rfl⟩

theorem formsRun_add (s : State) : FormsRun s s.addAcc .addR .addM .adi := ⟨fun _ => rfl, rfl, fun _ => rfl⟩

theorem formsRun_adc (s : State) : FormsRun s s.adcAcc .adcR .adcM .aci := ⟨fun _ => rfl, rfl, fun _ => rfl⟩

theorem formsRun_sub (s : State) : FormsRun s s.subAcc .subR .subM .sui := ⟨fun _ => rfl, rfl, fun _ => rfl⟩

theorem formsRun_sbb (s : State) : FormsRun s s.sbbAcc .sbbR .sbbM .sbi := ⟨fun _ => rfl, rfl, fun _ => rfl⟩

theorem formsRun_cmp (s : State) : FormsRun s s.cmpAcc .cmpR .cmpM .cpi := ⟨fun _ => rfl, rfl, fun _ => rfl⟩

/-- Settles O31: each operation runs one `ADD8` update in its three forms. -/
theorem addsGiveSumAndFlags : Obligations.AddsGiveSumAndFlags := fun s =>
  ⟨forEachOperand_completes formsDecode_add (formsRun_add s) fun v =>
      ⟨add8_sum s.acc v false, only_setAccFlags s _⟩,
    forEachOperand_completes formsDecode_adc (formsRun_adc s) fun v =>
      ⟨add8_sum s.acc v s.flags.c, only_setAccFlags s _⟩⟩

/-- Settles O32: each operation runs one `SUB8` update in its three forms. -/
theorem subtractsGiveDifferenceAndFlags : Obligations.SubtractsGiveDifferenceAndFlags := fun s =>
  ⟨forEachOperand_completes formsDecode_sub (formsRun_sub s) fun v =>
      ⟨sub8_difference s.params.subAc s.acc v false, only_setAccFlags s _⟩,
    forEachOperand_completes formsDecode_sbb (formsRun_sbb s) fun v =>
      ⟨sub8_difference s.params.subAc s.acc v s.flags.c, only_setAccFlags s _⟩⟩

/-- Without a borrow in, a difference is zero exactly for equal bytes. -/
theorem IsDifference.zero_iff {m : SubAc} {a b r : Byte} {f : Flags} (h : IsDifference m a.toNat b.toNat 0 r f) :
    f.z = true ↔ a = b := by
  obtain ⟨hr, ⟨-, hz, -⟩, -, -⟩ := h
  have ha := a.isLt
  have hb := b.isLt
  rw [hz, BitVec.toNat_eq]
  omega

/-- Settles O39: a compare runs `SUB8` in its three forms and writes its flags alone. -/
theorem comparesKeepTheAccumulator : Obligations.ComparesKeepTheAccumulator := by
  intro s
  refine forEachOperand_completes formsDecode_cmp (formsRun_cmp s) fun v => ?_
  have diff := sub8_difference s.params.subAc s.acc v false
  have ⟨_, _, _, hc⟩ := diff
  exact ⟨⟨_, diff⟩, diff.zero_iff, hc, only_setAllFlags s _⟩

/-! ### Increment and decrement (spec/41_arithmetic.md rules R154 to R159) -/

theorem decodeOpcode_inrR (r : Reg) : decodeOpcode (0b00#2 ++ r.code ++ 0b100#3) = .implied (.inrR r) := by
  cases r <;> rfl

theorem decodeOpcode_dcrR (r : Reg) : decodeOpcode (0b00#2 ++ r.code ++ 0b101#3) = .implied (.dcrR r) := by
  cases r <;> rfl

theorem exec_inrR (r : Reg) (s : State) : exec (.inrR r) s = .next (s.stepReg r (incByte (s.reg r))) := rfl

theorem exec_dcrR (r : Reg) (s : State) :
    exec (.dcrR r) s = .next (s.stepReg r (decByte s.params.subAc (s.reg r))) := rfl

theorem reg_stepReg (s : State) (r : Reg) (o : AluOut) : (s.stepReg r o).reg r = o.result :=
  State.reg_setReg_same s r o.result

/-- Settles O33: the flags but C are those of adding or subtracting 1. -/
theorem registerStepsKeepTheCarry : Obligations.RegisterStepsKeepTheCarry := by
  intro s r
  refine ⟨encodedAs_of_implied (decodeOpcode_inrR r), encodedAs_of_implied (decodeOpcode_dcrR r),
    ⟨_, exec_inrR r s, ⟨(incByte (s.reg r)).flags.c, ?inr⟩, rfl, only_stepReg s r _⟩,
    ⟨_, exec_dcrR r s, ⟨(decByte s.params.subAc (s.reg r)).flags.c, ?dcr⟩, rfl, only_stepReg s r _⟩⟩
  case inr => rw [reg_stepReg]; exact add8_sum (s.reg r) 1 false
  case dcr => rw [reg_stepReg]; exact sub8_difference s.params.subAc (s.reg r) 1 false

theorem byteAt_steppedM {s : State} (hs : Invariant s) (f : Byte → AluOut) :
    byteAt (steppedM s f) (pairNat s .hl) = (f (byteAt s (pairNat s .hl))).result :=
  byteAt_memWrite_same hs _ _

theorem exec_inrM (s : State) : exec .inrM s = finish (s.stepM incByte) := rfl

theorem exec_dcrM (s : State) : exec .dcrM s = finish (s.stepM (decByte s.params.subAc)) := rfl

/-- Settles O34: as for a register, with the byte at HL. -/
theorem memoryStepsKeepTheCarry : Obligations.MemoryStepsKeepTheCarry := by
  intro s hs hl
  refine ⟨encodedAs_of_implied rfl, encodedAs_of_implied rfl, fun h => ⟨?inr, ?dcr⟩, fun h => ⟨?_, ?_⟩⟩
  case inr =>
    have hstep := stepM_ok s incByte h
    refine ⟨_, (exec_inrM s).trans (congrArg finish hstep), ⟨(incByte (byteAt s hl)).flags.c, ?_⟩, only_stepM hstep⟩
    rw [byteAt_steppedM hs]
    exact add8_sum (byteAt s hl) 1 false
  case dcr =>
    have hstep := stepM_ok s (decByte s.params.subAc) h
    refine ⟨_, (exec_dcrM s).trans (congrArg finish hstep),
      ⟨(decByte s.params.subAc (byteAt s hl)).flags.c, ?_⟩, only_stepM hstep⟩
    rw [byteAt_steppedM hs]
    exact sub8_difference s.params.subAc (byteAt s hl) 1 false
  · exact (exec_inrM s).trans (congrArg finish (stepM_error s _ h))
  · exact (exec_dcrM s).trans (congrArg finish (stepM_error s _ h))

theorem decodeOpcode_inx (p : Pair) : decodeOpcode (0b00#2 ++ p.code ++ 0b0011#4) = .implied (.inx p) := by
  cases p <;> rfl

theorem decodeOpcode_dcx (p : Pair) : decodeOpcode (0b00#2 ++ p.code ++ 0b1011#4) = .implied (.dcx p) := by
  cases p <;> rfl

theorem exec_inx (p : Pair) (s : State) : exec (.inx p) s = .next (s.setPair p (s.pair p + 1)) := rfl

theorem exec_dcx (p : Pair) (s : State) : exec (.dcx p) s = .next (s.setPair p (s.pair p - 1)) := rfl

/-- What a written pair reads as: the word, mod 16384 for SP (R23, R29). -/
theorem pair_setPair_toNat (s : State) (p : Pair) (v : Word) :
    ((s.setPair p v).pair p).toNat = v.toNat % (if p = .sp then memSize else 65536) := by
  by_cases hp : p = .sp
  · subst hp; exact wrapAddr_toNat v
  · rw [pair_setPair s v hp, if_neg hp, Nat.mod_eq_of_lt v.isLt]

/-- Settles O35: one pair write; 16384 divides 65536, so SP may be stepped before it is wrapped. -/
theorem pairStepsWriteNoFlag : Obligations.PairStepsWriteNoFlag := by
  intro s p _
  refine ⟨encodedAs_of_implied (decodeOpcode_inx p), encodedAs_of_implied (decodeOpcode_dcx p),
    ⟨_, exec_inx p s, ?inx, only_pair s p _⟩, ⟨_, exec_dcx p s, ?dcx, only_pair s p _⟩⟩
  case inx =>
    rw [pair_setPair_toNat, BitVec.toNat_add]
    split
    · exact Nat.mod_mod_of_dvd _ (by decide)
    · exact Nat.mod_mod _ _
  case dcx =>
    rw [pair_setPair_toNat, BitVec.toNat_sub]
    split
    · show (((65536 - 1 + (s.pair p).toNat) % 65536 % 16384 : Nat) : Int) = ((s.pair p).toNat - 1 : Int) % 16384
      omega
    · show (((65536 - 1 + (s.pair p).toNat) % 65536 % 65536 : Nat) : Int) = _
      omega

/-! ### DAD and DAA (spec/41_arithmetic.md rules R160 and R161) -/

theorem decodeOpcode_dad (p : Pair) : decodeOpcode (0b00#2 ++ p.code ++ 0b1001#4) = .implied (.dad p) := by
  cases p <;> rfl

theorem exec_dad (p : Pair) (s : State) : exec (.dad p) s = .next
    ((s.setPair .hl (BitVec.ofNat 16 ((s.pair .hl).toNat + (s.pair p).toNat))).setCarry
      (decide ((s.pair .hl).toNat + (s.pair p).toNat > 65535))) := rfl

/-- Settles O36: HL takes the sum mod 65536 and C whether it was larger. -/
theorem dadAddsAPairToHl : Obligations.DadAddsAPairToHl := by
  intro s p
  refine ⟨encodedAs_of_implied (decodeOpcode_dad p), _, exec_dad p s, ?_, decide_eq_true_iff, exec_only (exec_dad p s)⟩
  exact (congrArg BitVec.toNat (pair_setPair s _ (p := .hl) nofun)).trans (BitVec.toNat_ofNat _ _)

theorem daaLow_of_adjust {a : Byte} {ac : Bool} (h : 9 < a.toNat % 16 ∨ ac = true) :
    (daaLow a ac).1.toNat = (a.toNat + 6) % 256 ∧ ((daaLow a ac).2 = true ↔ 9 < a.toNat % 16) := by
  obtain ⟨hr, -, hac, -⟩ := add8_sum a 0x06 false
  rw [daaLow, if_pos h]
  refine ⟨hr, hac.trans ?_⟩
  show 15 < a.toNat % 16 + 6 + 0 ↔ _
  omega

theorem daaLow_of_not_adjust {a : Byte} {ac : Bool} (h : ¬ (9 < a.toNat % 16 ∨ ac = true)) :
    (daaLow a ac).1 = a ∧ (daaLow a ac).2 = false := by
  rw [daaLow, if_neg h]
  exact ⟨rfl, Bool.eq_false_iff.mpr fun hac => h (.inr hac)⟩

theorem daaHigh_of_adjust {a : Byte} {c : Bool} (h : 9 < a.toNat / 16 ∨ c = true) :
    (daaHigh a c).1.toNat = (a.toNat + 96) % 256 ∧ ((daaHigh a c).2 = true ↔ 160 ≤ a.toNat) := by
  obtain ⟨hr, -, -, hc⟩ := add8_sum a 0x60 false
  rw [daaHigh, if_pos h]
  refine ⟨hr, hc.trans ?_⟩
  show 255 < a.toNat + 96 + 0 ↔ _
  omega

theorem daaHigh_of_not_adjust {a : Byte} {c : Bool} (h : ¬ (9 < a.toNat / 16 ∨ c = true)) :
    (daaHigh a c).1 = a ∧ (daaHigh a c).2 = false := by
  rw [daaHigh, if_neg h]
  exact ⟨rfl, Bool.eq_false_iff.mpr fun hc => h (.inr hc)⟩

theorem exec_daa (s : State) : exec .daa s = .next (s.setAccFlags (daa8 s.acc s.flags)) := rfl

/-- Settles O37: the byte between the two steps is the first step's. -/
theorem daaAdjustsInTwoSteps : Obligations.DaaAdjustsInTwoSteps := by
  intro s a low
  refine ⟨encodedAs_of_implied rfl, _, exec_daa s, ⟨(daaLow s.acc s.flags.ac).1.toNat, daaLow_of_adjust, ?noLow,
    daaHigh_of_adjust, ?noHigh⟩, flagsOf_result _ _ _, only_setAccFlags s _⟩
  case noLow =>
    intro h
    obtain ⟨hbyte, hac⟩ := daaLow_of_not_adjust h
    exact ⟨congrArg BitVec.toNat hbyte, hac⟩
  case noHigh =>
    intro h
    obtain ⟨hbyte, hc⟩ := daaHigh_of_not_adjust h
    exact ⟨congrArg BitVec.toNat hbyte, hc⟩

/-! ### Rotates, complement, carry (spec/42_logical.md rules R193 to R199) -/

/-- A shifted left with a bit moved in below, in whole numbers. -/
theorem rotateLeft_toNat (a : Byte) (b : Bool) :
    (a <<< 1 ||| (BitVec.ofBool b).setWidth 8).toNat = 2 * a.toNat % 256 + b.toNat := by
  revert a b; decide

/-- A shifted right with a bit moved in above, in whole numbers. -/
theorem rotateRight_toNat (a : Byte) (b : Bool) :
    (a >>> 1 ||| (BitVec.ofBool b).setWidth 8 <<< 7).toNat = a.toNat / 2 + 128 * b.toNat := by
  revert a b; decide

theorem topBit_iff : ∀ a : Byte, a.getLsbD 7 = true ↔ 128 ≤ a.toNat := by decide

theorem topBit_toNat : ∀ a : Byte, (a.getLsbD 7).toNat = a.toNat / 128 := by decide

theorem lowBit_iff : ∀ a : Byte, a.getLsbD 0 = true ↔ a.toNat % 2 = 1 := by decide

theorem lowBit_toNat : ∀ a : Byte, (a.getLsbD 0).toNat = a.toNat % 2 := by decide

theorem exec_rlc (s : State) : exec .rlc s = .next
    ((s.setAcc (s.acc <<< 1 ||| (BitVec.ofBool (s.acc.getLsbD 7)).setWidth 8)).setCarry (s.acc.getLsbD 7)) := rfl

theorem exec_rrc (s : State) : exec .rrc s = .next
    ((s.setAcc (s.acc >>> 1 ||| (BitVec.ofBool (s.acc.getLsbD 0)).setWidth 8 <<< 7)).setCarry (s.acc.getLsbD 0)) := rfl

theorem exec_ral (s : State) : exec .ral s = .next
    ((s.setAcc (s.acc <<< 1 ||| (BitVec.ofBool s.flags.c).setWidth 8)).setCarry (s.acc.getLsbD 7)) := rfl

theorem exec_rar (s : State) : exec .rar s = .next
    ((s.setAcc (s.acc >>> 1 ||| (BitVec.ofBool s.flags.c).setWidth 8 <<< 7)).setCarry (s.acc.getLsbD 0)) := rfl

/-- Settles O40: a left rotate moves in bit 7 or the old C, a right one bit 0 or the old C. -/
theorem rotatesWriteOnlyTheCarry : Obligations.RotatesWriteOnlyTheCarry := by
  intro s a
  refine ⟨encodedAs_of_implied rfl, encodedAs_of_implied rfl, encodedAs_of_implied rfl, encodedAs_of_implied rfl,
    ⟨_, exec_rlc s, ?rlc, topBit_iff s.acc, only_setAcc_setCarry s _ _⟩,
    ⟨_, exec_rrc s, ?rrc, lowBit_iff s.acc, only_setAcc_setCarry s _ _⟩,
    ⟨_, exec_ral s, rotateLeft_toNat s.acc s.flags.c, topBit_iff s.acc, only_setAcc_setCarry s _ _⟩,
    ⟨_, exec_rar s, rotateRight_toNat s.acc s.flags.c, lowBit_iff s.acc, only_setAcc_setCarry s _ _⟩⟩
  case rlc => exact (rotateLeft_toNat s.acc _).trans (by rw [topBit_toNat])
  case rrc => exact (rotateRight_toNat s.acc _).trans (by rw [lowBit_toNat])

theorem exec_cma (s : State) : exec .cma s = .next (s.setAcc (~~~s.acc)) := rfl

theorem exec_cmc (s : State) : exec .cmc s = .next (s.setCarry (!s.flags.c)) := rfl

theorem exec_stc (s : State) : exec .stc s = .next (s.setCarry true) := rfl

/-- Settles O41: one register write, and two carry writes. -/
theorem complementAndCarryInstructions : Obligations.ComplementAndCarryInstructions := by
  intro s
  refine ⟨encodedAs_of_implied rfl, encodedAs_of_implied rfl, encodedAs_of_implied rfl,
    ⟨_, exec_cma s, ?cma, only_setAcc s _⟩, ⟨_, exec_cmc s, rfl, only_setCarry s _⟩,
    ⟨_, exec_stc s, rfl, only_setCarry s _⟩⟩
  case cma => exact BitVec.toNat_not

end Sys2Proof.Safety

namespace Sys2Proof.Safety

open Machine

/-! ### Jumps (spec/43_control_transfer.md rules R210 to R212 and R218) -/

theorem wrapAddr_append_toNat (hi lo : Byte) :
    (wrapAddr (hi ++ lo)).toNat = (256 * hi.toNat + lo.toNat) % memSize :=
  (wrapAddr_toNat _).trans (congrArg (· % memSize) (joinBytes_toNat hi lo))

theorem exec_jmp (a : Word) (s : State) : exec (.jmp a) s = .next (s.setPc a) := rfl

theorem exec_pchl (s : State) : exec .pchl s = .next (s.setPc (s.pair .hl)) := rfl

/-- Settles O42: one wrapped write of pc. -/
theorem jumpsWrapTheTarget : Obligations.JumpsWrapTheTarget := fun s lo hi =>
  ⟨encodedAs_of_wantsWord lo hi rfl, encodedAs_of_implied rfl,
    ⟨_, exec_jmp _ s, wrapAddr_append_toNat hi lo, only_setPc s _⟩,
    ⟨_, exec_pchl s, wrapAddr_toNat _, only_setPc s _⟩⟩

theorem decodeOpcode_jumpOn (k : Cond) : decodeOpcode (0b11#2 ++ k.code ++ 0b010#3) = .wantsWord (jumpOn k) := by
  cases k <;> rfl

theorem decodeOpcode_callOn (k : Cond) : decodeOpcode (0b11#2 ++ k.code ++ 0b100#3) = .wantsWord (callOn k) := by
  cases k <;> rfl

theorem decodeOpcode_returnOn (k : Cond) : decodeOpcode (0b11#2 ++ k.code ++ 0b000#3) = .implied (returnOn k) := by
  cases k <;> rfl

theorem exec_jumpOn (k : Cond) (a : Word) (s : State) : exec (jumpOn k a) s = .next (s.jumpIf k a) := by
  cases k <;> rfl

theorem exec_callOn (k : Cond) (a : Word) (s : State) : exec (callOn k a) s = finish (s.callIf k a) := by
  cases k <;> rfl

theorem exec_returnOn (k : Cond) (s : State) : exec (returnOn k) s = finish (s.returnIf k) := by
  cases k <;> rfl

section
variable {k : Cond} {s : State}

theorem jumpIf_taken (h : condTrue k s.flags) (a : Word) : s.jumpIf k a = s.setPc a := if_pos ((holds_iff k _).mpr h)

theorem jumpIf_not_taken (h : ¬ condTrue k s.flags) (a : Word) : s.jumpIf k a = s := if_neg (mt (holds_iff k _).mp h)

theorem callIf_taken (h : condTrue k s.flags) (a : Word) : s.callIf k a = s.callTo a := if_pos ((holds_iff k _).mpr h)

theorem callIf_not_taken (h : ¬ condTrue k s.flags) (a : Word) : s.callIf k a = .ok s :=
  if_neg (mt (holds_iff k _).mp h)

theorem returnIf_taken (h : condTrue k s.flags) : s.returnIf k = s.returnFromCall := if_pos ((holds_iff k _).mpr h)

theorem returnIf_not_taken (h : ¬ condTrue k s.flags) : s.returnIf k = .ok s := if_neg (mt (holds_iff k _).mp h)

end

theorem exec_jumpOn_taken {k : Cond} {s : State} (h : condTrue k s.flags) (a : Word) :
    exec (jumpOn k a) s = .next (s.setPc a) := by
  rw [exec_jumpOn, jumpIf_taken h]

theorem exec_jumpOn_not_taken {k : Cond} {s : State} (h : ¬ condTrue k s.flags) (a : Word) :
    exec (jumpOn k a) s = .next s := by
  rw [exec_jumpOn, jumpIf_not_taken h]

/-- Settles O43: the condition is tested on flags the fetch does not touch. -/
theorem conditionalJumpsTestOneFlag : Obligations.ConditionalJumpsTestOneFlag := by
  intro s k lo hi
  have henc := encodedAs_of_wantsWord lo hi (decodeOpcode_jumpOn k)
  refine ⟨henc, fun h => ⟨_, exec_jumpOn_taken h _, wrapAddr_append_toNat hi lo, only_setPc s _⟩,
    fun h => exec_jumpOn_not_taken h _, fun hs hrun hmove hbytes h => ?step⟩
  case step =>
    obtain ⟨he, hd⟩ := henc
    rw [← hbytes] at hd
    rw [stepRunsTheFetchedInstruction s _ _ hs hrun hmove hd, he]
    exact exec_jumpOn_not_taken (s := afterFetch s 3) h _

/-! ### Calls (spec/43_control_transfer.md rules R213, R214 and R217) -/

theorem exec_call (a : Word) (s : State) : exec (.call a) s = finish (s.callTo a) := rfl

theorem exec_rst (n : BitVec 3) (s : State) : exec (.rst n) s = finish (s.callTo (restartTarget n)) := rfl

/-- The state a call that succeeds reaches: pc pushed, then the target, mod 16384. -/
def called (s : State) (a : Word) : State := (pushed s s.pc).setPc a

theorem callTo_eq_called {s : State} (hs : Invariant s) (h2 : 2 ≤ s.sp.toNat) (a : Word) :
    s.callTo a = .ok (called s a) := callTo_ok s a hs h2

theorem pc_called (s : State) (a : Word) : (called s a).pc.toNat = a.toNat % memSize := wrapAddr_toNat a

theorem pushed_called {s : State} (hs : Invariant s) (h2 : 2 ≤ s.sp.toNat) (a : Word) : Pushed s.pc s (called s a) :=
  pushed_spec s s.pc hs h2

/-- What every call does with room on the stack (R213): CALL, RST and a taken conditional call. -/
theorem completes_of_exec_callTo {i : Instr} {s : State} {a : Word} (hi : exec i s = finish (s.callTo a))
    (hs : Invariant s) (h2 : 2 ≤ s.sp.toNat) :
    Completes i s fun t => t.pc.toNat = a.toNat % memSize ∧ Pushed s.pc s t ∧
      OnlyChanges { pc := true, sp := true, mem := pushedBytes s } s t := by
  have hcall := callTo_eq_called hs h2 a
  exact ⟨_, hi.trans (congrArg finish hcall), pc_called s a, pushed_called hs h2 a, only_callTo hcall⟩

theorem raises_of_exec_callTo {i : Instr} {s : State} {a : Word} (hi : exec i s = finish (s.callTo a))
    (h : s.sp.toNat < 2) : Raises i s (.outOfRange (-1)) := hi.trans (congrArg finish (callTo_error s a h))

/-- The target of RST n needs no wrapping. -/
theorem restartTarget_toNat (n : BitVec 3) : (restartTarget n).toNat % memSize = 8 * n.toNat := by
  have hn := n.isLt
  rw [restartTarget, BitVec.toNat_ofNat]
  show 8 * n.toNat % 65536 % 16384 = _
  omega

theorem completes_rst {s : State} (hs : Invariant s) (h2 : 2 ≤ s.sp.toNat) (n : BitVec 3) :
    Completes (.rst n) s fun t => t.pc.toNat = 8 * n.toNat ∧ Pushed s.pc s t ∧
      OnlyChanges { pc := true, sp := true, mem := pushedBytes s } s t := by
  have h := completes_of_exec_callTo (exec_rst n s) hs h2
  rwa [restartTarget_toNat] at h

/-- Settles O44: CALL and RST are one `callTo`. -/
theorem callsPushTheReturnAddress : Obligations.CallsPushTheReturnAddress := by
  intro s lo hi n hs
  refine ⟨encodedAs_of_wantsWord lo hi rfl, encodedAs_of_implied (decodeOpcode_rst n),
    fun h2 => ⟨?call, completes_rst hs h2 n⟩,
    fun h => ⟨raises_of_exec_callTo (exec_call _ s) h, raises_of_exec_callTo (exec_rst n s) h⟩⟩
  case call =>
    rw [← joinBytes_toNat]
    exact completes_of_exec_callTo (exec_call _ s) hs h2

/-- Settles O45: a taken conditional call is the same `callTo`. -/
theorem conditionalCallsPushOnlyWhenTaken : Obligations.ConditionalCallsPushOnlyWhenTaken := by
  intro s k lo hi hs
  have taken (h : condTrue k s.flags) : exec (callOn k (hi ++ lo)) s = finish (s.callTo (hi ++ lo)) := by
    rw [exec_callOn, callIf_taken h]
  refine ⟨encodedAs_of_wantsWord lo hi (decodeOpcode_callOn k), fun h h2 => ?call,
    fun h => raises_of_exec_callTo (taken h), fun h => ?skip⟩
  case call =>
    rw [← joinBytes_toNat]
    exact completes_of_exec_callTo (taken h) hs h2
  case skip => rw [exec_callOn, callIf_not_taken h, finish_ok]

/-! ### Returns (spec/43_control_transfer.md rules R215, R216 and R219) -/

/-- Settles O47: a taken conditional return is RET's `returnFromCall`; the condition is tested on flags the fetch does
not touch. -/
theorem conditionalReturnsPopOnlyWhenTaken : Obligations.ConditionalReturnsPopOnlyWhenTaken := by
  intro s k hs
  have taken (h : condTrue k s.flags) : exec (returnOn k) s = exec .ret s := by
    rw [exec_returnOn, returnIf_taken h, exec_ret]
  have skipped (t : State) (h : ¬ condTrue k t.flags) : exec (returnOn k) t = .next t := by
    rw [exec_returnOn, returnIf_not_taken h, finish_ok]
  obtain ⟨-, hret, hfault⟩ := returnPopsThePc s hs
  have henc := encodedAs_of_implied (decodeOpcode_returnOn k)
  refine ⟨henc, fun h hsp => ?completes, fun h hsp => (taken h).trans (hfault hsp), skipped s,
    fun hrun hmove hbyte h => ?step⟩
  case completes =>
    obtain ⟨t, ht, hpost⟩ := hret hsp
    exact ⟨t, (taken h).trans ht, hpost⟩
  case step =>
    obtain ⟨rest, hd⟩ := decode_bytesFrom_of_implied hs.pc_lt (hbyte ▸ decodeOpcode_returnOn k)
    rw [stepRunsTheFetchedInstruction s _ _ hs hrun hmove hd, henc.1]
    exact skipped (afterFetch s 1) h

theorem Pushed.high {v : Word} {s t : State} (h : Pushed v s t) : byteAt t (s.sp.toNat - 1) = hiByte v := by
  obtain ⟨-, hhigh, -⟩ := h
  have hv := v.isLt
  apply BitVec.eq_of_toNat_eq
  rw [hhigh, hiByte_toNat, BitVec.toNat_ofNat]
  omega

theorem Pushed.low {v : Word} {s t : State} (h : Pushed v s t) : byteAt t (s.sp.toNat - 2) = loByte v := by
  obtain ⟨-, -, hlow⟩ := h
  apply BitVec.eq_of_toNat_eq
  rw [hlow, loByte_toNat, BitVec.toNat_ofNat]

/-- A pop finds what a push left, as long as sp and the two bytes are as the push left them (R219, R248). -/
theorem pop16_of_pushed {s t u : State} {v : Word} (hs : Invariant s) (h2 : 2 ≤ s.sp.toNat) (hp : Pushed v s t)
    (hsp : u.sp = t.sp) (hhigh : byteAt u (s.sp.toNat - 1) = byteAt t (s.sp.toNat - 1))
    (hlow : byteAt u (s.sp.toNat - 2) = byteAt t (s.sp.toNat - 2)) :
    u.sp.toNat + 1 < memSize ∧ topWord u = v ∧ (u.setSp (u.sp + 2)).sp = s.sp := by
  have hlt := hs.sp_lt
  have hu : u.sp.toNat = s.sp.toNat - 2 := hsp ▸ hp.1
  have habove : u.sp.toNat + 1 = s.sp.toNat - 1 := by omega
  refine ⟨by omega, ?word, ?sp⟩
  case word => rw [topWord, habove, hu, hhigh, hlow, hp.high, hp.low, joinBytes_hi_lo]
  case sp =>
    apply BitVec.eq_of_toNat_eq
    have hback : s.sp.toNat - 2 + 2 = s.sp.toNat := by omega
    rw [sp_popped u, hu, hback, Nat.mod_eq_of_lt hlt]

/-- RET resumes at the pushed address (R219). -/
theorem completes_ret_of_pushed {s t u : State} (hs : Invariant s) (h2 : 2 ≤ s.sp.toNat) (hp : Pushed s.pc s t)
    (hsp : u.sp = t.sp) (hhigh : byteAt u (s.sp.toNat - 1) = byteAt t (s.sp.toNat - 1))
    (hlow : byteAt u (s.sp.toNat - 2) = byteAt t (s.sp.toNat - 2)) :
    Completes .ret u fun v => v.pc = s.pc ∧ v.sp = s.sp ∧ OnlyChanges { pc := true, sp := true } u v := by
  obtain ⟨hroom, hword, hback⟩ := pop16_of_pushed hs h2 hp hsp hhigh hlow
  have hret : u.returnFromCall = .ok (returned u) := returnFromCall_ok u hroom
  refine ⟨returned u, (exec_ret u).trans (congrArg finish hret), ?pc, hback, only_returnFromCall hret⟩
  case pc => rw [returned, State.setPc_pc, hword, wrapAddr_of_lt hs.pc_lt]

/-- Settles O48: a CALL that completes had room on the stack and pushed pc. -/
theorem returnUndoesCall : Obligations.ReturnUndoesCall := by
  intro s t u a hs h hsp hhigh hlow
  rcases Nat.lt_or_ge s.sp.toNat 2 with h2 | h2
  · cases h.symm.trans (raises_of_exec_callTo (exec_call a s) h2)
  · have hcall : exec (.call a) s = .next (called s a) :=
      (exec_call a s).trans (congrArg finish (callTo_eq_called hs h2 a))
    cases h.symm.trans hcall
    exact completes_ret_of_pushed hs h2 (pushed_called hs h2 a) hsp hhigh hlow

theorem afterFetch_zero {s : State} (hs : Invariant s) : afterFetch s 0 = s.dropMove :=
  advanced_zero (s := s.dropMove) hs.pc_lt

/-- Settles O11: an injected RST fetches nothing, so it pushes pc as it stands (R311). -/
theorem injectedRestartIsInterruptEntry : Obligations.InjectedRestartIsInterruptEntry := by
  intro s n hs hrun h2 hmove
  have hstep := stepRunsTheInjectedOpcode s _ (.rst n) _ hs hrun hmove (decode_implied _ (decodeOpcode_rst n))
  obtain ⟨t, ht, hpc, hpush, frame⟩ := completes_rst hs.dropMove h2 n
  rw [← afterFetch_zero hs] at ht frame
  refine ⟨t, hstep.trans ht, hpc, hpush, frame, fun u hsp hhigh hlow => ?_⟩
  obtain ⟨v, hv, hvpc, hvsp, -⟩ := completes_ret_of_pushed hs h2 hpush hsp hhigh hlow
  exact ⟨v, hv, hvpc, hvsp⟩

end Sys2Proof.Safety

namespace Sys2Proof.Safety

open Machine

/-! ### Push and pop (spec/44_stack.md) -/

theorem isStackable_of_ne_sp {p : Pair} (h : p ≠ .sp) : p.isStackable = true := by
  cases p
  case bc | de | hl => rfl
  case sp => exact absurd rfl h

theorem decodeOpcode_push {p : Pair} (h : p ≠ .sp) :
    decodeOpcode (0b11#2 ++ p.code ++ 0b0101#4) = .implied (.push p) := by
  cases p
  case bc | de | hl => rfl
  case sp => exact absurd rfl h

theorem decodeOpcode_pop {p : Pair} (h : p ≠ .sp) :
    decodeOpcode (0b11#2 ++ p.code ++ 0b0001#4) = .implied (.pop p) := by
  cases p
  case bc | de | hl => rfl
  case sp => exact absurd rfl h

theorem exec_push {p : Pair} (h : p ≠ .sp) (s : State) : exec (.push p) s = finish (s.push16 (s.pair p)) := by
  rw [exec_eq_finish, effect, stackOperand_ok (isStackable_of_ne_sp h), ok_bind]

theorem exec_pushPsw (s : State) :
    exec .pushPsw s = finish (s.push16 (joinBytes s.acc (psw s.params.pswLayout s.flags))) := rfl

/-- What every push does with room on the stack (R240). -/
theorem completes_of_exec_push16 {i : Instr} {s : State} {v : Word} (hi : exec i s = finish (s.push16 v))
    (hs : Invariant s) (h2 : 2 ≤ s.sp.toNat) :
    Completes i s fun t => Pushed v s t ∧ OnlyChanges { sp := true, mem := pushedBytes s } s t :=
  ⟨pushed s v, hi.trans (congrArg finish (push16_ok s v hs h2)), pushed_spec s v hs h2, only_pushed s v⟩

theorem raises_of_exec_push16 {i : Instr} {s : State} {v : Word} (hi : exec i s = finish (s.push16 v))
    (h : s.sp.toNat < 2) : Raises i s (.outOfRange (-1)) := hi.trans (congrArg finish (push16_error s v h))

/-- Settles O49: PUSH PSW pushes A above the status byte. -/
theorem pushesStoreHighByteAbove : Obligations.PushesStoreHighByteAbove := by
  intro s p hs
  refine ⟨fun hp => ⟨encodedAs_of_implied (decodeOpcode_push hp), completes_of_exec_push16 (exec_push hp s) hs,
      raises_of_exec_push16 (exec_push hp s)⟩, rfl, encodedAs_of_implied rfl, fun h2 => ?psw,
    raises_of_exec_push16 (exec_pushPsw s)⟩
  case psw =>
    obtain ⟨t, ht, hpush, frame⟩ := completes_of_exec_push16 (exec_pushPsw s) hs h2
    refine ⟨t, ht, hpush.1, hpush.high.trans (hiByte_joinBytes _ _), ?bits, ?reserved, frame⟩
    case bits => rw [hpush.low, loByte_joinBytes]; exact psw_bits _ _
    case reserved => rw [hpush.low, loByte_joinBytes]; exact psw_reserved _ _

/-- The state a POP of a pair reaches. -/
def poppedPair (s : State) (p : Pair) : State := (s.setSp (s.sp + 2)).setPair p (topWord s)

/-- The state a POP PSW reaches. -/
def poppedPsw (s : State) : State :=
  ((s.setSp (s.sp + 2)).setAcc (hiByte (topWord s))).setFlags (flagsOfPsw s.params.pswLayout (loByte (topWord s)))

theorem sp_setPair {p : Pair} (h : p ≠ .sp) (s : State) (v : Word) : (s.setPair p v).sp = s.sp := by
  cases p
  case bc | de | hl => rfl
  case sp => exact absurd rfl h

theorem sp_poppedPair {p : Pair} (h : p ≠ .sp) (s : State) : (poppedPair s p).sp = (s.setSp (s.sp + 2)).sp :=
  sp_setPair h _ _

theorem exec_pop_ok {p : Pair} (hp : p ≠ .sp) {s : State} (h : s.sp.toNat + 1 < memSize) :
    exec (.pop p) s = .next (poppedPair s p) := by
  rw [exec_eq_finish, effect, stackOperand_ok (isStackable_of_ne_sp hp), ok_bind, pop16_ok s h, map_ok, finish_ok,
    poppedPair]

theorem exec_pop_error {p : Pair} (hp : p ≠ .sp) {s : State} (h : s.sp.toNat + 1 = memSize) :
    exec (.pop p) s = .fault (.outOfRange memSize) := by
  rw [exec_eq_finish, effect, stackOperand_ok (isStackable_of_ne_sp hp), ok_bind, pop16_error s h, map_error,
    finish_error]

theorem exec_popPsw_ok {s : State} (h : s.sp.toNat + 1 < memSize) : exec .popPsw s = .next (poppedPsw s) := by
  rw [exec_eq_finish, effect, pop16_ok s h, map_ok, finish_ok, poppedPsw]

theorem exec_popPsw_error {s : State} (h : s.sp.toNat + 1 = memSize) :
    exec .popPsw s = .fault (.outOfRange memSize) := by
  rw [exec_eq_finish, effect, pop16_error s h, map_error, finish_error]

/-- Settles O50: a POP is one `pop16` and one write of the pair, or of A and the flags. -/
theorem popsLoadLowByteBelow : Obligations.PopsLoadLowByteBelow := by
  intro s p _
  refine ⟨fun hp => ⟨encodedAs_of_implied (decodeOpcode_pop hp), fun h => ?pair, exec_pop_error hp⟩, rfl,
    encodedAs_of_implied rfl, fun h => ?psw, exec_popPsw_error⟩
  case pair =>
    have hx := exec_pop_ok hp h
    refine ⟨_, hx, ?_, ?_, exec_only hx⟩
    · rw [poppedPair, pair_setPair _ _ hp, topWord_toNat]
    · rw [Popped, sp_poppedPair hp]; exact sp_popped s
  case psw =>
    have hx := exec_popPsw_ok h
    refine ⟨_, hx, hiByte_joinBytes _ _, ?_, sp_popped s, exec_only hx⟩
    rw [poppedPsw, State.setFlags_flags, topWord, loByte_joinBytes]
    exact flagsOfPsw_bits _ _

theorem exec_xthl_ok {s : State} (h : s.sp.toNat + 1 < memSize) :
    exec .xthl s = .next ((wrote16 s s.sp.toNat (s.pair .hl)).setPair .hl (topWord s)) := by
  rw [exec_eq_finish, effect, asAddress, memRead16_ok s h, ok_bind, memWrite16_ok s _ h, map_ok, finish_ok, topWord]

theorem exec_xthl_error {s : State} (h : s.sp.toNat + 1 = memSize) : exec .xthl s = .fault (.outOfRange memSize) := by
  rw [exec_eq_finish, effect, asAddress, memRead16_last s h, error_bind, finish_error]

theorem exec_sphl (s : State) : exec .sphl s = .next (s.setSp (s.pair .hl)) := rfl

/-- Settles O51: XTHL reads both bytes before it writes them. -/
theorem hlAndStackExchange : Obligations.HlAndStackExchange := by
  intro s hs
  refine ⟨encodedAs_of_implied rfl, encodedAs_of_implied rfl, fun h => ?xthl, exec_xthl_error,
    ⟨_, exec_sphl s, wrapAddr_toNat _, only_setSp s _⟩⟩
  case xthl =>
    have hx := exec_xthl_ok h
    obtain ⟨hlow, hhigh⟩ := byteAt_wrote16_hl hs s.sp.toNat
    exact ⟨_, hx, loByte_joinBytes _ _, hiByte_joinBytes _ _, hlow, hhigh, exec_only hx⟩

/-! ### POP after PUSH (spec/44_stack.md rule R248) -/

/-- A frame without the registers, flags and sp that are back at what they were. -/
theorem OnlyChanges.restored {w : Footprint} {s t : State} (h : OnlyChanges w s t) (rs : List Reg) (fs : List Flag)
    (hregs : ∀ r ∈ w.regs, r ∉ rs → t.reg r = s.reg r)
    (hflags : ∀ f ∈ w.flags, f ∉ fs → flagOf t.flags f = flagOf s.flags f) (hsp : t.sp = s.sp) :
    OnlyChanges { w with regs := rs, flags := fs, sp := false } s t := by
  obtain ⟨regs, flags, pc, -, rest⟩ := h
  refine ⟨fun r hr => ?_, fun f hf => ?_, pc, fun _ => hsp, rest⟩
  · by_cases hw : r ∈ w.regs
    · exact hregs r hw hr
    · exact regs r hw
  · by_cases hw : f ∈ w.flags
    · exact hflags f hw hf
    · exact flags f hw

/-- Settles O52: the pop finds the pushed word and puts sp back; the status byte gives the flags it was made of. -/
theorem popUndoesPush : Obligations.PopUndoesPush := by
  intro s p q hs h2 hp hq
  refine ⟨?pair, ?psw⟩
  case pair =>
    obtain ⟨t, ht, hpush, pushFrame⟩ := completes_of_exec_push16 (exec_push hp s) hs h2
    obtain ⟨hroom, hword, hback⟩ := pop16_of_pushed hs h2 hpush rfl rfl rfl
    have hpop := exec_pop_ok hq hroom
    have frame : OnlyChanges { regs := regsOf q, sp := true, mem := pushedBytes s } s (poppedPair t q) :=
      (pushFrame.mono (by simp [Footprint.le])).trans ((exec_only hpop).mono (by simp [Footprint.le, footprint]))
    refine ⟨t, ht, _, hpop, ?_, frame.restored (regsOf q) [] (fun r hr hn => absurd hr hn) nofun
      ((sp_poppedPair hq t).trans hback)⟩
    rw [poppedPair, pair_setPair _ _ hq, hword]
  case psw =>
    obtain ⟨t, ht, hpush, pushFrame⟩ := completes_of_exec_push16 (exec_pushPsw s) hs h2
    obtain ⟨hroom, hword, hback⟩ := pop16_of_pushed hs h2 hpush rfl rfl rfl
    have hpop := exec_popPsw_ok hroom
    have hacc : (poppedPsw t).acc = s.acc := by
      show hiByte (topWord t) = _
      rw [hword, hiByte_joinBytes]
    have hflags : (poppedPsw t).flags = s.flags := by
      rw [poppedPsw, State.setFlags_flags, hword, pushFrame.params_eq, loByte_joinBytes, flagsOfPsw_psw]
    have frame : OnlyChanges { regs := [.a], flags := allFlags, sp := true, mem := pushedBytes s } s (poppedPsw t) :=
      (pushFrame.mono (by simp [Footprint.le])).trans ((exec_only hpop).mono (by simp [Footprint.le, footprint]))
    refine ⟨t, ht, _, hpop, frame.restored [] [] (fun r hr _ => ?_) (fun f _ _ => by rw [hflags]) hback⟩
    obtain rfl : r = .a := by simpa using hr
    exact hacc

end Sys2Proof.Safety

namespace Sys2Proof.Safety

open Machine

/-! ### Input and output (spec/45_io_and_control.md rules R260, R261, R270, R271) -/

theorem exec_inPort (port : Byte) (s : State) : exec (.inPort port) s = finish ((s.ioRead port).map s.setAcc) := rfl

theorem exec_outPort (port : Byte) (s : State) : exec (.outPort port) s = finish (s.ioWrite port s.acc) := rfl

theorem exec_inPort_ok {port v : Byte} {s : State} (h : s.ioRead port = .ok v) :
    exec (.inPort port) s = .next (s.setAcc v) := by
  rw [exec_inPort, h, map_ok, finish_ok]

theorem exec_outPort_ok {port : Byte} (s : State) (h : port.toNat < numWriteLatches) :
    exec (.outPort port) s = .next (latched s port s.acc h) := by
  rw [exec_outPort, ioWrite_ok s port _ h, finish_ok]

theorem shiftWindow_toNat (io : IoBus) :
    io.shiftWindow.toNat = io.sr.toNat / 2 ^ (8 - io.w[2].toNat % 8) % 256 := by
  rw [IoBus.shiftWindow, BitVec.toNat_ofNat, Nat.shiftRight_eq_div_pow, IoBus.shiftOffset]

/-- Settles O53: by what the port reads. -/
theorem inputReadsLatchesAndShiftWindow : Obligations.InputReadsLatchesAndShiftWindow := by
  intro s port
  refine ⟨encodedAs_of_wantsByte port rfl, fun k h3 hk => ?latch, fun h3 => ?shift, fun h => ?fault⟩
  case latch => exact ⟨_, exec_inPort_ok (ioRead_latch s port k h3 hk), State.acc_setAcc s _, only_setAcc s _⟩
  case shift => exact ⟨_, exec_inPort_ok (ioRead_shift s port h3), shiftWindow_toNat s.io, only_setAcc s _⟩
  case fault =>
    show exec (.inPort port) s = _
    rw [exec_inPort, ioRead_error s port h, map_error, finish_error]

theorem sr_latched_of_port4 {s : State} {port v : Byte} (h : port.toNat < numWriteLatches) (h4 : port.toNat = 4) :
    (latched s port v h).io.sr = shiftIn s.params.shiftModulus s.io.sr v := if_pos h4

theorem sr_latched_of_other {s : State} {port v : Byte} (h : port.toNat < numWriteLatches) (h4 : port.toNat ≠ 4) :
    (latched s port v h).io.sr = s.io.sr := if_neg h4

/-- Settles O54: an OUT is one latch write, with a shift for port 4. -/
theorem outputLatchesAndShifts : Obligations.OutputLatchesAndShifts := by
  intro s port
  refine ⟨encodedAs_of_wantsByte port rfl, fun k hk => ?latch, fun h => ?fault⟩
  case latch =>
    have hport : port.toNat < numWriteLatches := hk ▸ k.isLt
    obtain rfl : k = ⟨port.toNat, hport⟩ := Fin.ext hk.symm
    refine ⟨_, exec_outPort_ok s hport, Vector.getElem_set_self hport, fun h4 => ?_,
      only_ioWrite (ioWrite_ok s port _ hport)⟩
    rw [sr_latched_of_port4 hport h4, shiftIn_toNat]
  case fault =>
    show exec (.outPort port) s = _
    rw [exec_outPort, ioWrite_error s port _ h, finish_error]

/-- Two bytes shifted in give the word they make, but for 0xFF first under modulus 65535. -/
theorem shiftIn_shiftIn (m : ShiftModulus) (sr : Word) {lo hi : Byte} (h : modulusOf m = 65536 ∨ lo ≠ 0xFF) :
    shiftIn m (shiftIn m sr lo) hi = hi ++ lo := by
  have hhi := hi.isLt
  have hlo := lo.isLt
  have hsr := sr.isLt
  have hm : 65535 ≤ modulusOf m := by cases m <;> decide
  have hne : modulusOf m = 65536 ∨ lo.toNat ≠ 255 := h.imp_right fun hne e => hne (BitVec.eq_of_toNat_eq e)
  have hfirst : 256 * lo.toNat + sr.toNat / 256 < modulusOf m := by omega
  have hsecond : 256 * hi.toNat + lo.toNat < modulusOf m := by omega
  have hbyte : (256 * lo.toNat + sr.toNat / 256) / 256 = lo.toNat := by omega
  apply BitVec.eq_of_toNat_eq
  rw [shiftIn_toNat, shiftIn_toNat, Nat.mod_eq_of_lt hfirst, hbyte, Nat.mod_eq_of_lt hsecond]
  exact (joinBytes_toNat hi lo).symm

/-- The window of a word of two bytes: the high one moved up, the top of the low one below it. -/
theorem append_div_two_pow (hi lo : Byte) {k : Nat} (hk : k ≤ 8) :
    (hi ++ lo : Word).toNat / 2 ^ (8 - k) = hi.toNat * 2 ^ k + lo.toNat / 2 ^ (8 - k) := by
  have hsplit : 256 * hi.toNat = hi.toNat * 2 ^ k * 2 ^ (8 - k) := by
    rw [Nat.mul_assoc, ← Nat.pow_add, Nat.add_sub_cancel' hk, Nat.mul_comm]
  have hjoin : (hi ++ lo : Word).toNat = 256 * hi.toNat + lo.toNat := joinBytes_toNat hi lo
  rw [hjoin, hsplit, Nat.add_comm, Nat.add_mul_div_right _ _ (Nat.two_pow_pos _), Nat.add_comm]

/-- OUT 4 shifts the byte into SR. -/
theorem exec_out4 (s : State) (v : Byte) : ∃ t, exec (.outPort 4) (s.setAcc v) = .next t ∧
    t.io.sr = shiftIn s.params.shiftModulus s.io.sr v ∧ t.params = s.params :=
  ⟨_, exec_outPort_ok _ (by decide), sr_latched_of_port4 (s := s.setAcc v) _ rfl, rfl⟩

/-- OUT 2 sets the shift offset and leaves SR. -/
theorem exec_out2 (s : State) (v : Byte) : ∃ t, exec (.outPort 2) (s.setAcc v) = .next t ∧
    t.io.w[2] = v ∧ t.io.sr = s.io.sr :=
  ⟨_, exec_outPort_ok _ (by decide), Vector.getElem_set_self _,
    sr_latched_of_other (s := s.setAcc v) _ (by decide)⟩

/-- Settles O55: the two shifts of `shiftIn`, then the window at the offset port 2 was given. -/
theorem shiftRegisterHoldsTheLastTwoBytes : Obligations.ShiftRegisterHoldsTheLastTwoBytes := by
  intro s lo hi v m k
  obtain ⟨t, ht, htsr, htparams⟩ := exec_out4 s lo
  obtain ⟨u, hu, husr, -⟩ := exec_out4 t hi
  obtain ⟨w, hw, hoffset, hkept⟩ := exec_out2 u v
  rw [htparams, htsr] at husr
  have hk : v.toNat % 8 ≤ 8 := by omega
  have hjoin (h : m = 65536 ∨ lo ≠ 0xFF) : u.io.sr = hi ++ lo := husr.trans (shiftIn_shiftIn _ _ h)
  have hwindow : w.io.shiftWindow.toNat = u.io.sr.toNat / 2 ^ (8 - k) % 256 := by
    rw [shiftWindow_toNat, hoffset, hkept]
  have hlaw (h : m = 65536 ∨ lo ≠ 0xFF) :
      w.io.shiftWindow.toNat = (hi.toNat * 2 ^ k + lo.toNat / 2 ^ (8 - k)) % 256 := by
    rw [hwindow, hjoin h, append_div_two_pow hi lo hk]
  refine ⟨t, u, w, ht, hu, hw, ?general, hjoin, ?sample, _, exec_inPort_ok (ioRead_shift w 3 rfl), hwindow, hlaw,
    ?sampleWindow⟩
  case general => rw [husr, shiftIn_toNat, shiftIn_toNat]
  case sample =>
    rintro rfl rfl
    exact hjoin (.inr (by decide))
  case sampleWindow =>
    intro hhi hlo hk2
    apply BitVec.eq_of_toNat_eq
    rw [State.acc_setAcc, hlaw (.inr (by rw [hlo]; decide)), hhi, hlo, hk2]
    decide

/-! ### HLT, NOP, EI, DI (spec/45_io_and_control.md rules R262 to R267) -/

/-- What a call returns beside the state it completes with: the instruction's count, or the halt signal where it has
none. -/
theorem runCycleResult_of_exec {s u t : State} {injected : Option Byte} {i : Instr} (hrun : Running s)
    (hf : s.fetchInstr injected = .ok (i, u)) (hx : exec i u = .next t) :
    (cyclesOf i u = none → runCycleResult injected s = .halt t) ∧
      ∀ n, cyclesOf i u = some n → runCycleResult injected s = .next t n := by
  have hcycle : runCycle injected s = .next t := by rw [runCycle_of_running hrun, hf]; exact hx
  constructor
  · intro hc
    simp only [runCycleResult, hcycle, hf, hc]
  · intro n hc
    simp only [runCycleResult, hcycle, hf, hc]

/-- The state HLT reaches. -/
def haltedAt (s : State) : State := { s with halted := true }

theorem exec_hlt (s : State) : exec .hlt s = .next (haltedAt s) := rfl

theorem only_haltedAt (s : State) : OnlyChanges { halted := true } s (haltedAt s) := exec_only (exec_hlt s)

/-- Settles O56: fetched or injected, one `haltedAt` on the state the fetch leaves. -/
theorem haltIsTerminal : Obligations.HaltIsTerminal := by
  refine ⟨encodedAs_of_implied rfl, fun s => ⟨_, exec_hlt s, rfl, only_haltedAt s⟩, fun s n hs hrun hmove => ?_⟩
  have hboth : step s = exec .hlt (afterFetch s n) ∧
      s.fetchInstr (if n = 1 then none else some 0x76) = .ok (.hlt, advanced s n) := by
    rcases hmove with ⟨hmove, hbyte, rfl⟩ | ⟨hmove, rfl⟩
    · have hselects : decodeOpcode 0x76 = .implied .hlt := rfl
      obtain ⟨rest, hd⟩ := decode_bytesFrom_of_implied hs.pc_lt (hbyte ▸ hselects)
      exact ⟨stepRunsTheFetchedInstruction s .hlt rest hs hrun hmove hd, fetchInstr_of_decode_fetched hs.pc_lt hd⟩
    · have hd := decode_implied (op := 0x76) (i := .hlt) (bytesFrom s s.pc.toNat 2) rfl
      exact ⟨stepRunsTheInjectedOpcode s 0x76 .hlt _ hs hrun hmove hd, fetchInstr_of_decode_injected hs.pc_lt hd⟩
  obtain ⟨hstep, hfetch⟩ := hboth
  obtain ⟨hsignal, -⟩ := runCycleResult_of_exec hrun hfetch (exec_hlt _)
  exact ⟨haltedAt (afterFetch s n), hstep, rfl, only_haltedAt _, hsignal rfl,
    fun m => ((haltedOrFaultedCoreTakesNoStep (haltedAt (afterFetch s n)) m none).1 rfl).1⟩

/-- Settles O57: each answers the state it is given. -/
theorem nopAndInterruptControlChangeNothing : Obligations.NopAndInterruptControlChangeNothing := fun _ =>
  ⟨encodedAs_of_implied rfl, encodedAs_of_implied rfl, encodedAs_of_implied rfl, rfl, rfl, rfl⟩

/-! ### Cycle counts (spec/70_reset_and_hazards.md rule R352) -/

theorem cycles_pos (op : Byte) (taken : Bool) : 0 < cycles op taken := by
  cases taken <;> simp [cycles]

theorem cycles_le_taken (op : Byte) : cycles op false ≤ cycles op true := by
  simp [cycles]
  omega

theorem cycles_lt_taken {op : Byte} (h : isCallOrReturnIf op = true) : cycles op false < cycles op true := by
  simp [cycles, h]

theorem opcodeOf_jumpOn (k : Cond) (a : Word) : opcodeOf (jumpOn k a) = 0b11#2 ++ k.code ++ 0b010#3 := by
  cases k <;> rfl

theorem opcodeOf_callOn (k : Cond) (a : Word) : opcodeOf (callOn k a) = 0b11#2 ++ k.code ++ 0b100#3 := by
  cases k <;> rfl

theorem opcodeOf_returnOn (k : Cond) : opcodeOf (returnOn k) = 0b11#2 ++ k.code ++ 0b000#3 := by
  cases k <;> rfl

theorem isCallOrReturnIf_callOn (k : Cond) (a : Word) : isCallOrReturnIf (opcodeOf (callOn k a)) = true := by
  rw [opcodeOf_callOn]
  cases k <;> decide

theorem isCallOrReturnIf_returnOn (k : Cond) : isCallOrReturnIf (opcodeOf (returnOn k)) = true := by
  rw [opcodeOf_returnOn]
  cases k <;> decide

theorem builds_opcodeOf {i : Instr} (h : i.wellFormed = true) : Builds (decodeOpcode (opcodeOf i)) i := by
  obtain ⟨op, operands, he, hop⟩ := encode_builds h
  rwa [opcodeOf_of_encode he]

/-- The conditional forms, by their condition. -/
theorem conditional_cases {i : Instr} {k : Cond} (h : conditionOf i = some k) :
    (∃ a, i = jumpOn k a) ∨ (∃ a, i = callOn k a) ∨ i = returnOn k := by
  cases i with
  | jnz a | jz a | jnc a | jc a | jpo a | jpe a | jp a | jm a => cases h; exact .inl ⟨a, rfl⟩
  | cnz a | cz a | cnc a | cc a | cpo a | cpe a | cp a | cm a => cases h; exact .inr (.inl ⟨a, rfl⟩)
  | rnz | rz | rnc | rc | rpo | rpe | rp | rm => cases h; exact .inr (.inr rfl)
  | _ => cases h

/-- The opcode alone tells whether an instruction is conditional, and on what. -/
theorem conditionOf_eq_some_iff {i : Instr} {k : Cond} (hwf : i.wellFormed = true) : conditionOf i = some k ↔
    opcodeOf i = 0b11#2 ++ k.code ++ 0b010#3 ∨ opcodeOf i = 0b11#2 ++ k.code ++ 0b100#3 ∨
      opcodeOf i = 0b11#2 ++ k.code ++ 0b000#3 := by
  have builds := builds_opcodeOf hwf
  constructor
  · intro h
    rcases conditional_cases h with ⟨a, rfl⟩ | ⟨a, rfl⟩ | rfl
    · exact .inl (opcodeOf_jumpOn k a)
    · exact .inr (.inl (opcodeOf_callOn k a))
    · exact .inr (.inr (opcodeOf_returnOn k))
  · rintro (h | h | h)
    · rw [h, decodeOpcode_jumpOn] at builds
      obtain ⟨a, rfl⟩ := builds
      cases k <;> rfl
    · rw [h, decodeOpcode_callOn] at builds
      obtain ⟨a, rfl⟩ := builds
      cases k <;> rfl
    · rw [h, decodeOpcode_returnOn] at builds
      obtain rfl : returnOn k = i := builds
      cases k <;> rfl

theorem isTaken_iff_holds {i : Instr} {s : State} :
    isTaken i s = true ↔ ∃ k, conditionOf i = some k ∧ s.flags.holds k = true := by
  unfold isTaken
  cases conditionOf i <;> simp

theorem isTaken_iff {i : Instr} (hwf : i.wellFormed = true) (s : State) :
    isTaken i s = true ↔ ConditionMet (opcodeOf i) s.flags := by
  rw [isTaken_iff_holds]
  refine exists_congr fun k => ?_
  rw [conditionOf_eq_some_iff hwf, holds_iff, and_comm]

theorem eq_hlt_iff {i : Instr} (hwf : i.wellFormed = true) : i = .hlt ↔ opcodeOf i = 0x76 := by
  constructor
  · rintro rfl; rfl
  · intro h
    have builds := builds_opcodeOf hwf
    rw [h] at builds
    exact Eq.symm builds

theorem cyclesOf_of_ne_hlt {i : Instr} (h : i ≠ .hlt) (s : State) :
    cyclesOf i s = some (cycles (opcodeOf i) (isTaken i s)) := by
  cases i with
  | hlt => exact absurd rfl h
  | _ => rfl

/-- Settles O58: the fetched instruction has the step's opcode, which tells HLT and the conditional forms apart; the
flags it is run on are those of the call. -/
theorem cycleCountsArePositiveAndOrdered : Obligations.CycleCountsArePositiveAndOrdered := by
  refine ⟨cycles_pos, fun k a => ⟨cycles_le_taken _, cycles_lt_taken (isCallOrReturnIf_callOn k a),
    cycles_lt_taken (isCallOrReturnIf_returnOn k)⟩, fun s t injected h => ?_⟩
  intro op
  obtain ⟨hrun, i, u, hf, hx⟩ := runCycle_next h
  obtain ⟨hwf, hop, pc, rfl⟩ := fetchInstr_next hf
  obtain ⟨hhalt, hcount⟩ := runCycleResult_of_exec hrun hf hx
  have hop : opcodeOf i = op := hop
  rw [← hop]
  refine ⟨fun h76 => ?halts, fun hne => ?counts⟩
  case halts =>
    obtain rfl : i = .hlt := (eq_hlt_iff hwf).mpr h76
    cases hx
    exact ⟨rfl, hhalt rfl⟩
  case counts =>
    have hi : i ≠ .hlt := mt (eq_hlt_iff hwf).mp hne
    exact ⟨(exec_halted hx hi).trans hrun.1, _, isTaken_iff hwf _, hcount _ (cyclesOf_of_ne_hlt hi _)⟩

end Sys2Proof.Safety
